-- ==== Sys2Proof/Word.lean ====
section
/-! DEFINITION. The word types of the packet-frame dispatcher. Every value is unsigned (00_scope.md R12):
a byte of the frame space (20_memory.md R50), the 16- and 32-bit fields of the frame formats (30_encoding.md
R80 to R94), the 48-bit link addresses (R82) and the 64-bit traffic counters (10_state.md R30). -/

namespace Sys2Proof

/-- One byte of a frame (20_memory.md R50). -/
abbrev Byte := BitVec 8

/-- A 16-bit field: EtherType, IPv4 total length and identifier, ports, lengths, checksums; also `IDC`. -/
abbrev Half := BitVec 16

/-- A 32-bit field: an IPv4 address or a word of the arithmetic mini-protocol; also the change token. -/
abbrev Word := BitVec 32

/-- A 6-byte link (MAC) address, first byte most significant; moved, never interpreted (46_dispatcher.md R222). -/
abbrev MacAddr := BitVec 48

/-- A 64-bit traffic counter (10_state.md R30). -/
abbrev Counter := BitVec 64

end Sys2Proof
end

