-- ==== Sys2Proof/Config.lean ====
section
/-! DEFINITION. The parameters of 00_scope.md R8 that every rule uses at one value, and the constants the source
fixes (R9). The three parameters that R8 leaves OPEN (`W`, `N_IF`, `MAX_FRAME_LEN`) are fields of the machine's
state (Machine/State.lean, `Params`), so that every statement ranges over them; their values at `State.reset` stand
here. See notes/assumptions/4.md and 10.md. -/

namespace Sys2Proof.Config

/-- `ETHERTYPE_IPV4` (00_scope.md R8; the spec's decision D1). -/
def ethertypeIpv4 : Half := 0x0800#16

/-- `ETHERTYPE_ARP` (00_scope.md R8; the spec's decision D1). -/
def ethertypeArp : Half := 0x0806#16

/-- `MAC_HDR_LEN` (00_scope.md R8, R9). -/
def macHdrLen : Nat := 14

/-- `ARP_MIN_LEN` (00_scope.md R8; 42_arp.md R162). -/
def arpMinLen : Nat := 28

/-- `IP_MIN_HDR` (00_scope.md R8). -/
def ipMinHdr : Nat := 20

/-- `ICMP_MIN_LEN` (00_scope.md R8; 44_icmp.md R194). -/
def icmpMinLen : Nat := 4

/-- `UDP_HDR_LEN` (00_scope.md R8, R9). -/
def udpHdrLen : Nat := 8

/-- The UDP length that triggers the mini-protocol: `UDP_HDR_LEN + ARITH_LEN` (30_encoding.md R97). -/
def arithTrigger : Nat := 24

/-- IPv4 protocol byte of ICMP (00_scope.md R9). -/
def protoIcmp : Byte := 1#8

/-- IPv4 protocol byte of UDP (00_scope.md R9). -/
def protoUdp : Byte := 17#8

/-- ICMP type of an echo request (00_scope.md R9). -/
def icmpEchoRequest : Byte := 8#8

/-- ICMP type of an echo reply (00_scope.md R9). -/
def icmpEchoReply : Byte := 0#8

/-- ARP opcode `reply` (00_scope.md R9). -/
def arpOpReply : Half := 2#16

/-- `kind` of a mini-protocol request (00_scope.md R9). -/
def kindRequest : Word := 1#32

/-- `kind` of a mini-protocol response (00_scope.md R9). -/
def kindResponse : Word := 2#32

/-- `operator` add (00_scope.md R9). -/
def operAdd : Word := 1#32

/-- `operator` subtract (00_scope.md R9). -/
def operSub : Word := 2#32

/-- `ID_RESET` (00_scope.md R8; 10_state.md R35; the spec's decision D7). -/
def idReset : Half := 0#16

/-- `N_IF` at `State.reset`: the default of 00_scope.md R8. -/
def nIfDefault : Nat := 1

/-- `W` at `State.reset`. DESIGN CHOICE (unsafe; notes/assumptions/4.md): R8 leaves `W` open; 1 is the value its
test vectors use. -/
def workersDefault : Nat := 1

/-- `MAX_FRAME_LEN` at `State.reset`. DESIGN CHOICE (unsafe; notes/assumptions/4.md): R8 leaves it open and says that
at least 14 + 65535 is needed to exercise every IPv4 total length. -/
def maxFrameLenDefault : Nat := 14 + 65535

end Sys2Proof.Config
end

