-- ==== Sys2Proof/Machine/Bytes.lean ====
section
/-! DEFINITION. Byte sequences and byte order: every multi-byte numeric field is big-endian, the lower offset the more
significant (20_memory.md R53, R54), and `F[a..a+n-1]` is a slice of the frame (00_scope.md R13). -/

namespace Sys2Proof.Machine

/-- The unsigned big-endian value of a byte sequence (00_scope.md R14, 20_memory.md R53). -/
def beNat : List Byte → Nat
  | [] => 0
  | b :: l => b.toNat * 256 ^ l.length + beNat l

/-- The `n` bytes of `v mod 256^n`, most significant first (00_scope.md R14, `MemWrite`). -/
def beBytes : Nat → Nat → List Byte
  | 0, _ => []
  | n + 1, v => BitVec.ofNat 8 (v / 256 ^ n) :: beBytes n v

/-- `F[a..a+n-1]` (00_scope.md R13); shorter where the frame ends before `a + n`. -/
def slice (F : List Byte) (a n : Nat) : List Byte := (F.drop a).take n

/-- `F` with the bytes from offset `a` on replaced by `bs`. -/
def splice (F : List Byte) (a : Nat) (bs : List Byte) : List Byte :=
  F.take a ++ bs ++ F.drop (a + bs.length)

/-- `MemRead(a, n)` over a plain byte sequence, as the classification uses it (00_scope.md R14); meaningful where
`a + n ≤ L`, which 30_encoding.md R100 has checked wherever it reads. -/
def rd (F : List Byte) (a n : Nat) : Nat := beNat (slice F a n)

/-- An `n`-byte field of `F` at offset `a` as a bit vector (30_encoding.md R96). -/
def field (w : Nat) (F : List Byte) (a : Nat) : BitVec (8 * w) := BitVec.ofNat (8 * w) (rd F a w)

end Sys2Proof.Machine
end

