-- ==== Sys2Proof/Syntax.lean ====
section
/-! DEFINITION. The instructions: the twenty classes of 30_encoding.md R100, one constructor per row of
spec/opcode_table.json. The instruction word is the whole inbound frame (00_scope.md R3), so a constructor carries
every field of its frame: nothing of the frame is dropped, and `encode` (Decode.lean) gives the frame back. A field
whose value the class itself fixes (the EtherType of an ARP frame, the type byte of an echo request, `kind` of a
request) is not an operand. -/

namespace Sys2Proof

/-- The link addresses of the MAC header, 30_encoding.md R82. The EtherType is the selector. -/
structure MacHdr where
  /-- `F[0..5]`, destination address. -/
  dmac : MacAddr
  /-- `F[6..11]`, source address. -/
  smac : MacAddr
deriving DecidableEq, Repr

/-- The 28 bytes of ARP format, 30_encoding.md R84. -/
structure ArpHdr where
  /-- Hardware type, `F[14..15]`. -/
  htype : Half
  /-- Protocol type, `F[16..17]`. -/
  ptype : Half
  /-- Hardware address length, `F[18]`. -/
  hlen : Byte
  /-- Protocol address length, `F[19]`. -/
  plen : Byte
  /-- Opcode, `F[20..21]`. -/
  oper : Half
  /-- Sender block, hardware address, `F[22..27]`. -/
  senderHw : MacAddr
  /-- Sender block, protocol address, `F[28..31]`. -/
  senderPa : Word
  /-- Target block, hardware address, `F[32..37]`. -/
  targetHw : MacAddr
  /-- Target block, protocol address, `F[38..41]`. -/
  targetPa : Word
deriving DecidableEq, Repr

/-- The 20 fixed bytes of the IPv4 header, `F[14..33]`, 30_encoding.md R86. The options are a separate operand. -/
structure IpHdr where
  /-- Version, bits 7:4 of `F[14]`; not examined. -/
  version : BitVec 4
  /-- `IHL`, bits 3:0 of `F[14]`; the header is `4 * IHL` bytes long. -/
  ihl : BitVec 4
  /-- Type of service, `F[15]`. -/
  tos : Byte
  /-- Total length `tot`, `F[16..17]`. -/
  tot : Half
  /-- Identifier, `F[18..19]`. -/
  ident : Half
  /-- The fragmentation-flags byte `F[20]`: flags in bits 7:5, high part of the fragment offset in bits 4:0. -/
  fragFlags : Byte
  /-- Low part of the fragment offset, `F[21]`. -/
  fragLow : Byte
  /-- Time to live, `F[22]`. -/
  ttl : Byte
  /-- Protocol, `F[23]`. -/
  proto : Byte
  /-- Header checksum, `F[24..25]`. -/
  hcs : Half
  /-- Source address, `F[26..29]`. -/
  src : Word
  /-- Destination address, `F[30..33]`. -/
  dst : Word
deriving DecidableEq, Repr

/-- The UDP header, `F[T..T+7]`, 30_encoding.md R90. -/
structure UdpHdr where
  /-- Source port. -/
  sport : Half
  /-- Destination port. -/
  dport : Half
  /-- UDP length `ul`, header included. -/
  ul : Half
  /-- UDP checksum. -/
  ucs : Half
deriving DecidableEq, Repr

/-- The twenty classes of a frame (30_encoding.md R100): ten operations and ten drop classes. In every IPv4 class
`pad` is the link padding `F[14+tot..]`; in the UDP operations `extra` is `F[T+ul..13+tot]`, the bytes of the IPv4
packet after the datagram (20_memory.md R59). -/
inductive Instr where
  /-- `DROP 1`, RUNT_FRAME: fewer than 14 bytes. -/
  | drop1 (bytes : List Byte)
  /-- `DROP 2`, ARP_TRUNCATED: `rest` is everything after the MAC header. -/
  | drop2 (mac : MacHdr) (rest : List Byte)
  /-- `ARP.REPLY` (42_arp.md R160); `trailer` is `F[42..]`. -/
  | arpReply (mac : MacHdr) (arp : ArpHdr) (trailer : List Byte)
  /-- `DROP 3`, IP_TRUNCATED. -/
  | drop3 (mac : MacHdr) (rest : List Byte)
  /-- `DROP 4`, IP_BAD_IHL; `rest` is `F[34..]`. -/
  | drop4 (mac : MacHdr) (ip : IpHdr) (rest : List Byte)
  /-- `DROP 5`, IP_BAD_TOTAL_LENGTH. -/
  | drop5 (mac : MacHdr) (ip : IpHdr) (rest : List Byte)
  /-- `DROP 6`, IP_LENGTH_EXCEEDS_FRAME. -/
  | drop6 (mac : MacHdr) (ip : IpHdr) (rest : List Byte)
  /-- `DROP 7`, ICMP_TRUNCATED; `data` is the whole ICMP message `F[T..13+tot]`. -/
  | drop7 (mac : MacHdr) (ip : IpHdr) (opts data pad : List Byte)
  /-- `ICMP.ECHO` (44_icmp.md R190); `rest` is the message after its checksum field. -/
  | icmpEcho (mac : MacHdr) (ip : IpHdr) (opts : List Byte) (code : Byte) (ics : Half) (rest pad : List Byte)
  /-- `ICMP.PASS` (44_icmp.md R192). -/
  | icmpPass (mac : MacHdr) (ip : IpHdr) (opts : List Byte) (itype code : Byte) (ics : Half) (rest pad : List Byte)
  /-- `DROP 8`, UDP_TRUNCATED. -/
  | drop8 (mac : MacHdr) (ip : IpHdr) (opts data pad : List Byte)
  /-- `DROP 9`, UDP_BAD_LENGTH; `rest` is `F[T+8..13+tot]`. -/
  | drop9 (mac : MacHdr) (ip : IpHdr) (opts : List Byte) (udp : UdpHdr) (rest pad : List Byte)
  /-- `DROP 10`, UDP_LENGTH_EXCEEDS_DATAGRAM. -/
  | drop10 (mac : MacHdr) (ip : IpHdr) (opts : List Byte) (udp : UdpHdr) (rest pad : List Byte)
  /-- `UDP.SWAP` (45_udp.md R206). -/
  | udpSwap (mac : MacHdr) (ip : IpHdr) (opts : List Byte) (udp : UdpHdr) (payload extra pad : List Byte)
  /-- `UDP.SKIP` (45_udp.md R207): a 16-byte payload that is not a request. -/
  | udpSkip (mac : MacHdr) (ip : IpHdr) (opts : List Byte) (udp : UdpHdr) (kind opA opB oper : Word) (extra pad : List Byte)
  /-- `UDP.ADD` (41_arith.md R142). -/
  | udpAdd (mac : MacHdr) (ip : IpHdr) (opts : List Byte) (udp : UdpHdr) (opA opB : Word) (extra pad : List Byte)
  /-- `UDP.SUB` (41_arith.md R143). -/
  | udpSub (mac : MacHdr) (ip : IpHdr) (opts : List Byte) (udp : UdpHdr) (opA opB : Word) (extra pad : List Byte)
  /-- `UDP.KEEP` (41_arith.md R144): a request with no defined operator. -/
  | udpKeep (mac : MacHdr) (ip : IpHdr) (opts : List Byte) (udp : UdpHdr) (opA opB oper : Word) (extra pad : List Byte)
  /-- `IP.PASS` (43_ipv4.md R178); `data` is the transport data `F[T..13+tot]`. -/
  | ipPass (mac : MacHdr) (ip : IpHdr) (opts data pad : List Byte)
  /-- `ETH.PASS` (46_dispatcher.md R225). -/
  | ethPass (mac : MacHdr) (et : Half) (payload : List Byte)
deriving DecidableEq, Repr

end Sys2Proof
end

