-- ==== Sys2Proof/Machine/Operands.lean ====
section
/-! DEFINITION. The working values of a reflection (10_state.md R21, 30_encoding.md R96), assembled from the decoded
header fields of the frame as it arrived (20_memory.md R66). No value is sign-extended and only `ihl` is scaled. -/

namespace Sys2Proof.Machine

/-- `ihl`: the IPv4 header length in bytes, four times the low nibble of the first byte (30_encoding.md R96). -/
def ihlBytes (ip : IpHdr) : Nat := ip.ihl.toNat * 4

/-- `tot`: the IPv4 total length (30_encoding.md R96). -/
def totLen (ip : IpHdr) : Nat := ip.tot.toNat

/-- `tl = tot - ihl`: the transport length (30_encoding.md R96). -/
def transportLen (ip : IpHdr) : Nat := totLen ip - ihlBytes ip

/-- `T = 14 + ihl`: the frame offset of the transport header (30_encoding.md R96, R98). -/
def transportOff (ip : IpHdr) : Nat := Config.macHdrLen + ihlBytes ip

/-- `ul`: the UDP length field (30_encoding.md R96; 45_udp.md R201). -/
def udpLen (udp : UdpHdr) : Nat := udp.ul.toNat

end Sys2Proof.Machine
end

