-- ==== Sys2Proof/WellFormed.lean ====
section
/-! DEFINITION. When an instruction's fields are consistent with its class: the selector of its row of
spec/opcode_table.json and the lengths the frame itself declares (30_encoding.md R98, R100, R101). Exactly the
well-formed instructions are the decodings of frames. -/

namespace Sys2Proof

open Machine

/-- The IPv4 part of an accepted header: `20 ≤ ihl`, the options fill the header, and `tot` covers header and the `tl`
bytes of transport data (30_encoding.md R86, R98). -/
def ipWf (ip : IpHdr) (opts : List Byte) (tl : Nat) : Bool :=
  decide (Config.ipMinHdr ≤ ihlBytes ip) && decide (opts.length + Config.ipMinHdr = ihlBytes ip) &&
    decide (totLen ip = ihlBytes ip + tl)

/-- A UDP datagram that triggers the mini-protocol, followed by `extra` bytes of the packet (30_encoding.md R97). -/
def arithWf (ip : IpHdr) (opts : List Byte) (udp : UdpHdr) (extra : List Byte) : Bool :=
  ipWf ip opts (Config.arithTrigger + extra.length) && decide (ip.proto = Config.protoUdp) &&
    decide (udpLen udp = Config.arithTrigger)

/-- The instruction is one that some frame decodes to (30_encoding.md R100, R101). -/
def Instr.wf : Instr → Bool
  | .drop1 bytes => decide (bytes.length < Config.macHdrLen)
  | .drop2 _ rest => decide (rest.length < Config.arpMinLen)
  | .arpReply _ _ _ => true
  | .drop3 _ rest => decide (rest.length < Config.ipMinHdr)
  | .drop4 _ ip _ => decide (ihlBytes ip < Config.ipMinHdr)
  | .drop5 _ ip _ => decide (Config.ipMinHdr ≤ ihlBytes ip) && decide (totLen ip < ihlBytes ip)
  | .drop6 _ ip rest =>
    decide (Config.ipMinHdr ≤ ihlBytes ip) && decide (ihlBytes ip ≤ totLen ip) &&
      decide (Config.ipMinHdr + rest.length < totLen ip)
  | .drop7 _ ip opts data _ =>
    ipWf ip opts data.length && decide (ip.proto = Config.protoIcmp) && decide (data.length < Config.icmpMinLen)
  | .icmpEcho _ ip opts _ _ rest _ =>
    ipWf ip opts (Config.icmpMinLen + rest.length) && decide (ip.proto = Config.protoIcmp)
  | .icmpPass _ ip opts itype _ _ rest _ =>
    ipWf ip opts (Config.icmpMinLen + rest.length) && decide (ip.proto = Config.protoIcmp) &&
      decide (itype ≠ Config.icmpEchoRequest)
  | .drop8 _ ip opts data _ =>
    ipWf ip opts data.length && decide (ip.proto = Config.protoUdp) && decide (data.length < Config.udpHdrLen)
  | .drop9 _ ip opts udp rest _ =>
    ipWf ip opts (Config.udpHdrLen + rest.length) && decide (ip.proto = Config.protoUdp) &&
      decide (udpLen udp < Config.udpHdrLen)
  | .drop10 _ ip opts udp rest _ =>
    ipWf ip opts (Config.udpHdrLen + rest.length) && decide (ip.proto = Config.protoUdp) &&
      decide (Config.udpHdrLen ≤ udpLen udp) && decide (Config.udpHdrLen + rest.length < udpLen udp)
  | .udpSwap _ ip opts udp payload extra _ =>
    ipWf ip opts (Config.udpHdrLen + payload.length + extra.length) && decide (ip.proto = Config.protoUdp) &&
      decide (udpLen udp = Config.udpHdrLen + payload.length) && decide (udpLen udp ≠ Config.arithTrigger)
  | .udpSkip _ ip opts udp kind _ _ _ extra _ =>
    arithWf ip opts udp extra && decide (kind ≠ Config.kindRequest)
  | .udpAdd _ ip opts udp _ _ extra _ => arithWf ip opts udp extra
  | .udpSub _ ip opts udp _ _ extra _ => arithWf ip opts udp extra
  | .udpKeep _ ip opts udp _ _ oper extra _ =>
    arithWf ip opts udp extra && decide (oper ≠ Config.operAdd) && decide (oper ≠ Config.operSub)
  | .ipPass _ ip opts data _ =>
    ipWf ip opts data.length && decide (ip.proto ≠ Config.protoIcmp) && decide (ip.proto ≠ Config.protoUdp)
  | .ethPass _ et _ => decide (et ≠ Config.ethertypeIpv4) && decide (et ≠ Config.ethertypeArp)

end Sys2Proof
end

