-- ==== Sys2Proof/Decode.lean ====
section
/-! DEFINITION. Classification, validation, the decoder and the encoder. `classify` is the decision procedure of
30_encoding.md R100, `validate` the ordered checks of 60_exceptions.md R272, `rowHolds` the twenty independent rows of
spec/opcode_table.json (R109), `decode` the assembly of a frame's fields (R82 to R92, R96) and `encode` their layout.
Decoding is total: every frame has exactly one class (R102), and there is no reserved encoding (R105). -/

namespace Sys2Proof

open Machine

/-- The ten drop codes and their names (60_exceptions.md R272, R274). -/
inductive DropCode where
  | runtFrame | arpTruncated | ipTruncated | ipBadIhl | ipBadTotalLength | ipLengthExceedsFrame
  | icmpTruncated | udpTruncated | udpBadLength | udpLengthExceedsDatagram
deriving DecidableEq, Repr

/-- The number of a drop code (60_exceptions.md R272). -/
def dropNumber : DropCode → Nat
  | .runtFrame => 1
  | .arpTruncated => 2
  | .ipTruncated => 3
  | .ipBadIhl => 4
  | .ipBadTotalLength => 5
  | .ipLengthExceedsFrame => 6
  | .icmpTruncated => 7
  | .udpTruncated => 8
  | .udpBadLength => 9
  | .udpLengthExceedsDatagram => 10

/-- The twenty classes by name (30_encoding.md R100, R101). -/
inductive FrameClass where
  | drop (code : DropCode)
  | arpReply | icmpEcho | icmpPass | udpSwap | udpSkip | udpAdd | udpSub | udpKeep | ipPass | ethPass
deriving DecidableEq, Repr

/-! ### The values the classification reads (30_encoding.md R96) -/

/-- `et`. -/
def frameEt (F : List Byte) : Nat := rd F 12 2
/-- `ihl`, in bytes. -/
def frameIhl (F : List Byte) : Nat := (rd F 14 1 % 16) * 4
/-- `tot`. -/
def frameTot (F : List Byte) : Nat := rd F 16 2
/-- `proto`. -/
def frameProto (F : List Byte) : Nat := rd F 23 1
/-- `T = 14 + ihl`. -/
def frameT (F : List Byte) : Nat := 14 + frameIhl F
/-- `tl = tot - ihl`. -/
def frameTl (F : List Byte) : Nat := frameTot F - frameIhl F
/-- `itype`. -/
def frameItype (F : List Byte) : Nat := rd F (frameT F) 1
/-- `ul`. -/
def frameUl (F : List Byte) : Nat := rd F (frameT F + 4) 2
/-- `kind`. -/
def frameKind (F : List Byte) : Nat := rd F (frameT F + 8) 4
/-- `oper`. -/
def frameOper (F : List Byte) : Nat := rd F (frameT F + 20) 4

/-- The classes below a validated ICMP protocol byte (30_encoding.md R100). -/
def classifyIcmp (F : List Byte) : FrameClass :=
  if frameTl F < 4 then .drop .icmpTruncated
  else if frameItype F = 8 then .icmpEcho
  else .icmpPass

/-- The classes below a UDP protocol byte (30_encoding.md R100). -/
def classifyUdp (F : List Byte) : FrameClass :=
  if frameTl F < 8 then .drop .udpTruncated
  else if frameUl F < 8 then .drop .udpBadLength
  else if frameTl F < frameUl F then .drop .udpLengthExceedsDatagram
  else if frameUl F ≠ 24 then .udpSwap
  else if frameKind F ≠ 1 then .udpSkip
  else if frameOper F = 1 then .udpAdd
  else if frameOper F = 2 then .udpSub
  else .udpKeep

/-- The classes below the IPv4 EtherType (30_encoding.md R100). -/
def classifyIpv4 (F : List Byte) : FrameClass :=
  if F.length - 14 < 20 then .drop .ipTruncated
  else if frameIhl F < 20 then .drop .ipBadIhl
  else if frameTot F < frameIhl F then .drop .ipBadTotalLength
  else if F.length - 14 < frameTot F then .drop .ipLengthExceedsFrame
  else if frameProto F = 1 then classifyIcmp F
  else if frameProto F = 17 then classifyUdp F
  else .ipPass

/-- `classify(F, L)`, 30_encoding.md R100, evaluated on the frame as it arrived. -/
def classify (F : List Byte) : FrameClass :=
  if F.length < 14 then .drop .runtFrame
  else if frameEt F = Config.ethertypeArp.toNat then
    if F.length - 14 < 28 then .drop .arpTruncated else .arpReply
  else if frameEt F = Config.ethertypeIpv4.toNat then classifyIpv4 F
  else .ethPass

/-! ### Validation (60_exceptions.md R272) -/

/-- One check of 60_exceptions.md R272: its code, when it applies, and the condition for the drop. -/
structure Check where
  /-- The code the check raises. -/
  code : DropCode
  /-- The column "applies when". -/
  applies : Bool
  /-- The column "condition for the drop". -/
  fails : Bool
deriving DecidableEq, Repr

/-- The ten checks in the order of 60_exceptions.md R272. -/
def checks (F : List Byte) : List Check :=
  let ip := decide (frameEt F = Config.ethertypeIpv4.toNat)
  let arp := decide (frameEt F = Config.ethertypeArp.toNat)
  let udp := ip && decide (frameProto F = 17)
  [ ⟨.runtFrame, true, decide (F.length < 14)⟩,
    ⟨.arpTruncated, arp, decide (F.length - 14 < 28)⟩,
    ⟨.ipTruncated, ip, decide (F.length - 14 < 20)⟩,
    ⟨.ipBadIhl, ip, decide (frameIhl F < 20)⟩,
    ⟨.ipBadTotalLength, ip, decide (frameTot F < frameIhl F)⟩,
    ⟨.ipLengthExceedsFrame, ip, decide (F.length - 14 < frameTot F)⟩,
    ⟨.icmpTruncated, ip && decide (frameProto F = 1), decide (frameTl F < 4)⟩,
    ⟨.udpTruncated, udp, decide (frameTl F < 8)⟩,
    ⟨.udpBadLength, udp, decide (frameUl F < 8)⟩,
    ⟨.udpLengthExceedsDatagram, udp, decide (frameTl F < frameUl F)⟩ ]

/-- `validate(F, L)`: the first failing check, or none for an accepted frame (60_exceptions.md R272, R275). -/
def validate (F : List Byte) : Option DropCode :=
  ((checks F).find? (fun c => c.applies && c.fails)).map Check.code

/-! ### The opcode table as independent rows (30_encoding.md R109) -/

/-- The conditions an accepted IPv4 header meets in the rows of spec/opcode_table.json. -/
def rowIp (F : List Byte) : Bool :=
  decide (14 ≤ F.length) && decide (frameEt F = Config.ethertypeIpv4.toNat) && decide (20 ≤ F.length - 14) &&
    decide (20 ≤ frameIhl F) && decide (frameIhl F ≤ frameTot F) && decide (frameTot F ≤ F.length - 14)

/-- `rowIp` with `proto = 17` and a whole UDP header. -/
def rowUdp (F : List Byte) : Bool := rowIp F && decide (frameProto F = 17) && decide (8 ≤ frameTl F)

/-- `rowUdp` with a 16-byte payload. -/
def rowArith (F : List Byte) : Bool := rowUdp F && decide (frameUl F = 24) && decide (frameUl F ≤ frameTl F)

/-- The row of spec/opcode_table.json for a class, its mask, match and `fields` written out in full; the rows do not
rely on `priority` (30_encoding.md R109). -/
def rowHolds (F : List Byte) : FrameClass → Bool
  | .drop .runtFrame => decide (F.length < 14)
  | .drop .arpTruncated =>
    decide (frameEt F = Config.ethertypeArp.toNat) && decide (14 ≤ F.length) && decide (F.length - 14 < 28)
  | .arpReply => decide (frameEt F = Config.ethertypeArp.toNat) && decide (28 ≤ F.length - 14)
  | .drop .ipTruncated =>
    decide (frameEt F = Config.ethertypeIpv4.toNat) && decide (14 ≤ F.length) && decide (F.length - 14 < 20)
  | .drop .ipBadIhl =>
    decide (frameEt F = Config.ethertypeIpv4.toNat) && decide (20 ≤ F.length - 14) && decide (frameIhl F < 20)
  | .drop .ipBadTotalLength =>
    decide (frameEt F = Config.ethertypeIpv4.toNat) && decide (20 ≤ F.length - 14) && decide (20 ≤ frameIhl F) &&
      decide (frameTot F < frameIhl F)
  | .drop .ipLengthExceedsFrame =>
    decide (frameEt F = Config.ethertypeIpv4.toNat) && decide (20 ≤ F.length - 14) && decide (20 ≤ frameIhl F) &&
      decide (frameIhl F ≤ frameTot F) && decide (F.length - 14 < frameTot F)
  | .drop .icmpTruncated => rowIp F && decide (frameProto F = 1) && decide (frameTl F < 4)
  | .icmpEcho => rowIp F && decide (frameProto F = 1) && decide (4 ≤ frameTl F) && decide (frameItype F = 8)
  | .icmpPass => rowIp F && decide (frameProto F = 1) && decide (4 ≤ frameTl F) && decide (frameItype F ≠ 8)
  | .drop .udpTruncated => rowIp F && decide (frameProto F = 17) && decide (frameTl F < 8)
  | .drop .udpBadLength => rowUdp F && decide (frameUl F < 8)
  | .drop .udpLengthExceedsDatagram => rowUdp F && decide (8 ≤ frameUl F) && decide (frameTl F < frameUl F)
  | .udpSwap => rowUdp F && decide (8 ≤ frameUl F) && decide (frameUl F ≤ frameTl F) && decide (frameUl F ≠ 24)
  | .udpSkip => rowArith F && decide (frameKind F ≠ 1)
  | .udpAdd => rowArith F && decide (frameKind F = 1) && decide (frameOper F = 1)
  | .udpSub => rowArith F && decide (frameKind F = 1) && decide (frameOper F = 2)
  | .udpKeep => rowArith F && decide (frameKind F = 1) && decide (frameOper F ≠ 1) && decide (frameOper F ≠ 2)
  | .ipPass => rowIp F && decide (frameProto F ≠ 1) && decide (frameProto F ≠ 17)
  | .ethPass =>
    decide (14 ≤ F.length) && decide (frameEt F ≠ Config.ethertypeIpv4.toNat) &&
      decide (frameEt F ≠ Config.ethertypeArp.toNat)

/-! ### Assembling the fields (30_encoding.md R82 to R92, R96) -/

/-- MAC format, 30_encoding.md R82. -/
def getMac (F : List Byte) : MacHdr := ⟨field 6 F 0, field 6 F 6⟩

/-- ARP format, 30_encoding.md R84. -/
def getArp (F : List Byte) : ArpHdr :=
  { htype := field 2 F 14, ptype := field 2 F 16, hlen := field 1 F 18, plen := field 1 F 19, oper := field 2 F 20,
    senderHw := field 6 F 22, senderPa := field 4 F 28, targetHw := field 6 F 32, targetPa := field 4 F 38 }

/-- IPv4 format, 30_encoding.md R86. -/
def getIp (F : List Byte) : IpHdr :=
  { version := BitVec.ofNat 4 (rd F 14 1 / 16), ihl := BitVec.ofNat 4 (rd F 14 1 % 16), tos := field 1 F 15,
    tot := field 2 F 16, ident := field 2 F 18, fragFlags := field 1 F 20, fragLow := field 1 F 21, ttl := field 1 F 22,
    proto := field 1 F 23, hcs := field 2 F 24, src := field 4 F 26, dst := field 4 F 30 }

/-- UDP format at offset `t`, 30_encoding.md R90. -/
def getUdp (F : List Byte) (t : Nat) : UdpHdr := ⟨field 2 F t, field 2 F (t + 2), field 2 F (t + 4), field 2 F (t + 6)⟩

/-- The IPv4 options `F[34..13+ihl]` (30_encoding.md R98). -/
def getOpts (F : List Byte) : List Byte := slice F 34 (frameIhl F - 20)

/-- The bytes from frame offset `a` to the end of the IPv4 packet, `F[a..13+tot]`. -/
def getData (F : List Byte) (a : Nat) : List Byte := slice F a (14 + frameTot F - a)

/-- The link padding `F[14+tot..L-1]` (20_memory.md R59). -/
def getPad (F : List Byte) : List Byte := F.drop (14 + frameTot F)

/-- The instruction of class `c` whose fields stand in `F` (30_encoding.md R82 to R96). -/
def assemble (c : FrameClass) (F : List Byte) : Instr :=
  let mac := getMac F
  let ip := getIp F
  let opts := getOpts F
  let t := frameT F
  let udp := getUdp F t
  let word (k : Nat) : Word := field 4 F (t + 8 + 4 * k)
  let pad := getPad F
  match c with
  | .drop .runtFrame => .drop1 F
  | .drop .arpTruncated => .drop2 mac (F.drop 14)
  | .arpReply => .arpReply mac (getArp F) (F.drop 42)
  | .drop .ipTruncated => .drop3 mac (F.drop 14)
  | .drop .ipBadIhl => .drop4 mac ip (F.drop 34)
  | .drop .ipBadTotalLength => .drop5 mac ip (F.drop 34)
  | .drop .ipLengthExceedsFrame => .drop6 mac ip (F.drop 34)
  | .drop .icmpTruncated => .drop7 mac ip opts (getData F t) pad
  | .icmpEcho => .icmpEcho mac ip opts (field 1 F (t + 1)) (field 2 F (t + 2)) (getData F (t + 4)) pad
  | .icmpPass =>
    .icmpPass mac ip opts (field 1 F t) (field 1 F (t + 1)) (field 2 F (t + 2)) (getData F (t + 4)) pad
  | .drop .udpTruncated => .drop8 mac ip opts (getData F t) pad
  | .drop .udpBadLength => .drop9 mac ip opts udp (getData F (t + 8)) pad
  | .drop .udpLengthExceedsDatagram => .drop10 mac ip opts udp (getData F (t + 8)) pad
  | .udpSwap => .udpSwap mac ip opts udp (slice F (t + 8) (frameUl F - 8)) (getData F (t + frameUl F)) pad
  | .udpSkip => .udpSkip mac ip opts udp (word 0) (word 1) (word 2) (word 3) (getData F (t + 24)) pad
  | .udpAdd => .udpAdd mac ip opts udp (word 1) (word 2) (getData F (t + 24)) pad
  | .udpSub => .udpSub mac ip opts udp (word 1) (word 2) (getData F (t + 24)) pad
  | .udpKeep => .udpKeep mac ip opts udp (word 1) (word 2) (word 3) (getData F (t + 24)) pad
  | .ipPass => .ipPass mac ip opts (getData F t) pad
  | .ethPass => .ethPass mac (field 2 F 12) (F.drop 14)

/-- The instruction a frame is (30_encoding.md R100, R102). -/
def decode (F : List Byte) : Instr := assemble (classify F) F

/-- The class a constructor stands for (30_encoding.md R101). -/
def classOf : Instr → FrameClass
  | .drop1 .. => .drop .runtFrame
  | .drop2 .. => .drop .arpTruncated
  | .arpReply .. => .arpReply
  | .drop3 .. => .drop .ipTruncated
  | .drop4 .. => .drop .ipBadIhl
  | .drop5 .. => .drop .ipBadTotalLength
  | .drop6 .. => .drop .ipLengthExceedsFrame
  | .drop7 .. => .drop .icmpTruncated
  | .icmpEcho .. => .icmpEcho
  | .icmpPass .. => .icmpPass
  | .drop8 .. => .drop .udpTruncated
  | .drop9 .. => .drop .udpBadLength
  | .drop10 .. => .drop .udpLengthExceedsDatagram
  | .udpSwap .. => .udpSwap
  | .udpSkip .. => .udpSkip
  | .udpAdd .. => .udpAdd
  | .udpSub .. => .udpSub
  | .udpKeep .. => .udpKeep
  | .ipPass .. => .ipPass
  | .ethPass .. => .ethPass

/-! ### The encoder: the layouts of 30_encoding.md R82 to R92 -/

/-- A `w`-byte field, big-endian (20_memory.md R53). -/
def fieldBytes (w : Nat) (v : BitVec (8 * w)) : List Byte := beBytes w v.toNat

/-- MAC format with its EtherType, 30_encoding.md R82. -/
def macBytes (mac : MacHdr) (et : Half) : List Byte :=
  fieldBytes 6 mac.dmac ++ fieldBytes 6 mac.smac ++ fieldBytes 2 et

/-- ARP format, 30_encoding.md R84. -/
def arpBytes (a : ArpHdr) : List Byte :=
  fieldBytes 2 a.htype ++ fieldBytes 2 a.ptype ++ fieldBytes 1 a.hlen ++ fieldBytes 1 a.plen ++ fieldBytes 2 a.oper ++
    fieldBytes 6 a.senderHw ++ fieldBytes 4 a.senderPa ++ fieldBytes 6 a.targetHw ++ fieldBytes 4 a.targetPa

/-- The 20 fixed bytes of the IPv4 header, 30_encoding.md R86. -/
def ipBytes (ip : IpHdr) : List Byte :=
  beBytes 1 (ip.version.toNat * 16 + ip.ihl.toNat) ++ fieldBytes 1 ip.tos ++ fieldBytes 2 ip.tot ++
    fieldBytes 2 ip.ident ++ fieldBytes 1 ip.fragFlags ++ fieldBytes 1 ip.fragLow ++ fieldBytes 1 ip.ttl ++
    fieldBytes 1 ip.proto ++ fieldBytes 2 ip.hcs ++ fieldBytes 4 ip.src ++ fieldBytes 4 ip.dst

/-- The UDP header, 30_encoding.md R90. -/
def udpBytes (u : UdpHdr) : List Byte :=
  fieldBytes 2 u.sport ++ fieldBytes 2 u.dport ++ fieldBytes 2 u.ul ++ fieldBytes 2 u.ucs

/-- The ICMP type, code and checksum, 30_encoding.md R88. -/
def icmpBytes (itype code : Byte) (ics : Half) : List Byte :=
  fieldBytes 1 itype ++ fieldBytes 1 code ++ fieldBytes 2 ics

/-- The four mini-protocol words, 30_encoding.md R92. -/
def arithBytes (kind opA opB oper : Word) : List Byte :=
  fieldBytes 4 kind ++ fieldBytes 4 opA ++ fieldBytes 4 opB ++ fieldBytes 4 oper

/-- A frame of the IPv4 EtherType up to its transport header (30_encoding.md R82, R86). -/
def ipFrame (mac : MacHdr) (ip : IpHdr) (opts transport : List Byte) : List Byte :=
  macBytes mac Config.ethertypeIpv4 ++ (ipBytes ip ++ (opts ++ transport))

/-- The frame of an instruction, from the layouts of 30_encoding.md R82 to R92. -/
def encode : Instr → List Byte
  | .drop1 bytes => bytes
  | .drop2 mac rest => macBytes mac Config.ethertypeArp ++ rest
  | .arpReply mac arp trailer => macBytes mac Config.ethertypeArp ++ (arpBytes arp ++ trailer)
  | .drop3 mac rest => macBytes mac Config.ethertypeIpv4 ++ rest
  | .drop4 mac ip rest => ipFrame mac ip [] rest
  | .drop5 mac ip rest => ipFrame mac ip [] rest
  | .drop6 mac ip rest => ipFrame mac ip [] rest
  | .drop7 mac ip opts data pad => ipFrame mac ip opts (data ++ pad)
  | .icmpEcho mac ip opts code ics rest pad =>
    ipFrame mac ip opts (icmpBytes Config.icmpEchoRequest code ics ++ (rest ++ pad))
  | .icmpPass mac ip opts itype code ics rest pad => ipFrame mac ip opts (icmpBytes itype code ics ++ (rest ++ pad))
  | .drop8 mac ip opts data pad => ipFrame mac ip opts (data ++ pad)
  | .drop9 mac ip opts udp rest pad => ipFrame mac ip opts (udpBytes udp ++ (rest ++ pad))
  | .drop10 mac ip opts udp rest pad => ipFrame mac ip opts (udpBytes udp ++ (rest ++ pad))
  | .udpSwap mac ip opts udp payload extra pad =>
    ipFrame mac ip opts (udpBytes udp ++ (payload ++ (extra ++ pad)))
  | .udpSkip mac ip opts udp kind opA opB oper extra pad =>
    ipFrame mac ip opts (udpBytes udp ++ (arithBytes kind opA opB oper ++ (extra ++ pad)))
  | .udpAdd mac ip opts udp opA opB extra pad =>
    ipFrame mac ip opts (udpBytes udp ++ (arithBytes Config.kindRequest opA opB Config.operAdd ++ (extra ++ pad)))
  | .udpSub mac ip opts udp opA opB extra pad =>
    ipFrame mac ip opts (udpBytes udp ++ (arithBytes Config.kindRequest opA opB Config.operSub ++ (extra ++ pad)))
  | .udpKeep mac ip opts udp opA opB oper extra pad =>
    ipFrame mac ip opts (udpBytes udp ++ (arithBytes Config.kindRequest opA opB oper ++ (extra ++ pad)))
  | .ipPass mac ip opts data pad => ipFrame mac ip opts (data ++ pad)
  | .ethPass mac et payload => macBytes mac et ++ payload

/-! ### Words of spec/opcode_table.json -/

/-- The bits of a table row as bytes of a frame. The table writes the MAC header as ONE 112-bit word with `F[0]` most
significant (30_encoding.md R109), so the bytes are those of `w`, most significant first. DESIGN CHOICE
(notes/assumptions/11.md): a row with a whole MAC header is extended with zero bytes to 42 bytes, the least length at which
the fixed part of every layer exists; a shorter one is the runt it is. -/
def tableFrame (nbits w : Nat) : List Byte :=
  let bytes := beBytes (nbits / 8) w
  if bytes.length < Config.macHdrLen then bytes else bytes ++ List.replicate (42 - bytes.length) 0#8

/-- The instruction the decoder reads from an instruction of the table whose bits are `w` (30_encoding.md R109). -/
def decodeTableWord (nbits w : Nat) : Option Instr :=
  if nbits % 8 = 0 then some (decode (tableFrame nbits w)) else none

end Sys2Proof
end

