-- ==== Sys2Proof/Machine/State.lean ====
section
/-! DEFINITION. The state of the block as plain data: the architectural state of 10_state.md R25, the frame space of the
reflection in progress (R32, R34; 20_memory.md R50), the open parameters of 00_scope.md R8, and the host's side of the
transactions of 46_dispatcher.md R230. INVENTORY.md, "State", lists every field with its rule and its reset value. -/

namespace Sys2Proof.Machine

/-- A counter block `STAT[i][w]` (10_state.md R28 to R31). -/
structure StatBlock where
  /-- Received packets (R28, R30). -/
  rxPackets : Counter
  /-- Transmitted packets (R28, R30). -/
  txPackets : Counter
  /-- Received bytes (R28, R30). -/
  rxBytes : Counter
  /-- Transmitted bytes (R28, R30). -/
  txBytes : Counter
  /-- The change token (R31). -/
  token : Word
deriving DecidableEq, Repr

/-- A counter block after reset (10_state.md R35). -/
def StatBlock.zero : StatBlock := ⟨0, 0, 0, 0, 0⟩

/-- The four counters of a snapshot (47_statistics.md R252); the token is no part of it (10_state.md R31). -/
structure Snapshot where
  /-- Received packets. -/
  rxPackets : Counter
  /-- Transmitted packets. -/
  txPackets : Counter
  /-- Received bytes. -/
  rxBytes : Counter
  /-- Transmitted bytes. -/
  txBytes : Counter
deriving DecidableEq, Repr

/-- The empty sum. -/
def Snapshot.zero : Snapshot := ⟨0, 0, 0, 0⟩

/-- The frame space of a reflection: address and byte, addresses rising (20_memory.md R50). An address that is not
listed does not exist and reads as no value (R52). -/
abbrev Memory := List Host.Cell

/-- The reflection in progress: the inputs `i`, `w` and the buffer of 46_dispatcher.md R220. -/
structure Reflection where
  /-- The owning interface handle `i`. -/
  iface : Nat
  /-- The worker `w` that delivered the frame. -/
  worker : Nat
  /-- The frame buffer. -/
  frame : Memory
deriving DecidableEq, Repr

/-- The parameters that 00_scope.md R8 leaves OPEN (10_state.md R36: parameters, not state). -/
structure Params where
  /-- `N_IF`, the number of interface instances. -/
  nIf : Nat
  /-- `W`, the number of worker lanes. -/
  workers : Nat
  /-- `MAX_FRAME_LEN`. -/
  maxFrameLen : Nat
deriving DecidableEq, Repr

/-- Where the reader of one block stands in the retry protocol of 47_statistics.md R253. -/
inductive ReadPhase where
  /-- About to record the token. -/
  | start
  /-- The token is recorded. -/
  | recorded (token : Word)
  /-- The four counters are copied; the token is still to be re-checked. -/
  | copied (token : Word) (copy : Snapshot)
deriving DecidableEq, Repr

/-- A `STATS_READ(i)` in progress (47_statistics.md R252): the blocks of all workers but those of `todo` are in `sum`. -/
structure SnapRead where
  /-- The interface read. -/
  iface : Nat
  /-- The workers whose blocks are not in the sum yet; the copy that has begun, if any, is of the first one's block. -/
  todo : List Nat
  /-- The sum of the consistent copies taken so far. -/
  sum : Snapshot
  /-- Progress with the block of the first worker of `todo`. -/
  phase : ReadPhase
deriving DecidableEq, Repr

/-- What acts on the block from outside, one entry an action (46_dispatcher.md R230), in the order in which the actions
take effect (00_scope.md R11). -/
inductive Event where
  /-- `FRAME_IN(i, w, F, L)`, with the length the host states. -/
  | frameIn (i w : Nat) (len : Nat) (bytes : List Byte)
  /-- `STATS_READ(i)` begins. -/
  | statsRead (i : Nat)
  /-- The reader takes its next small step with the `k`-th snapshot in progress (47_statistics.md R253). Where a copy begins, `w`
  says of which worker's block; none is the first one that is left. The spec fixes no order of the blocks (20_memory.md R63),
  so it is an input. -/
  | readerStep (k : Nat) (w : Option Nat)
  /-- `RESET` (70_reset_and_hazards.md R300). -/
  | reset
  /-- Parameter setting before reset (46_dispatcher.md R230, 70_reset_and_hazards.md R302). -/
  | setParams (p : Params)
deriving DecidableEq, Repr

/-- What the block hands to the host: the outcome of a `FRAME_IN` or the result of a `STATS_READ`. -/
inductive Delivery where
  /-- `REFLECT(F', L')`, delivered as new traffic on interface `i` (46_dispatcher.md R228, R229). -/
  | reflect (i : Nat) (bytes : List Byte)
  /-- `DROP(code)` (60_exceptions.md R270): the code and nothing else (R274). -/
  | drop (code : DropCode)
  /-- The four sums of `STATS_READ(i)` (47_statistics.md R252). -/
  | snapshot (i : Nat) (sums : Snapshot)
deriving DecidableEq, Repr

/-- The whole machine. -/
structure State where
  /-- `IDC`, the Packet Identifier Counter (10_state.md R26, R27). -/
  idc : Half
  /-- `STAT[i][w]`, by interface and then worker (10_state.md R28). -/
  stats : List (List StatBlock)
  /-- The reflection in progress, none between frames (10_state.md R32 (a), R34). -/
  cur : Option Reflection
  /-- The open parameters (00_scope.md R8). -/
  params : Params
  /-- `RESET` has been applied since the parameters were last set (70_reset_and_hazards.md R302). Model's own. -/
  ready : Bool
  /-- The snapshots in progress. Model's own. -/
  reads : List SnapRead
  /-- What happens next, oldest first. Model's own. -/
  events : List Event
  /-- What has been handed to the host, newest first. Model's own. -/
  delivered : List Delivery
deriving DecidableEq, Repr

/-- Why a step can stop with a fault. Each is a fault of the model that no state meeting the invariant `Inv` of
Safety.lean reaches; a stop where the hardware could go on is safe. -/
inductive Fault where
  /-- An access to a frame address that does not exist (20_memory.md R52). Raised by the frame-space accesses of
  Machine/Ops.lean. Safe: 60_exceptions.md R276 says that no accepted frame causes it. -/
  | outOfBounds
  /-- A counter block outside `N_IF` times `W` (10_state.md R28). Raised by the statistics update. Safe. -/
  | noSuchBlock
  /-- An operation with no reflection in progress (46_dispatcher.md R220: a step has a frame). Raised by every meaning.
  Safe. -/
  | noReflection
deriving DecidableEq, Repr

/-- Why a step can be refused: the runs to which the spec gives no meaning because the host breaks a duty
(46_dispatcher.md R232, 93_implementation_defined.md U12). Each is safe: such a run is outside every claim. -/
inductive Refusal where
  /-- An instruction that has no meaning yet; raised by an arm of `exec` alone. Safe. -/
  | notModelled (mnemonic : String)
  /-- `FRAME_IN` with a length that is not the buffer's (46_dispatcher.md R232). Safe. -/
  | wrongLength
  /-- `FRAME_IN` with a frame longer than `MAX_FRAME_LEN` (46_dispatcher.md R232). Safe. -/
  | frameTooLong
  /-- `FRAME_IN` with an interface `i ≥ N_IF` (46_dispatcher.md R220); `STATS_READ` of an interface that has no counter blocks
  (10_state.md R28): `i ≥ N_IF`, or, between parameter setting and `RESET`, any `i` that had none before (DESIGN CHOICE,
  notes/assumptions/5.md). Safe. -/
  | noSuchInterface
  /-- `FRAME_IN` with a worker `w ≥ W` (46_dispatcher.md R220). Safe. -/
  | noSuchWorker
  /-- `FRAME_IN` between parameter setting and `RESET` (70_reset_and_hazards.md R302). Safe. -/
  | notReset
  /-- Parameter setting with `N_IF = 0` or `W = 0` (00_scope.md R8). Safe. -/
  | badParams
deriving DecidableEq, Repr

/-- The counter blocks right after reset: `N_IF` times `W` blocks of zeros (10_state.md R35). -/
def freshStats (p : Params) : List (List StatBlock) :=
  List.replicate p.nIf (List.replicate p.workers StatBlock.zero)

/-- The parameters at `State.reset` (Config.lean; notes/assumptions/4.md). -/
def defaultParams : Params := ⟨Config.nIfDefault, Config.workersDefault, Config.maxFrameLenDefault⟩

/-- The machine right after `RESET` (10_state.md R35, 70_reset_and_hazards.md R300): counters, tokens and `IDC` zero, no
frame in progress, nothing presented and nothing delivered. -/
def State.reset : State where
  idc := Config.idReset
  stats := freshStats defaultParams
  cur := none
  params := defaultParams
  ready := true
  reads := []
  events := []
  delivered := []

end Sys2Proof.Machine
end

