-- ==== Sys2Proof/Machine/Ops.lean ====
section
/-! DEFINITION. The named operations every meaning is written over: the frame space (20_memory.md R50 to R55), the Packet
Identifier Counter (R62), the statistics update (47_statistics.md R250), the end of a reflection (46_dispatcher.md R228,
R229), taking the one exception the block has, the drop (60_exceptions.md R270), and the host transactions that are not
frames (46_dispatcher.md R230). There is no return from an exception (60_exceptions.md R277). -/

namespace Sys2Proof.Machine

open Host (Outcome)

/-! ### The frame space -/

/-- The cells of a byte sequence from address `a` on. -/
def cellsFrom (a : Nat) : List Byte → Memory
  | [] => []
  | b :: l => (a, b) :: cellsFrom (a + 1) l

/-- The frame space of a frame: `F[k]` at address `k` (20_memory.md R50). -/
def ofBytes (F : List Byte) : Memory := cellsFrom 0 F

/-- The bytes of a frame space in address order. -/
def bytesOf (m : Memory) : List Byte := m.map Prod.snd

/-- `L`, the number of bytes of a frame space (20_memory.md R50). -/
def frameLen (m : Memory) : Nat := m.length

/-- The canonical form: addresses strictly rising. An unlisted address reads as no value, so no entry is redundant. -/
abbrev Memory.wf (m : Memory) : Prop := m.Pairwise (fun x y => x.1 < y.1)

/-- The frame space is `F[0]` to `F[L-1]` and no other address (20_memory.md R50). -/
abbrev Memory.dense (m : Memory) : Prop := m = ofBytes (bytesOf m)

/-- The byte at an address, none where the address does not exist (20_memory.md R52). -/
def readByte : Memory → Nat → Option Byte
  | [], _ => none
  | (k, b) :: m, a => if k = a then some b else readByte m a

/-- `m` with byte `b` at address `a`, the canonical form kept. -/
def writeByte : Memory → Nat → Byte → Memory
  | [], a, b => [(a, b)]
  | (k, c) :: m, a, b =>
    if a < k then (a, b) :: (k, c) :: m
    else if a = k then (a, b) :: m
    else (k, c) :: writeByte m a b

/-- The bytes `F[a..a+n-1]`, the read access of 20_memory.md R51; a fault where one of them does not exist (20_memory.md R52). -/
def loadBytes (m : Memory) (a : Nat) : Nat → Except Fault (List Byte)
  | 0 => .ok []
  | n + 1 =>
    match readByte m a with
    | none => .error .outOfBounds
    | some b =>
      match loadBytes m (a + 1) n with
      | .error f => .error f
      | .ok l => .ok (b :: l)

/-- Store bytes from address `a` on; a fault, and nothing stored, where one of the addresses does not exist. -/
def storeBytes (m : Memory) (a : Nat) : List Byte → Except Fault Memory
  | [] => .ok m
  | b :: l =>
    match readByte m a with
    | none => .error .outOfBounds
    | some _ => storeBytes (writeByte m a b) (a + 1) l

/-- `MemWrite(a, n, v)` (00_scope.md R14, 20_memory.md R51): `v mod 256^n`, big-endian. -/
def memWrite (m : Memory) (a n v : Nat) : Except Fault Memory := storeBytes m a (beBytes n v)

/-- `swap(a, b, n)` (00_scope.md R14, 20_memory.md R51): both fields are read before either is written
(70_reset_and_hazards.md R312). -/
def memSwap (m : Memory) (a b n : Nat) : Except Fault Memory :=
  match loadBytes m a n, loadBytes m b n with
  | .ok x, .ok y =>
    match storeBytes m a y with
    | .ok m' => storeBytes m' b x
    | .error f => .error f
  | .error f, _ => .error f
  | .ok _, .error f => .error f

/-! ### The Packet Identifier Counter -/

/-- The atomic fetch-and-increment of `IDC`: the value before, and the state with the value after (20_memory.md R62,
43_ipv4.md R174). -/
def drawIdentifier (s : State) : Half × State := (s.idc, { s with idc := s.idc + 1 })

/-! ### The counter blocks -/

/-- `STAT[i][w]`, none outside `N_IF` times `W` (10_state.md R28). -/
def statAt (stats : List (List StatBlock)) (i w : Nat) : Option StatBlock :=
  match stats[i]? with
  | none => none
  | some row => row[w]?

/-- The counter blocks with `STAT[i][w]` replaced. -/
def setStat (stats : List (List StatBlock)) (i w : Nat) (b : StatBlock) : List (List StatBlock) :=
  match stats[i]? with
  | none => stats
  | some row => stats.set i (row.set w b)

/-- A block after one frame of `L` bytes was reflected (47_statistics.md R250, R251). -/
def bumpBlock (b : StatBlock) (L : Nat) : StatBlock :=
  { txPackets := b.txPackets + 1
    txBytes := b.txBytes + BitVec.ofNat 64 L
    rxPackets := b.rxPackets + 1
    rxBytes := b.rxBytes + BitVec.ofNat 64 L
    token := b.token + 1 }

/-- `stats_update(i, w, L)`, one atomic action (47_statistics.md R250). -/
def statsUpdate (i w L : Nat) (s : State) : Except Fault State :=
  match statAt s.stats i w with
  | none => .error .noSuchBlock
  | some b => .ok { s with stats := setStat s.stats i w (bumpBlock b L) }

/-! ### The end of a reflection -/

/-- Hand something to the host (46_dispatcher.md R229). -/
def deliver (d : Delivery) (s : State) : State := { s with delivered := d :: s.delivered }

/-- The frame space ceases (10_state.md R32 (a)) and the outcome is delivered. -/
def endReflection (d : Delivery) (s : State) : State := deliver d { s with cur := none }

/-- Taking the exception, `raise Drop(code)` (60_exceptions.md R270): the outcome is `DROP(code)`; no byte of the frame,
no counter, no token and not `IDC` is changed, and the worker is ready for its next frame (R277). -/
def raiseDrop (code : DropCode) (s : State) : Outcome State Fault Refusal :=
  match s.cur with
  | none => .fault .noReflection
  | some _ => .next (endReflection (.drop code) s)

/-- The last two lines of `reflect` (46_dispatcher.md R220): the statistics update with the frame's length, then the
outcome `REFLECT(F, L)` on the same interface (R228, R229). -/
def finishReflect (r : Reflection) (m : Memory) (s : State) : Outcome State Fault Refusal :=
  match statsUpdate r.iface r.worker (frameLen m) s with
  | .error f => .fault f
  | .ok s' => .next (endReflection (.reflect r.iface (bytesOf m)) s')

/-- A reflection whose frame is rewritten by `body` and that draws no identifier (46_dispatcher.md R220). -/
def reflectWith (body : Memory → Except Fault Memory) (s : State) : Outcome State Fault Refusal :=
  match s.cur with
  | none => .fault .noReflection
  | some r =>
    match body r.frame with
    | .error f => .fault f
    | .ok m => finishReflect r m s

/-- A reflection that draws an identifier from `IDC` and whose frame is rewritten by `body` with it (46_dispatcher.md R220,
43_ipv4.md R170 step 4). -/
def reflectWithId (body : Half → Memory → Except Fault Memory) (s : State) : Outcome State Fault Refusal :=
  match s.cur with
  | none => .fault .noReflection
  | some r =>
    let (id, s') := drawIdentifier s
    match body id r.frame with
    | .error f => .fault f
    | .ok m => finishReflect r m s'

/-! ### Presenting a frame -/

/-- `FRAME_IN(i, w, F, L)`: the frame is taken into the buffer, unless the host breaks a duty (46_dispatcher.md R220, R230,
R232). -/
def acceptFrame (i w len : Nat) (bytes : List Byte) (s : State) : Except Refusal State :=
  if s.ready = false then .error .notReset
  else if s.params.nIf ≤ i then .error .noSuchInterface
  else if s.params.workers ≤ w then .error .noSuchWorker
  else if len ≠ bytes.length then .error .wrongLength
  else if s.params.maxFrameLen < len then .error .frameTooLong
  else .ok { s with cur := some ⟨i, w, ofBytes bytes⟩ }

/-! ### Snapshots -/

/-- The four counters of a block, copied together (20_memory.md R61 (c)). -/
def copyBlock (b : StatBlock) : Snapshot := ⟨b.rxPackets, b.txPackets, b.rxBytes, b.txBytes⟩

/-- The sum of two snapshots, each counter modulo 2^64 (47_statistics.md R252). -/
def addSnapshot (x y : Snapshot) : Snapshot :=
  ⟨x.rxPackets + y.rxPackets, x.txPackets + y.txPackets, x.rxBytes + y.rxBytes, x.txBytes + y.txBytes⟩

/-- The aggregate of a row of counter blocks (47_statistics.md R252). -/
def sumBlocks : List StatBlock → Snapshot
  | [] => Snapshot.zero
  | b :: l => addSnapshot (copyBlock b) (sumBlocks l)

/-- `STATS_READ(i)` begins (47_statistics.md R252). It may at any time, between parameter setting and `RESET` too
(46_dispatcher.md R232): it takes the blocks that interface `i` has. Between the two the spec does not say which interfaces
there are: here they are the ones whose blocks exist, as they were before the parameters were set, so an `i` below a raised
`N_IF` is refused until `RESET`, and one at or above a lowered `N_IF` is read (DESIGN CHOICE, notes/assumptions/5.md). -/
def beginRead (i : Nat) (s : State) : Outcome State Fault Refusal :=
  match s.stats[i]? with
  | none => .refused .noSuchInterface
  | some row => .next { s with reads := s.reads ++ [⟨i, List.range row.length, Snapshot.zero, .start⟩] }

/-- Where a copy begins, the reader takes the block of worker `w` next, if it is not in the sum yet. The spec fixes no order
of the blocks (47_statistics.md R252, 20_memory.md R63), so any order can be asked for; a copy that has begun goes on. -/
def readerChoose (w : Option Nat) (r : SnapRead) : SnapRead :=
  match w, r.phase with
  | some v, .start => if v ∈ r.todo then { r with todo := v :: r.todo.erase v } else r
  | _, _ => r

/-- One small step of the retry protocol on the block `b` of the first worker of `r.todo` (47_statistics.md R253): record the
token, copy the four counters, re-check the token; a changed token discards the copy. -/
def readerAdvance (b : StatBlock) (r : SnapRead) : SnapRead :=
  match r.phase with
  | .start => { r with phase := .recorded b.token }
  | .recorded t => { r with phase := .copied t (copyBlock b) }
  | .copied t c =>
    if b.token = t then { r with todo := r.todo.tail, sum := addSnapshot r.sum c, phase := .start }
    else { r with phase := .start }

/-- One small step of a snapshot against the counter blocks as they stand. A block that a `RESET` with other parameters has
taken away adds nothing (DESIGN CHOICE, notes/assumptions/8.md). -/
def readerTurn (stats : List (List StatBlock)) (r : SnapRead) : SnapRead :=
  match r.todo with
  | [] => r
  | v :: rest =>
    match statAt stats r.iface v with
    | none => { r with todo := rest, phase := .start }
    | some b => readerAdvance b r

/-- The reader's next small step with the `k`-th snapshot in progress. When every worker's block is in the sum, the result
is delivered (47_statistics.md R252). A reader with nothing to do does nothing. -/
def readerStep (k : Nat) (w : Option Nat) (s : State) : Outcome State Fault Refusal :=
  match s.reads[k]? with
  | none => .next s
  | some r =>
    let r' := readerTurn s.stats (readerChoose w r)
    if r'.todo = [] then .next (deliver (.snapshot r.iface r'.sum) { s with reads := s.reads.eraseIdx k })
    else .next { s with reads := s.reads.set k r' }

/-! ### Reset and parameters -/

/-- `RESET` (70_reset_and_hazards.md R300): `IDC`, every counter and every token to its value of 10_state.md R35, no frame in
progress. Parameters are not affected. A snapshot in progress, what the host does next and what it was handed are the host's
(DESIGN CHOICE, notes/assumptions/8.md). -/
def applyReset (s : State) : State :=
  { s with idc := Config.idReset, stats := freshStats s.params, cur := none, ready := true }

/-- Parameter setting (46_dispatcher.md R230, 70_reset_and_hazards.md R302): `N_IF ≥ 1` and `W ≥ 1` (00_scope.md R8); nothing
else of the block is touched, and `RESET` must follow before the first frame. R230 names `N_IF` and `W`; that the same
transaction sets `MAX_FRAME_LEN` is the model's (DESIGN CHOICE, notes/assumptions/4.md). -/
def setParams (p : Params) (s : State) : Outcome State Fault Refusal :=
  if p.nIf = 0 ∨ p.workers = 0 then .refused .badParams
  else .next { s with params := p, ready := false }

end Sys2Proof.Machine
end

