-- ==== Sys2Proof/Machine/Ethernet.lean ====
section
/-! DEFINITION. The frame dispatcher's own part: the MAC address swapper and ETH.PASS (46_dispatcher.md). -/

namespace Sys2Proof.Machine

open Host (Outcome)

/-- The MAC swap, unconditional for every accepted frame (46_dispatcher.md R222). -/
def macSwap (m : Memory) : Except Fault Memory := memSwap m 0 6 6

/-- ETH.PASS: only the MAC swap (46_dispatcher.md R225). -/
def execEthPass (_mac : MacHdr) (_et : Half) (_payload : List Byte) (s : State) : Outcome State Fault Refusal :=
  reflectWith macSwap s

end Sys2Proof.Machine
end

