-- ==== Sys2Proof/Machine/Arp.lean ====
section
/-! DEFINITION. The ARP reflector, 42_arp.md. -/

namespace Sys2Proof.Machine

open Host (Outcome)

/-- The ARP rewrite: opcode 2 (reply), then the two fixed 10-byte blocks exchanged; the declared address lengths are not
read (42_arp.md R160, R161). -/
def arpRewrite (m : Memory) : Except Fault Memory := do
  let m ← memWrite m 20 2 Config.arpOpReply.toNat
  memSwap m 22 32 10

/-- MAC swap, then the ARP rewrite (46_dispatcher.md R220). -/
def arpReflection (m : Memory) : Except Fault Memory := do
  let m ← macSwap m
  arpRewrite m

/-- ARP.REPLY (42_arp.md R160). The incoming opcode is not tested (R163). -/
def execArpReply (_mac : MacHdr) (_arp : ArpHdr) (_trailer : List Byte) (s : State) : Outcome State Fault Refusal :=
  reflectWith arpReflection s

end Sys2Proof.Machine
end

