-- ==== Sys2Proof/Machine/Drops.lean ====
section
/-! DEFINITION. The ten drop classes: each takes the block's one exception with its own code (60_exceptions.md R270, R272).
Validation comes before any write (10_state.md R23, 70_reset_and_hazards.md R313): it is the classification of the frame as it
arrived. -/

namespace Sys2Proof.Machine

open Host (Outcome)

/-- DROP 1, RUNT_FRAME (60_exceptions.md R272). -/
def execDrop1 (_bytes : List Byte) (s : State) : Outcome State Fault Refusal := raiseDrop .runtFrame s

/-- DROP 2, ARP_TRUNCATED (60_exceptions.md R272, 42_arp.md R162). -/
def execDrop2 (_mac : MacHdr) (_rest : List Byte) (s : State) : Outcome State Fault Refusal := raiseDrop .arpTruncated s

/-- DROP 3, IP_TRUNCATED (60_exceptions.md R272, 43_ipv4.md R181). -/
def execDrop3 (_mac : MacHdr) (_rest : List Byte) (s : State) : Outcome State Fault Refusal := raiseDrop .ipTruncated s

/-- DROP 4, IP_BAD_IHL (60_exceptions.md R272, 43_ipv4.md R181). -/
def execDrop4 (_mac : MacHdr) (_ip : IpHdr) (_rest : List Byte) (s : State) : Outcome State Fault Refusal :=
  raiseDrop .ipBadIhl s

/-- DROP 5, IP_BAD_TOTAL_LENGTH (60_exceptions.md R272, 43_ipv4.md R181). -/
def execDrop5 (_mac : MacHdr) (_ip : IpHdr) (_rest : List Byte) (s : State) : Outcome State Fault Refusal :=
  raiseDrop .ipBadTotalLength s

/-- DROP 6, IP_LENGTH_EXCEEDS_FRAME (60_exceptions.md R272, 43_ipv4.md R181). -/
def execDrop6 (_mac : MacHdr) (_ip : IpHdr) (_rest : List Byte) (s : State) : Outcome State Fault Refusal :=
  raiseDrop .ipLengthExceedsFrame s

/-- DROP 7, ICMP_TRUNCATED (60_exceptions.md R272, 44_icmp.md R194). -/
def execDrop7 (_mac : MacHdr) (_ip : IpHdr) (_opts _data _pad : List Byte) (s : State) : Outcome State Fault Refusal :=
  raiseDrop .icmpTruncated s

/-- DROP 8, UDP_TRUNCATED (60_exceptions.md R272, 45_udp.md R210). -/
def execDrop8 (_mac : MacHdr) (_ip : IpHdr) (_opts _data _pad : List Byte) (s : State) : Outcome State Fault Refusal :=
  raiseDrop .udpTruncated s

/-- DROP 9, UDP_BAD_LENGTH (60_exceptions.md R272, 45_udp.md R210). -/
def execDrop9 (_mac : MacHdr) (_ip : IpHdr) (_opts : List Byte) (_udp : UdpHdr) (_rest _pad : List Byte) (s : State) :
    Outcome State Fault Refusal :=
  raiseDrop .udpBadLength s

/-- DROP 10, UDP_LENGTH_EXCEEDS_DATAGRAM (60_exceptions.md R272, 45_udp.md R210). -/
def execDrop10 (_mac : MacHdr) (_ip : IpHdr) (_opts : List Byte) (_udp : UdpHdr) (_rest _pad : List Byte) (s : State) :
    Outcome State Fault Refusal :=
  raiseDrop .udpLengthExceedsDatagram s

end Sys2Proof.Machine
end

