-- ==== Sys2Proof/Machine/Checksum.lean ====
section
/-! DEFINITION. The Internet checksum engine, 40_checksum.md: a pure function of a byte sequence that reads no state and
writes none, and the one way its three callers use it (R125). -/

namespace Sys2Proof.Machine

/-- The sum of the 16-bit big-endian words of a byte sequence, an odd last byte as the high half of a word (40_checksum.md
R120, R123, R129). The 32-bit accumulator cannot overflow for any caller, and the spec defines the sum on unbounded
integers (R121). -/
def wordSum : List Byte → Nat
  | [] => 0
  | [b] => b.toNat * 256
  | a :: b :: l => a.toNat * 256 + b.toNat + wordSum l

/-- The loop `while (sum >> 16) != 0` of 40_checksum.md R120, R122, at most `fuel` times. -/
def foldCarry : Nat → Nat → Nat
  | 0, s => s
  | fuel + 1, s => if s / 65536 = 0 then s else foldCarry fuel (s % 65536 + s / 65536)

/-- The folded sum; each pass makes a sum above 16 bits smaller, so `s` passes are enough for any `s` (40_checksum.md R122). -/
def foldSum (s : Nat) : Nat := foldCarry s s

/-- `cksum(B)`, 40_checksum.md R120: the one's complement of the folded sum. -/
def cksum (B : List Byte) : Half := BitVec.ofNat 16 (65535 - foldSum (wordSum B))

/-- The use of 40_checksum.md R125: write zero into the checksum field, sum the prefix `pre` and the `n` bytes from `a` as they
then stand (70_reset_and_hazards.md R310, R311), write the result big-endian into the field at `at_`. -/
def stampChecksum (pre : List Byte) (a n at_ : Nat) (m : Memory) : Except Fault Memory :=
  match memWrite m at_ 2 0 with
  | .error f => .error f
  | .ok m0 =>
    match loadBytes m0 a n with
    | .error f => .error f
    | .ok l => memWrite m0 at_ 2 (cksum (pre ++ l)).toNat

end Sys2Proof.Machine
end

