-- ==== Sys2Proof/Machine/Flags.lean ====
section
/-! DEFINITION. The block has no status flags and no condition codes: no operation writes a flag and none reads one
(10_state.md R24), so there is no flag computation to model. The only flags are those of the frame's IPv4 header, one byte that
is cleared. -/

namespace Sys2Proof.Machine

/-- Step 5 of 43_ipv4.md R170: the fragmentation-flags byte `F[20]` becomes 0; `F[21]` is not written (R175). -/
def clearFragFlags (m : Memory) : Except Fault Memory := memWrite m 20 1 0

end Sys2Proof.Machine
end

