-- ==== Sys2Proof/Machine/Ipv4.lean ====
section
/-! DEFINITION. The IPv4 header parser and reflector, 43_ipv4.md: the steps that all eight IPv4 operations share, and
IP.PASS. -/

namespace Sys2Proof.Machine

open Host (Outcome)

/-- Steps 3 to 6 of 43_ipv4.md R170: address swap (R172), identifier (R174), flags byte (R175), header checksum over the
whole header, options included (R176). Steps 1 and 2 are the decoded header (R171). -/
def ipv4Steps (ip : IpHdr) (id : Half) (m : Memory) : Except Fault Memory := do
  let m ← memSwap m 26 30 4
  let m ← memWrite m 18 2 id.toNat
  let m ← clearFragFlags m
  stampChecksum [] 14 (ihlBytes ip) 24 m

/-- MAC swap, steps 1 to 6, then the transport layer's `body` (43_ipv4.md R170, step 7). -/
def ipv4Reflection (ip : IpHdr) (body : Memory → Except Fault Memory) (id : Half) (m : Memory) : Except Fault Memory := do
  let m ← macSwap m
  let m ← ipv4Steps ip id m
  body m

/-- An IPv4 reflection, with the identifier drawn from `IDC` (43_ipv4.md R170). -/
def reflectIpv4 (ip : IpHdr) (body : Memory → Except Fault Memory) (s : State) : Outcome State Fault Refusal :=
  reflectWithId (ipv4Reflection ip body) s

/-- IP.PASS: no transport-layer action (43_ipv4.md R178). -/
def execIpPass (_mac : MacHdr) (ip : IpHdr) (_opts _data _pad : List Byte) (s : State) : Outcome State Fault Refusal :=
  reflectIpv4 ip .ok s

end Sys2Proof.Machine
end

