-- ==== Sys2Proof/Machine/Icmp.lean ====
section
/-! DEFINITION. The ICMP echo reflector, 44_icmp.md. -/

namespace Sys2Proof.Machine

open Host (Outcome)

/-- The ICMP rewrite of an echo request: the type byte becomes 0, and the checksum is taken over the whole message of `tl`
bytes with its field zero (44_icmp.md R190, R191). -/
def icmpEchoRewrite (ip : IpHdr) (m : Memory) : Except Fault Memory := do
  let t := transportOff ip
  let m ← memWrite m t 1 Config.icmpEchoReply.toNat
  stampChecksum [] t (transportLen ip) (t + 2) m

/-- ICMP.ECHO (44_icmp.md R190). -/
def execIcmpEcho (_mac : MacHdr) (ip : IpHdr) (_opts : List Byte) (_code : Byte) (_ics : Half) (_rest _pad : List Byte)
    (s : State) : Outcome State Fault Refusal :=
  reflectIpv4 ip (icmpEchoRewrite ip) s

/-- ICMP.PASS: the ICMP message is not written (44_icmp.md R192). -/
def execIcmpPass (_mac : MacHdr) (ip : IpHdr) (_opts : List Byte) (_itype _code : Byte) (_ics : Half)
    (_rest _pad : List Byte) (s : State) : Outcome State Fault Refusal :=
  reflectIpv4 ip .ok s

end Sys2Proof.Machine
end

