-- ==== Sys2Proof/Machine/Arith.lean ====
section
/-! DEFINITION. The UDP mini-protocol arithmetic interpreter, 41_arith.md. -/

namespace Sys2Proof.Machine

/-- UDP.ADD's result, modulo 2^32 (41_arith.md R142, R148). -/
def arithAdd (opA opB : Word) : Word := opA + opB

/-- UDP.SUB's result, modulo 2^32 (41_arith.md R143, R148). -/
def arithSub (opA opB : Word) : Word := opA - opB

/-- UDP.KEEP's result: `operandA` unchanged (41_arith.md R144). -/
def arithKeep (opA : Word) : Word := opA

/-- The four writes of the engine for every request: `kind` 2, the result, 0, 0, at `T+8` (41_arith.md R141). The four
words were read before (20_memory.md R66): they are the decoded operands. -/
def arithRespond (t : Nat) (r : Word) (m : Memory) : Except Fault Memory := do
  let m ← memWrite m (t + 8) 4 Config.kindResponse.toNat
  let m ← memWrite m (t + 12) 4 r.toNat
  let m ← memWrite m (t + 16) 4 0
  memWrite m (t + 20) 4 0

end Sys2Proof.Machine
end

