-- ==== Sys2Proof/Machine/Udp.lean ====
section
/-! DEFINITION. The UDP reflector with port swap, 45_udp.md. -/

namespace Sys2Proof.Machine

open Host (Outcome)

/-- Step 2 of 45_udp.md R200, the port swap (R202). -/
def portSwap (t : Nat) (m : Memory) : Except Fault Memory := memSwap m t (t + 2) 2

/-- The last four bytes of the pseudo-header: zero, protocol 17, UDP length (30_encoding.md R94). -/
def pseudoTail (ul : Nat) : List Byte := [0#8, Config.protoUdp] ++ beBytes 2 ul

/-- Step 4 of 45_udp.md R200: the checksum over the pseudo-header, with the addresses as they stand, and the `ul` bytes of
the datagram with the checksum field zero, stored as it is (R204, R205). -/
def udpChecksum (t ul : Nat) (m : Memory) : Except Fault Memory := do
  let src ← loadBytes m 26 4
  let dst ← loadBytes m 30 4
  stampChecksum (src ++ dst ++ pseudoTail ul) t ul (t + 6) m

/-- The UDP reflector around the engine's writes `engine` (45_udp.md R200). -/
def udpRewrite (ip : IpHdr) (udp : UdpHdr) (engine : Memory → Except Fault Memory) (m : Memory) :
    Except Fault Memory := do
  let m ← portSwap (transportOff ip) m
  let m ← engine m
  udpChecksum (transportOff ip) (udpLen udp) m

/-- A UDP reflection (45_udp.md R200, 43_ipv4.md R170). -/
def reflectUdp (ip : IpHdr) (udp : UdpHdr) (engine : Memory → Except Fault Memory) (s : State) :
    Outcome State Fault Refusal :=
  reflectIpv4 ip (udpRewrite ip udp engine) s

/-- UDP.SWAP: the engine is not triggered (45_udp.md R206, 41_arith.md R147). -/
def execUdpSwap (_mac : MacHdr) (ip : IpHdr) (_opts : List Byte) (udp : UdpHdr) (_payload _extra _pad : List Byte)
    (s : State) : Outcome State Fault Refusal :=
  reflectUdp ip udp .ok s

/-- UDP.SKIP: the engine writes nothing (45_udp.md R207, 41_arith.md R146). -/
def execUdpSkip (_mac : MacHdr) (ip : IpHdr) (_opts : List Byte) (udp : UdpHdr) (_kind _opA _opB _oper : Word)
    (_extra _pad : List Byte) (s : State) : Outcome State Fault Refusal :=
  reflectUdp ip udp .ok s

/-- UDP.ADD (45_udp.md R208, 41_arith.md R142). -/
def execUdpAdd (_mac : MacHdr) (ip : IpHdr) (_opts : List Byte) (udp : UdpHdr) (opA opB : Word)
    (_extra _pad : List Byte) (s : State) : Outcome State Fault Refusal :=
  reflectUdp ip udp (arithRespond (transportOff ip) (arithAdd opA opB)) s

/-- UDP.SUB (45_udp.md R208, 41_arith.md R143). -/
def execUdpSub (_mac : MacHdr) (ip : IpHdr) (_opts : List Byte) (udp : UdpHdr) (opA opB : Word)
    (_extra _pad : List Byte) (s : State) : Outcome State Fault Refusal :=
  reflectUdp ip udp (arithRespond (transportOff ip) (arithSub opA opB)) s

/-- UDP.KEEP (45_udp.md R208, 41_arith.md R144). -/
def execUdpKeep (_mac : MacHdr) (ip : IpHdr) (_opts : List Byte) (udp : UdpHdr) (opA _opB _oper : Word)
    (_extra _pad : List Byte) (s : State) : Outcome State Fault Refusal :=
  reflectUdp ip udp (arithRespond (transportOff ip) (arithKeep opA)) s

end Sys2Proof.Machine
end

