-- ==== Sys2Proof/Machine/Dispatch.lean ====
section
/-! DEFINITION. One arm per class of 30_encoding.md R100, each a direct call of its meaning (46_dispatcher.md R223). -/

namespace Sys2Proof.Machine

open Host (Outcome)

/-- The effect of a decoded frame on the machine that holds it (46_dispatcher.md R220). -/
def exec (i : Instr) (s : State) : Host.Outcome State Fault Refusal :=
  match i with
  | .drop1 bytes => Sys2Proof.Machine.execDrop1 bytes s
  | .drop2 mac rest => Sys2Proof.Machine.execDrop2 mac rest s
  | .arpReply mac arp trailer => Sys2Proof.Machine.execArpReply mac arp trailer s
  | .drop3 mac rest => Sys2Proof.Machine.execDrop3 mac rest s
  | .drop4 mac ip rest => Sys2Proof.Machine.execDrop4 mac ip rest s
  | .drop5 mac ip rest => Sys2Proof.Machine.execDrop5 mac ip rest s
  | .drop6 mac ip rest => Sys2Proof.Machine.execDrop6 mac ip rest s
  | .drop7 mac ip opts data pad => Sys2Proof.Machine.execDrop7 mac ip opts data pad s
  | .icmpEcho mac ip opts code ics rest pad => Sys2Proof.Machine.execIcmpEcho mac ip opts code ics rest pad s
  | .icmpPass mac ip opts itype code ics rest pad => Sys2Proof.Machine.execIcmpPass mac ip opts itype code ics rest pad s
  | .drop8 mac ip opts data pad => Sys2Proof.Machine.execDrop8 mac ip opts data pad s
  | .drop9 mac ip opts udp rest pad => Sys2Proof.Machine.execDrop9 mac ip opts udp rest pad s
  | .drop10 mac ip opts udp rest pad => Sys2Proof.Machine.execDrop10 mac ip opts udp rest pad s
  | .udpSwap mac ip opts udp payload extra pad => Sys2Proof.Machine.execUdpSwap mac ip opts udp payload extra pad s
  | .udpSkip mac ip opts udp kind opA opB oper extra pad => Sys2Proof.Machine.execUdpSkip mac ip opts udp kind opA opB oper extra pad s
  | .udpAdd mac ip opts udp opA opB extra pad => Sys2Proof.Machine.execUdpAdd mac ip opts udp opA opB extra pad s
  | .udpSub mac ip opts udp opA opB extra pad => Sys2Proof.Machine.execUdpSub mac ip opts udp opA opB extra pad s
  | .udpKeep mac ip opts udp opA opB oper extra pad => Sys2Proof.Machine.execUdpKeep mac ip opts udp opA opB oper extra pad s
  | .ipPass mac ip opts data pad => Sys2Proof.Machine.execIpPass mac ip opts data pad s
  | .ethPass mac et payload => Sys2Proof.Machine.execEthPass mac et payload s

end Sys2Proof.Machine
end

