-- ==== Sys2Proof/Machine/Step.lean ====
section
/-! DEFINITION. One step of the machine: a reflection from start to end (00_scope.md R11), or one action of the host or of the
statistics reader (46_dispatcher.md R230), or nothing (60_exceptions.md R287: between frames the block is idle). -/

namespace Sys2Proof.Machine

open Host (Outcome)

/-- The reflection in progress runs to its end: its frame is decoded as it stands in the buffer and executed
(46_dispatcher.md R220, 20_memory.md R66). -/
def runReflection (r : Reflection) (s : State) : Outcome State Fault Refusal := exec (decode (bytesOf r.frame)) s

/-- An action of the host or of the reader (46_dispatcher.md R230). A presented frame is reflected at once, from start to end
(R221). -/
def runEvent (e : Event) (s : State) : Outcome State Fault Refusal :=
  match e with
  | .frameIn i w len bytes =>
    match acceptFrame i w len bytes s with
    | .error why => .refused why
    | .ok s' => exec (decode bytes) s'
  | .statsRead i => beginRead i s
  | .readerStep k w => readerStep k w s
  | .reset => .next (applyReset s)
  | .setParams p => setParams p s

/-- One step. A reflection in progress comes first (46_dispatcher.md R221); then the next action; with none left, a snapshot in
progress goes on, and a machine with nothing to do is idle and keeps its state (60_exceptions.md R287). -/
def step (s : State) : Outcome State Fault Refusal :=
  match s.cur with
  | some r => runReflection r s
  | none =>
    match s.events with
    | e :: rest => runEvent e { s with events := rest }
    | [] =>
      match s.reads with
      | [] => .next s
      | _ :: _ => readerStep 0 none s

/-- `s` with the frame of a table word in the buffer of worker 0 of interface 0, where `step` takes its next instruction from
(notes/assumptions/12.md). -/
def State.withFetchWord (s : State) (nbits w : Nat) : State :=
  { s with cur := some ⟨0, 0, ofBytes (tableFrame nbits w)⟩ }

end Sys2Proof.Machine
end

