-- ==== Sys2Proof/Safety.lean ====
section
/-! DEFINITION. The terms claims are stated in: the invariant of the machine, the reply that a frame is turned into, described
field by field and without any memory access, the bytes an operation may write, and the effect of a reflection on State. -/

namespace Sys2Proof.Machine

/-! ### The invariant -/

/-- What every step keeps. Between two steps of a run the frame space is empty or holds a frame and no other address; the
counter blocks are `N_IF` times `W` (10_state.md R28); a lane names a block that exists; a snapshot adds no block twice; `N_IF`
and `W` are at least 1 (00_scope.md R8). -/
structure Inv (s : State) : Prop where
  /-- `N_IF ≥ 1`. -/
  nIf_pos : 1 ≤ s.params.nIf
  /-- `W ≥ 1`. -/
  workers_pos : 1 ≤ s.params.workers
  /-- After `RESET` there are `N_IF` rows of counter blocks. -/
  rows : s.ready = true → s.stats.length = s.params.nIf
  /-- After `RESET` each row has `W` blocks. -/
  cols : s.ready = true → ∀ row ∈ s.stats, row.length = s.params.workers
  /-- A reflection in progress is on a lane that exists, and its frame space is `F[0]` to `F[L-1]`. -/
  reflection : ∀ r, s.cur = some r →
    s.ready = true ∧ r.iface < s.params.nIf ∧ r.worker < s.params.workers ∧ Memory.dense r.frame
  /-- A snapshot in progress still has to add each block at most once (47_statistics.md R252). -/
  snapshots : ∀ r ∈ s.reads, r.todo.Nodup

/-! ### Replies, field by field -/

/-- The MAC header with its addresses exchanged (46_dispatcher.md R222). -/
def swapMac (m : MacHdr) : MacHdr := ⟨m.smac, m.dmac⟩

/-- The ARP header of the reply: opcode 2, sender and target blocks exchanged (42_arp.md R160, R161). -/
def replyArp (a : ArpHdr) : ArpHdr :=
  { a with oper := Config.arpOpReply, senderHw := a.targetHw, senderPa := a.targetPa, targetHw := a.senderHw,
           targetPa := a.senderPa }

/-- The IPv4 header after steps 3 to 5 of 43_ipv4.md R170 and with its checksum field zero. -/
def rewrittenIp (id : Half) (ip : IpHdr) : IpHdr :=
  { ip with ident := id, fragFlags := 0, hcs := 0, src := ip.dst, dst := ip.src }

/-- The IPv4 header of the reply: the checksum over header and options stored (43_ipv4.md R176). -/
def replyIp (id : Half) (ip : IpHdr) (opts : List Byte) : IpHdr :=
  { rewrittenIp id ip with hcs := cksum (ipBytes (rewrittenIp id ip) ++ opts) }

/-- The checksum of an echo reply over the whole message (44_icmp.md R190, R191). -/
def replyIcs (code : Byte) (rest : List Byte) : Half := cksum (icmpBytes Config.icmpEchoReply code 0 ++ rest)

/-- The pseudo-header (30_encoding.md R94). -/
def pseudoHeader (src dst : Word) (ul : Half) : List Byte :=
  fieldBytes 4 src ++ fieldBytes 4 dst ++ [0#8, Config.protoUdp] ++ fieldBytes 2 ul

/-- The UDP header after the port swap and with its checksum field zero (45_udp.md R202, R204). -/
def rewrittenUdp (udp : UdpHdr) : UdpHdr := ⟨udp.dport, udp.sport, udp.ul, 0⟩

/-- The UDP header of the reply to a datagram of `ip`: the checksum over pseudo-header (addresses as swapped), header and the
payload as it leaves (45_udp.md R204). -/
def replyUdp (ip : IpHdr) (udp : UdpHdr) (payload : List Byte) : UdpHdr :=
  { rewrittenUdp udp with
    ucs := cksum (pseudoHeader ip.dst ip.src udp.ul ++ (udpBytes (rewrittenUdp udp) ++ payload)) }

/-- The response to a mini-protocol request with result `r` (41_arith.md R141): as a frame it is no request any more. -/
def replyArith (id : Half) (mac : MacHdr) (ip : IpHdr) (opts : List Byte) (udp : UdpHdr) (r : Word)
    (extra pad : List Byte) : Instr :=
  .udpSkip (swapMac mac) (replyIp id ip opts) opts
    (replyUdp ip udp (arithBytes Config.kindResponse r 0 0)) Config.kindResponse r 0 0 extra pad

/-- The frame an accepted frame is turned into when `IDC` is `id`, as the instruction it would itself be
(46_dispatcher.md R220; 70_reset_and_hazards.md R318). A drop class has no reply; it stands for itself here. -/
def reply (id : Half) : Instr → Instr
  | .ethPass mac et payload => .ethPass (swapMac mac) et payload
  | .arpReply mac arp trailer => .arpReply (swapMac mac) (replyArp arp) trailer
  | .ipPass mac ip opts data pad => .ipPass (swapMac mac) (replyIp id ip opts) opts data pad
  | .icmpEcho mac ip opts code _ rest pad =>
    .icmpPass (swapMac mac) (replyIp id ip opts) opts Config.icmpEchoReply code (replyIcs code rest) rest pad
  | .icmpPass mac ip opts itype code ics rest pad =>
    .icmpPass (swapMac mac) (replyIp id ip opts) opts itype code ics rest pad
  | .udpSwap mac ip opts udp payload extra pad =>
    .udpSwap (swapMac mac) (replyIp id ip opts) opts (replyUdp ip udp payload) payload extra pad
  | .udpSkip mac ip opts udp kind opA opB oper extra pad =>
    .udpSkip (swapMac mac) (replyIp id ip opts) opts (replyUdp ip udp (arithBytes kind opA opB oper)) kind opA opB oper
      extra pad
  | .udpAdd mac ip opts udp opA opB extra pad => replyArith id mac ip opts udp (opA + opB) extra pad
  | .udpSub mac ip opts udp opA opB extra pad => replyArith id mac ip opts udp (opA - opB) extra pad
  | .udpKeep mac ip opts udp opA _ _ extra pad => replyArith id mac ip opts udp opA extra pad
  | i => i

/-! ### Classes of instructions -/

/-- The drop code of a drop class, none for an operation (60_exceptions.md R272). -/
def dropOf : Instr → Option DropCode
  | .drop1 .. => some .runtFrame
  | .drop2 .. => some .arpTruncated
  | .drop3 .. => some .ipTruncated
  | .drop4 .. => some .ipBadIhl
  | .drop5 .. => some .ipBadTotalLength
  | .drop6 .. => some .ipLengthExceedsFrame
  | .drop7 .. => some .icmpTruncated
  | .drop8 .. => some .udpTruncated
  | .drop9 .. => some .udpBadLength
  | .drop10 .. => some .udpLengthExceedsDatagram
  | _ => none

/-- The IPv4 header and options of one of the eight IPv4 operations (30_encoding.md R101). -/
def ipOf : Instr → Option (IpHdr × List Byte)
  | .ipPass _ ip opts _ _ => some (ip, opts)
  | .icmpEcho _ ip opts _ _ _ _ => some (ip, opts)
  | .icmpPass _ ip opts _ _ _ _ _ => some (ip, opts)
  | .udpSwap _ ip opts _ _ _ _ => some (ip, opts)
  | .udpSkip _ ip opts _ _ _ _ _ _ _ => some (ip, opts)
  | .udpAdd _ ip opts _ _ _ _ _ => some (ip, opts)
  | .udpSub _ ip opts _ _ _ _ _ => some (ip, opts)
  | .udpKeep _ ip opts _ _ _ _ _ _ => some (ip, opts)
  | _ => none

/-- The UDP header of one of the five UDP operations, with its IPv4 header. -/
def udpOf : Instr → Option (IpHdr × UdpHdr)
  | .udpSwap _ ip _ udp _ _ _ => some (ip, udp)
  | .udpSkip _ ip _ udp _ _ _ _ _ _ => some (ip, udp)
  | .udpAdd _ ip _ udp _ _ _ _ => some (ip, udp)
  | .udpSub _ ip _ udp _ _ _ _ => some (ip, udp)
  | .udpKeep _ ip _ udp _ _ _ _ _ => some (ip, udp)
  | _ => none

/-- `IDC` after an instruction: one more for the eight IPv4 operations, the same for the others (46_dispatcher.md R235). -/
def idcAfter (i : Instr) (id : Half) : Half := if (ipOf i).isSome then id + 1 else id

/-! ### Fields the block never examines (30_encoding.md R106) -/

/-- An IPv4 header with every field that R106 says is never examined set to zero: version, type of service, identifier,
flags and fragment offset, time to live, header checksum, addresses. -/
def blankIp (ip : IpHdr) : IpHdr :=
  { version := 0, ihl := ip.ihl, tos := 0, tot := ip.tot, ident := 0, fragFlags := 0, fragLow := 0, ttl := 0,
    proto := ip.proto, hcs := 0, src := 0, dst := 0 }

/-- A UDP header with ports and checksum set to zero. -/
def blankUdp (udp : UdpHdr) : UdpHdr := ⟨0, 0, udp.ul, 0⟩

/-- Zeros in place of a byte sequence. -/
def blankBytes (l : List Byte) : List Byte := List.replicate l.length 0

/-- The MAC header with zero addresses. -/
def blankMac : MacHdr := ⟨0, 0⟩

/-- An instruction with every field that 30_encoding.md R106 says is never examined set to zero (and with it the payload and
padding bytes, which no selector reads). What is left are the lengths, `et`, `ihl`, `tot`, `proto`, `itype`, `ul`, `kind` and
`oper`. -/
def blank : Instr → Instr
  | .drop1 bytes => .drop1 (blankBytes bytes)
  | .drop2 _ rest => .drop2 blankMac (blankBytes rest)
  | .arpReply _ _ trailer => .arpReply blankMac ⟨0, 0, 0, 0, 0, 0, 0, 0, 0⟩ (blankBytes trailer)
  | .drop3 _ rest => .drop3 blankMac (blankBytes rest)
  | .drop4 _ ip rest => .drop4 blankMac (blankIp ip) (blankBytes rest)
  | .drop5 _ ip rest => .drop5 blankMac (blankIp ip) (blankBytes rest)
  | .drop6 _ ip rest => .drop6 blankMac (blankIp ip) (blankBytes rest)
  | .drop7 _ ip opts data pad => .drop7 blankMac (blankIp ip) (blankBytes opts) (blankBytes data) (blankBytes pad)
  | .icmpEcho _ ip opts _ _ rest pad =>
    .icmpEcho blankMac (blankIp ip) (blankBytes opts) 0 0 (blankBytes rest) (blankBytes pad)
  | .icmpPass _ ip opts itype _ _ rest pad =>
    .icmpPass blankMac (blankIp ip) (blankBytes opts) itype 0 0 (blankBytes rest) (blankBytes pad)
  | .drop8 _ ip opts data pad => .drop8 blankMac (blankIp ip) (blankBytes opts) (blankBytes data) (blankBytes pad)
  | .drop9 _ ip opts udp rest pad =>
    .drop9 blankMac (blankIp ip) (blankBytes opts) (blankUdp udp) (blankBytes rest) (blankBytes pad)
  | .drop10 _ ip opts udp rest pad =>
    .drop10 blankMac (blankIp ip) (blankBytes opts) (blankUdp udp) (blankBytes rest) (blankBytes pad)
  | .udpSwap _ ip opts udp payload extra pad =>
    .udpSwap blankMac (blankIp ip) (blankBytes opts) (blankUdp udp) (blankBytes payload) (blankBytes extra)
      (blankBytes pad)
  | .udpSkip _ ip opts udp kind _ _ _ extra pad =>
    .udpSkip blankMac (blankIp ip) (blankBytes opts) (blankUdp udp) kind 0 0 0 (blankBytes extra) (blankBytes pad)
  | .udpAdd _ ip opts udp _ _ extra pad =>
    .udpAdd blankMac (blankIp ip) (blankBytes opts) (blankUdp udp) 0 0 (blankBytes extra) (blankBytes pad)
  | .udpSub _ ip opts udp _ _ extra pad =>
    .udpSub blankMac (blankIp ip) (blankBytes opts) (blankUdp udp) 0 0 (blankBytes extra) (blankBytes pad)
  | .udpKeep _ ip opts udp _ _ oper extra pad =>
    .udpKeep blankMac (blankIp ip) (blankBytes opts) (blankUdp udp) 0 0 oper (blankBytes extra) (blankBytes pad)
  | .ipPass _ ip opts data pad => .ipPass blankMac (blankIp ip) (blankBytes opts) (blankBytes data) (blankBytes pad)
  | .ethPass _ et payload => .ethPass blankMac et (blankBytes payload)

/-! ### The bytes an operation writes (20_memory.md R57) -/

/-- Offset and length of the fields that every IPv4 operation writes (43_ipv4.md R170, 46_dispatcher.md R222). -/
def ipWrites : List (Nat × Nat) := [(0, 12), (18, 2), (20, 1), (24, 2), (26, 8)]

/-- Offset and length of the fields the UDP reflector writes, without the engine (45_udp.md R200). -/
def udpWrites (ip : IpHdr) : List (Nat × Nat) := ipWrites ++ [(transportOff ip, 4), (transportOff ip + 6, 2)]

/-- Offset and length of every field an instruction writes (20_memory.md R57); nothing for a drop. -/
def writes : Instr → List (Nat × Nat)
  | .ethPass .. => [(0, 12)]
  | .arpReply .. => [(0, 12), (20, 2), (22, 20)]
  | .ipPass .. => ipWrites
  | .icmpPass .. => ipWrites
  | .icmpEcho _ ip _ _ _ _ _ => ipWrites ++ [(transportOff ip, 1), (transportOff ip + 2, 2)]
  | .udpSwap _ ip _ _ _ _ _ => udpWrites ip
  | .udpSkip _ ip _ _ _ _ _ _ _ _ => udpWrites ip
  | .udpAdd _ ip _ _ _ _ _ _ => udpWrites ip ++ [(transportOff ip + 8, 16)]
  | .udpSub _ ip _ _ _ _ _ _ => udpWrites ip ++ [(transportOff ip + 8, 16)]
  | .udpKeep _ ip _ _ _ _ _ _ _ => udpWrites ip ++ [(transportOff ip + 8, 16)]
  | _ => []

/-- Offset `a` lies in none of the fields the instruction writes. -/
def untouched (i : Instr) (a : Nat) : Prop := ∀ p ∈ writes i, a < p.1 ∨ p.1 + p.2 ≤ a

/-! ### The effect of a reflection on State -/

/-- `s` after the reflection `r` of a frame whose reply is `out` (46_dispatcher.md R220): `IDC` as given, the block of the
lane bumped once by the length, the frame space gone, the outcome delivered, everything else as in `s`. -/
def afterReflect (s : State) (r : Reflection) (b : StatBlock) (idc : Half) (out : List Byte) : State :=
  { s with
    idc := idc
    stats := setStat s.stats r.iface r.worker (bumpBlock b out.length)
    cur := none
    delivered := .reflect r.iface out :: s.delivered }

/-- `s` after a drop (60_exceptions.md R270): the frame space gone, the code delivered, everything else as in `s`. -/
def afterDrop (s : State) (code : DropCode) : State :=
  { s with cur := none, delivered := .drop code :: s.delivered }

/-- The frame of `i` is the one in the buffer of the reflection `r` of `s`, and the lane's counter block is `b`: what an
instruction finds when `step` runs it on an accepted frame. -/
structure Loaded (s : State) (i : Instr) (r : Reflection) (b : StatBlock) : Prop where
  /-- `r` is in progress. -/
  cur : s.cur = some r
  /-- Its buffer holds the frame of `i` (20_memory.md R50). -/
  frame : r.frame = ofBytes (encode i)
  /-- Its lane's counter block (10_state.md R28). -/
  block : statAt s.stats r.iface r.worker = some b
  /-- The fields of `i` are those of a frame of its class. -/
  wf : i.wf = true

/-- A frame with the lane it is presented to. -/
structure Presented where
  /-- The interface. -/
  iface : Nat
  /-- The worker. -/
  worker : Nat
  /-- The frame. -/
  bytes : List Byte
deriving DecidableEq, Repr

/-- The `FRAME_IN` transaction of a presented frame, with its true length (46_dispatcher.md R232). -/
def frameEvent (x : Presented) : Event := .frameIn x.iface x.worker x.bytes.length x.bytes

/-- What the frames of `fs` that are reflected on interface `j` add to its counters: one packet and their bytes each way
(47_statistics.md R251); nothing for a dropped frame. -/
def tally (fs : List Presented) (j : Nat) : Snapshot :=
  match fs with
  | [] => Snapshot.zero
  | x :: l =>
    if x.iface = j ∧ validate x.bytes = none then
      addSnapshot ⟨1, 1, BitVec.ofNat 64 x.bytes.length, BitVec.ofNat 64 x.bytes.length⟩ (tally l j)
    else tally l j

/-- A presented frame that keeps every duty of the host (46_dispatcher.md R232). -/
structure Presentable (s : State) (i w : Nat) (F : List Byte) : Prop where
  /-- `RESET` has been applied (70_reset_and_hazards.md R302). -/
  ready : s.ready = true
  /-- The interface exists. -/
  iface : i < s.params.nIf
  /-- The worker exists. -/
  worker : w < s.params.workers
  /-- The frame is not longer than `MAX_FRAME_LEN`. -/
  len : F.length ≤ s.params.maxFrameLen

end Sys2Proof.Machine
end

