-- ==== Sys2Proof/Certificates/Slice0/Obligations.lean ====
section
/-! DEFINITION. The statements about this machine, from the numbered rules of spec/. A docstring names the rule it formalises. -/

open Sys2Proof Sys2Proof.Machine

/-! ### Encoding and classification -/

/-- Decoding the frame of any well-formed instruction gives the instruction back, every field at every value (30_encoding.md
R82 to R100). -/
def Obligations.DecodeInvertsEncode : Prop := ∀ i : Instr, i.wf = true → decode (encode i) = i

/-- Every frame whatever decodes to a well-formed instruction whose encoding is the frame: no bit of a frame is dropped and no
frame is without a class (30_encoding.md R100, R102). -/
def Obligations.EncodeInvertsDecode : Prop := ∀ F : List Byte, (decode F).wf = true ∧ encode (decode F) = F

/-- Frames of the spec's vectors ET1, P3, DR1 and DR4 decode to the instructions they stand for. -/
def Obligations.SampleFramesDecode : Prop :=
  decode [0x02, 0, 0, 0, 0, 0x01, 0x02, 0, 0, 0, 0, 0x02, 0x12, 0x34] =
      .ethPass ⟨0x020000000001, 0x020000000002⟩ 0x1234 [] ∧
  decode [0xff, 0xff, 0xff, 0xff, 0xff, 0xff, 0x02, 0, 0, 0, 0, 0x02, 0x08, 0x06, 0, 0x01, 0x08, 0, 0x06, 0x04, 0, 0x01,
      0x02, 0, 0, 0, 0, 0x02, 0xc0, 0xa8, 0, 0x01, 0, 0, 0, 0, 0, 0, 0xc0, 0xa8, 0, 0x02] =
    .arpReply ⟨0xffffffffffff, 0x020000000002⟩
      ⟨1, 0x0800, 6, 4, 1, 0x020000000002, 0xc0a80001, 0, 0xc0a80002⟩ [] ∧
  decode [0x02, 0, 0, 0, 0, 0x01, 0x02, 0, 0, 0, 0, 0x02, 0x08] =
      .drop1 [0x02, 0, 0, 0, 0, 0x01, 0x02, 0, 0, 0, 0, 0x02, 0x08] ∧
  decode [0x02, 0, 0, 0, 0, 0x01, 0x02, 0, 0, 0, 0, 0x02, 0x08, 0, 0x44, 0, 0, 0x20, 0x12, 0x34, 0x40, 0, 0x40, 0x01,
      0xa7, 0x55, 0xc0, 0xa8, 0, 0x01, 0xc0, 0xa8, 0, 0x02, 0x08, 0, 0x33, 0x37, 0, 0x01, 0, 0x01, 0x61, 0x62, 0x63, 0x64] =
    .drop4 ⟨0x020000000001, 0x020000000002⟩
      ⟨4, 4, 0, 0x20, 0x1234, 0x40, 0, 0x40, 1, 0xa755, 0xc0a80001, 0xc0a80002⟩
      [0x08, 0, 0x33, 0x37, 0, 0x01, 0, 0x01, 0x61, 0x62, 0x63, 0x64]

/-- The twenty rows of the opcode table, each with its conditions in full, hold for exactly the class that the decision
procedure gives: the rows are disjoint and exhaustive without regard to priority (30_encoding.md R100, R102, R109). That
they are disjoint is the spec's own inference ("derived: from rule R100"). -/
def Obligations.RowsAreDisjointAndExhaustive : Prop :=
  ∀ (F : List Byte) (c : FrameClass), rowHolds F c = true ↔ classify F = c

/-- The ten ordered checks of validation raise the code of the frame's drop class, and none for an operation
(60_exceptions.md R272, R275; 30_encoding.md R100, R104). The checks and their order are the spec's decisions D9, D10, D20
and D21. -/
def Obligations.ValidationIsTheDropClasses : Prop :=
  ∀ (F : List Byte) (c : DropCode), validate F = some c ↔ classify F = .drop c

/-- No field that the block never examines changes the class of a frame (30_encoding.md R106). That they are ignored is
the spec's decision D19. -/
def Obligations.UnexaminedFieldsDoNotSelect : Prop :=
  ∀ i : Instr, i.wf = true → classify (encode i) = classify (encode (blank i))

/-! ### The checksum engine -/

/-- Folding (40_checksum.md R122): at most 16 bits are left; two passes are enough below 2^32, the first leaving at most
0x1FFFE; the value is the sum modulo 65535 except that a non-zero multiple gives 0xFFFF; it is 0 only for the sum 0, that
is when every byte is 0. The spec's own inference ("derived: from rule R120"). -/
def Obligations.FoldedSumIsResidue : Prop :=
  ∀ s : Nat,
    foldSum s ≤ 65535 ∧
    (s < 2 ^ 32 → s % 65536 + s / 65536 ≤ 0x1FFFE ∧ foldCarry 2 s = foldSum s) ∧
    (s % 65535 ≠ 0 → foldSum s = s % 65535) ∧
    (s ≠ 0 → s % 65535 = 0 → foldSum s = 65535) ∧
    (foldSum s = 0 ↔ s = 0) ∧
    (∀ B : List Byte, wordSum B = 0 ↔ ∀ b ∈ B, b = 0)

/-- An odd last byte counts as the high byte of a word, which is the same as appending one zero byte (40_checksum.md
R123). The spec's decision D5. -/
def Obligations.OddByteIsHighByte : Prop :=
  ∀ (B : List Byte) (b : Byte), B.length % 2 = 0 →
    wordSum (B ++ [b]) = wordSum B + b.toNat * 256 ∧ cksum (B ++ [b]) = cksum (B ++ [b, 0])

/-- The two laws of 40_checksum.md R128: an even-length all-zero buffer gives 0xFFFF, and storing the checksum of a buffer
whose field is zero makes the checksum of the whole buffer 0x0000. That an even offset is enough for the second law is the
spec's own inference. -/
def Obligations.ChecksumZeroFieldLaw : Prop :=
  (∀ n : Nat, cksum (List.replicate (2 * n) 0) = 0xFFFF) ∧
  ∀ pre post : List Byte, pre.length % 2 = 0 →
    cksum (pre ++ (fieldBytes 2 (cksum (pre ++ (fieldBytes 2 0 ++ post))) ++ post)) = 0

/-- The checksum depends only on the multiset of the 16-bit words, with an odd last byte or without (40_checksum.md R131).
The spec's own inference ("derived: from rule R120"). -/
def Obligations.ChecksumOrderIndependent : Prop :=
  ∀ (ws vs : List Half) (tail : List Byte), ws.Perm vs →
    cksum (ws.flatMap (fieldBytes 2) ++ tail) = cksum (vs.flatMap (fieldBytes 2) ++ tail)

/-- The corner cases and the worked example of 40_checksum.md R124 and R126. The spec's own inference ("derived: from rule
R120 to rule R124"). -/
def Obligations.ChecksumCornerCases : Prop :=
  cksum [] = 0xFFFF ∧ cksum [0x01] = 0xFEFF ∧ cksum [0xff, 0xff, 0xff, 0xff] = 0x0000 ∧
  cksum [0xff, 0xff, 0xff, 0xff, 0x00, 0x01] = 0xFFFE ∧ cksum [0x12, 0x34, 0x56] = 0x97CB ∧
  cksum [0x45, 0, 0, 0x73, 0, 0, 0x40, 0, 0x40, 0x11, 0, 0, 0xc0, 0xa8, 0, 0x01, 0xc0, 0xa8, 0, 0xc7] = 0xB861

/-! ### The frame space -/

/-- A write is read back whole and changes no other address (00_scope.md R14, 20_memory.md R51). -/
def Obligations.WriteIsReadBack : Prop :=
  ∀ (m m' : Memory) (a n v : Nat), memWrite m a n v = .ok m' →
    loadBytes m' a n = .ok (beBytes n v) ∧ ∀ k, k < a ∨ a + n ≤ k → readByte m' k = readByte m k

/-- `swap(a, b, n)` on a frame exchanges the two fields and changes nothing else (00_scope.md R14). -/
def Obligations.SwapExchangesTwoFields : Prop :=
  ∀ (F : List Byte) (a b n : Nat), a + n ≤ b → b + n ≤ F.length →
    ∃ G : List Byte, memSwap (ofBytes F) a b n = .ok (ofBytes G) ∧ G.length = F.length ∧
      slice G a n = slice F b n ∧ slice G b n = slice F a n ∧
      ∀ k, (k < a ∨ a + n ≤ k) → (k < b ∨ b + n ≤ k) → G[k]? = F[k]?

/-! ### The operations: result, counters, identifier, and nothing else -/

/-- ETH.PASS (46_dispatcher.md R225). -/
def Obligations.EthPassResult : Prop :=
  ∀ (s : State) (r : Reflection) (b : StatBlock) (mac : MacHdr) (et : Half) (payload : List Byte),
    Loaded s (.ethPass mac et payload) r b →
    exec (.ethPass mac et payload) s =
      .next (afterReflect s r b s.idc (encode (.ethPass ⟨mac.smac, mac.dmac⟩ et payload)))

/-- ARP.REPLY (42_arp.md R160, R161, R163). -/
def Obligations.ArpReplyResult : Prop :=
  ∀ (s : State) (r : Reflection) (b : StatBlock) (mac : MacHdr) (a : ArpHdr) (trailer : List Byte),
    Loaded s (.arpReply mac a trailer) r b →
    exec (.arpReply mac a trailer) s =
      .next (afterReflect s r b s.idc (encode (.arpReply ⟨mac.smac, mac.dmac⟩
        ⟨a.htype, a.ptype, a.hlen, a.plen, 2, a.targetHw, a.targetPa, a.senderHw, a.senderPa⟩ trailer)))

/-- IP.PASS (43_ipv4.md R178 with the steps of R170). -/
def Obligations.IpPassResult : Prop :=
  ∀ (s : State) (r : Reflection) (b : StatBlock) (mac : MacHdr) (ip : IpHdr) (opts data pad : List Byte),
    Loaded s (.ipPass mac ip opts data pad) r b →
    exec (.ipPass mac ip opts data pad) s =
      .next (afterReflect s r b (s.idc + 1)
        (encode (.ipPass (swapMac mac) (replyIp s.idc ip opts) opts data pad)))

/-- ICMP.ECHO (44_icmp.md R190, R191). -/
def Obligations.IcmpEchoResult : Prop :=
  ∀ (s : State) (r : Reflection) (b : StatBlock) (mac : MacHdr) (ip : IpHdr) (opts : List Byte) (code : Byte) (ics : Half)
    (rest pad : List Byte),
    Loaded s (.icmpEcho mac ip opts code ics rest pad) r b →
    exec (.icmpEcho mac ip opts code ics rest pad) s =
      .next (afterReflect s r b (s.idc + 1)
        (encode (.icmpPass (swapMac mac) (replyIp s.idc ip opts) opts 0 code
          (cksum (icmpBytes 0 code 0 ++ rest)) rest pad)))

/-- ICMP.PASS (44_icmp.md R192). -/
def Obligations.IcmpPassResult : Prop :=
  ∀ (s : State) (r : Reflection) (b : StatBlock) (mac : MacHdr) (ip : IpHdr) (opts : List Byte) (itype code : Byte)
    (ics : Half) (rest pad : List Byte),
    Loaded s (.icmpPass mac ip opts itype code ics rest pad) r b →
    exec (.icmpPass mac ip opts itype code ics rest pad) s =
      .next (afterReflect s r b (s.idc + 1)
        (encode (.icmpPass (swapMac mac) (replyIp s.idc ip opts) opts itype code ics rest pad)))

/-- UDP.SWAP (45_udp.md R206, R204; 41_arith.md R147): the payload is unchanged. -/
def Obligations.UdpSwapResult : Prop :=
  ∀ (s : State) (r : Reflection) (b : StatBlock) (mac : MacHdr) (ip : IpHdr) (opts : List Byte) (udp : UdpHdr)
    (payload extra pad : List Byte),
    Loaded s (.udpSwap mac ip opts udp payload extra pad) r b →
    exec (.udpSwap mac ip opts udp payload extra pad) s =
      .next (afterReflect s r b (s.idc + 1)
        (encode (.udpSwap (swapMac mac) (replyIp s.idc ip opts) opts (replyUdp ip udp payload) payload extra pad)))

/-- UDP.SKIP (45_udp.md R207; 41_arith.md R146): the four words are unchanged. -/
def Obligations.UdpSkipResult : Prop :=
  ∀ (s : State) (r : Reflection) (b : StatBlock) (mac : MacHdr) (ip : IpHdr) (opts : List Byte) (udp : UdpHdr)
    (kind opA opB oper : Word) (extra pad : List Byte),
    Loaded s (.udpSkip mac ip opts udp kind opA opB oper extra pad) r b →
    exec (.udpSkip mac ip opts udp kind opA opB oper extra pad) s =
      .next (afterReflect s r b (s.idc + 1)
        (encode (.udpSkip (swapMac mac) (replyIp s.idc ip opts) opts
          (replyUdp ip udp (arithBytes kind opA opB oper)) kind opA opB oper extra pad)))

/-- UDP.ADD (41_arith.md R142, 45_udp.md R208): the words become 2, the sum modulo 2^32, 0, 0. -/
def Obligations.UdpAddResult : Prop :=
  ∀ (s : State) (r : Reflection) (b : StatBlock) (mac : MacHdr) (ip : IpHdr) (opts : List Byte) (udp : UdpHdr)
    (opA opB : Word) (extra pad : List Byte),
    Loaded s (.udpAdd mac ip opts udp opA opB extra pad) r b →
    exec (.udpAdd mac ip opts udp opA opB extra pad) s =
      .next (afterReflect s r b (s.idc + 1)
        (encode (.udpSkip (swapMac mac) (replyIp s.idc ip opts) opts
          (replyUdp ip udp (arithBytes 2 (BitVec.ofNat 32 (opA.toNat + opB.toNat)) 0 0))
          2 (BitVec.ofNat 32 (opA.toNat + opB.toNat)) 0 0 extra pad)))

/-- UDP.SUB (41_arith.md R143, 45_udp.md R208): the words become 2, the difference modulo 2^32, 0, 0. -/
def Obligations.UdpSubResult : Prop :=
  ∀ (s : State) (r : Reflection) (b : StatBlock) (mac : MacHdr) (ip : IpHdr) (opts : List Byte) (udp : UdpHdr)
    (opA opB : Word) (extra pad : List Byte),
    Loaded s (.udpSub mac ip opts udp opA opB extra pad) r b →
    exec (.udpSub mac ip opts udp opA opB extra pad) s =
      .next (afterReflect s r b (s.idc + 1)
        (encode (.udpSkip (swapMac mac) (replyIp s.idc ip opts) opts
          (replyUdp ip udp (arithBytes 2 (BitVec.ofInt 32 ((opA.toNat : Int) - opB.toNat)) 0 0))
          2 (BitVec.ofInt 32 ((opA.toNat : Int) - opB.toNat)) 0 0 extra pad)))

/-- UDP.KEEP (41_arith.md R144, 45_udp.md R208): the words become 2, operandA, 0, 0. -/
def Obligations.UdpKeepResult : Prop :=
  ∀ (s : State) (r : Reflection) (b : StatBlock) (mac : MacHdr) (ip : IpHdr) (opts : List Byte) (udp : UdpHdr)
    (opA opB oper : Word) (extra pad : List Byte),
    Loaded s (.udpKeep mac ip opts udp opA opB oper extra pad) r b →
    exec (.udpKeep mac ip opts udp opA opB oper extra pad) s =
      .next (afterReflect s r b (s.idc + 1)
        (encode (.udpSkip (swapMac mac) (replyIp s.idc ip opts) opts
          (replyUdp ip udp (arithBytes 2 opA 0 0)) 2 opA 0 0 extra pad)))

/-- The ten drop classes (60_exceptions.md R270): each takes the exception, whose only effects are the outcome with its
code and the end of the reflection. That nothing else changes rests on the spec's decision D9. -/
def Obligations.DropsTakeTheException : Prop :=
  ∀ (s : State) (r : Reflection) (i : Instr) (c : DropCode), s.cur = some r → dropOf i = some c →
    exec i s = .next { s with cur := none, delivered := .drop c :: s.delivered }

/-- No instruction is ever refused (30_encoding.md R102, R105). -/
def Obligations.NoInstructionIsRefused : Prop := ∀ (i : Instr) (s : State) (why : Refusal), exec i s ≠ .refused why

/-! ### Frames: what stays as it was -/

/-- Every byte of the frame outside the fields an instruction writes leaves as it arrived, and the length does not change
(20_memory.md R50, R57; 46_dispatcher.md R228; 43_ipv4.md R179). The fields are computed from the same transport offset as
the meanings use, for any frame in the buffer. That the length never changes is the spec's decision D12. -/
def Obligations.OtherBytesLeaveAsTheyCame : Prop :=
  ∀ (s t : State) (i : Instr) (r : Reflection) (F F' : List Byte) (j : Nat) (rest : List Delivery),
    s.cur = some r → r.frame = ofBytes F → exec i s = .next t → t.delivered = .reflect j F' :: rest →
    j = r.iface ∧ rest = s.delivered ∧ F'.length = F.length ∧ ∀ a, untouched i a → F'[a]? = F[a]?

/-- An instruction leaves every parameter, every other lane's counter block, the snapshots in progress and the host's
actions as they were; `IDC` moves by one for the IPv4 operations and not otherwise; a drop moves no counter
(46_dispatcher.md R235, 10_state.md R29). The spec's own inference ("derived: from rule R220"). That a reflection is one
step is the model's, notes/assumptions/2.md. -/
def Obligations.OtherStateStaysAsItWas : Prop :=
  ∀ (s t : State) (i : Instr) (r : Reflection), s.cur = some r → exec i s = .next t →
    t.cur = none ∧ t.params = s.params ∧ t.ready = s.ready ∧ t.reads = s.reads ∧ t.events = s.events ∧
    t.idc = idcAfter i s.idc ∧ (∃ d, t.delivered = d :: s.delivered) ∧
    (∀ j v, ¬(j = r.iface ∧ v = r.worker) → statAt t.stats j v = statAt s.stats j v) ∧
    ((dropOf i).isSome → t.stats = s.stats)

/-- The version, type of service, total length, low fragment-offset byte, time to live, protocol and options of an IPv4
header leave as they arrived (43_ipv4.md R179), and the flags byte leaves as zero (R175). The spec's own inference
("derived: from rule R170"), and its decision D8 for the flags byte. -/
def Obligations.Ipv4FieldsLeftAlone : Prop :=
  ∀ (s : State) (i : Instr) (r : Reflection) (b : StatBlock) (ip : IpHdr) (opts : List Byte),
    Loaded s i r b → ipOf i = some (ip, opts) →
    ∃ t F', exec i s = .next t ∧ t.delivered = .reflect r.iface F' :: s.delivered ∧ F'[20]? = some 0 ∧
      ∀ a, (14 ≤ a ∧ a ≤ 17 ∨ 21 ≤ a ∧ a ≤ 23 ∨ 34 ≤ a ∧ a < 14 + ihlBytes ip) → F'[a]? = (encode i)[a]?

/-! ### Identifiers, checksums and counters of the outcome -/

/-- The identifier field leaves with the value of `IDC` and `IDC` moves on by one modulo 65536, for the eight IPv4
operations; every other class leaves `IDC` alone (43_ipv4.md R174). Use-then-increment and the byte order are the spec's
decisions D28 and D6. -/
def Obligations.IdentifierIsDrawnOnce : Prop :=
  (∀ (s : State) (i : Instr) (r : Reflection) (b : StatBlock), Loaded s i r b → (ipOf i).isSome →
    ∃ t F', exec i s = .next t ∧ t.delivered = .reflect r.iface F' :: s.delivered ∧
      slice F' 18 2 = beBytes 2 s.idc.toNat ∧ t.idc.toNat = (s.idc.toNat + 1) % 65536) ∧
  (∀ (s t : State) (i : Instr), exec i s = .next t → ipOf i = none → t.idc = s.idc)

/-- The header checksum of every reflected IPv4 frame validates: over the whole header, options included, it is zero
(43_ipv4.md R176). -/
def Obligations.HeaderChecksumValidates : Prop :=
  ∀ (s : State) (i : Instr) (r : Reflection) (b : StatBlock) (ip : IpHdr) (opts : List Byte),
    Loaded s i r b → ipOf i = some (ip, opts) →
    ∃ t F', exec i s = .next t ∧ t.delivered = .reflect r.iface F' :: s.delivered ∧ cksum (slice F' 14 (ihlBytes ip)) = 0

/-- The checksum of a reflected echo validates over the `tl` bytes of the message (44_icmp.md R191). The spec's own
inference ("derived: from rule R190"). -/
def Obligations.EchoChecksumValidates : Prop :=
  ∀ (s : State) (r : Reflection) (b : StatBlock) (mac : MacHdr) (ip : IpHdr) (opts : List Byte) (code : Byte) (ics : Half)
    (rest pad : List Byte),
    Loaded s (.icmpEcho mac ip opts code ics rest pad) r b →
    ∃ t F', exec (.icmpEcho mac ip opts code ics rest pad) s = .next t ∧
      t.delivered = .reflect r.iface F' :: s.delivered ∧ cksum (slice F' (transportOff ip) (transportLen ip)) = 0

/-- The UDP checksum of every reflected UDP frame validates over the pseudo-header of the addresses as they leave and the
`ul` bytes of the datagram (45_udp.md R204). What it covers is the spec's decision D31. -/
def Obligations.UdpChecksumValidates : Prop :=
  ∀ (s : State) (i : Instr) (r : Reflection) (b : StatBlock) (ip : IpHdr) (udp : UdpHdr),
    Loaded s i r b → udpOf i = some (ip, udp) →
    ∃ t F', exec i s = .next t ∧ t.delivered = .reflect r.iface F' :: s.delivered ∧
      cksum (slice F' 26 8 ++ pseudoTail (udpLen udp) ++ slice F' (transportOff ip) (udpLen udp)) = 0

/-- The reply is a well-formed frame of the same length (46_dispatcher.md R228). The spec's decision D12. -/
def Obligations.ReplyIsWellFormed : Prop :=
  ∀ (id : Half) (i : Instr), i.wf = true →
    (reply id i).wf = true ∧ (encode (reply id i)).length = (encode i).length

/-- Re-reflection (70_reset_and_hazards.md R318): the reply to an echo request is an ICMP.PASS, to a mini-protocol request
a UDP.SKIP, and any other reply is of the class of the frame it answers. Reflecting a reply brings the MAC addresses back, the
IPv4 addresses of an IPv4 frame, which leaves with a fresh identifier, the ports of a UDP frame, and the blocks of an ARP frame,
the opcode staying 2. The spec's own inference ("derived: from 44_icmp.md rule R192"). -/
def Obligations.RepliesAreReflectedAgain : Prop :=
  (∀ (id : Half) (i : Instr), i.wf = true →
    classify (encode (reply id i)) =
      match classify (encode i) with
      | .icmpEcho => .icmpPass
      | .udpAdd => .udpSkip
      | .udpSub => .udpSkip
      | .udpKeep => .udpSkip
      | c => c) ∧
  (∀ (id id' : Half) (i : Instr), i.wf = true → dropOf i = none →
    slice (encode (reply id' (decode (encode (reply id i))))) 0 12 = slice (encode i) 0 12) ∧
  (∀ (id id' : Half) (i : Instr), i.wf = true → (ipOf i).isSome →
    slice (encode (reply id' (decode (encode (reply id i))))) 26 8 = slice (encode i) 26 8 ∧
    slice (encode (reply id' (decode (encode (reply id i))))) 18 2 = beBytes 2 id'.toNat) ∧
  (∀ (id id' : Half) (i : Instr) (ip : IpHdr) (udp : UdpHdr), i.wf = true → udpOf i = some (ip, udp) →
    slice (encode (reply id' (decode (encode (reply id i))))) (transportOff ip) 4 = slice (encode i) (transportOff ip) 4) ∧
  (∀ (id id' : Half) (mac : MacHdr) (a : ArpHdr) (trailer : List Byte),
    reply id' (decode (encode (reply id (.arpReply mac a trailer)))) = .arpReply mac { a with oper := 2 } trailer)

/-- `stats_update` (47_statistics.md R250): all five fields of the lane's block move together, modulo their width; no
other block and nothing else of the machine moves. The widths are the spec's decisions D13 and D22. -/
def Obligations.StatsUpdateExact : Prop :=
  ∀ (s : State) (i w L : Nat) (b : StatBlock), statAt s.stats i w = some b →
    ∃ t c, statsUpdate i w L s = .ok t ∧ statAt t.stats i w = some c ∧
      c.txPackets.toNat = (b.txPackets.toNat + 1) % 2 ^ 64 ∧ c.txBytes.toNat = (b.txBytes.toNat + L) % 2 ^ 64 ∧
      c.rxPackets.toNat = (b.rxPackets.toNat + 1) % 2 ^ 64 ∧ c.rxBytes.toNat = (b.rxBytes.toNat + L) % 2 ^ 64 ∧
      c.token.toNat = (b.token.toNat + 1) % 2 ^ 32 ∧
      (∀ j v, ¬(j = i ∧ v = w) → statAt t.stats j v = statAt s.stats j v) ∧ t = { s with stats := t.stats }

/-- The outcome and the output frame depend on the frame and on `IDC` only, and on `IDC` only through the two identifier
bytes and the header checksum of an IPv4 frame (46_dispatcher.md R235): two machines that hold the same frame, whatever their lanes,
counters and history, deliver the same, but for those bytes where their `IDC` differ. The spec's own inference ("derived:
from rule R220"). -/
def Obligations.OutcomeDependsOnFrameAndIdc : Prop :=
  ∀ (s₁ s₂ : State) (i : Instr) (r₁ r₂ : Reflection) (b₁ b₂ : StatBlock), Loaded s₁ i r₁ b₁ → Loaded s₂ i r₂ b₂ →
    ∃ t₁ t₂, exec i s₁ = .next t₁ ∧ exec i s₂ = .next t₂ ∧
      ((∃ c, t₁.delivered = .drop c :: s₁.delivered ∧ t₂.delivered = .drop c :: s₂.delivered) ∨
       (∃ F₁ F₂, t₁.delivered = .reflect r₁.iface F₁ :: s₁.delivered ∧ t₂.delivered = .reflect r₂.iface F₂ :: s₂.delivered ∧
          F₁.length = F₂.length ∧ (s₁.idc = s₂.idc → F₁ = F₂) ∧ (ipOf i = none → F₁ = F₂) ∧
          ∀ a, a ≠ 18 → a ≠ 19 → a ≠ 24 → a ≠ 25 → F₁[a]? = F₂[a]?))

/-- The mini-protocol's arithmetic is modulo 2^32, and the same bit patterns result for two's-complement words
(41_arith.md R148). The spec's decision D4. -/
def Obligations.ArithmeticIsModular : Prop :=
  ∀ a b : Word,
    (arithAdd a b).toNat = (a.toNat + b.toNat) % 2 ^ 32 ∧
    (arithSub a b).toNat = (if b.toNat ≤ a.toNat then a.toNat - b.toNat else 2 ^ 32 + a.toNat - b.toNat) ∧
    arithAdd a b = BitVec.ofInt 32 (a.toInt + b.toInt) ∧ arithSub a b = BitVec.ofInt 32 (a.toInt - b.toInt) ∧
    arithKeep a = a

/-! ### Steps -/

/-- A step runs the instruction that the frame in the buffer decodes to; a frame that is presented in keeping with the
host's duties is put into the buffer of its lane and run in the same step (46_dispatcher.md R220, R221). That presenting
and reflecting are one step is the model's (notes/assumptions/2.md). -/
def Obligations.StepRunsTheDecodedFrame : Prop :=
  (∀ (s : State) (r : Reflection) (i : Instr), s.cur = some r → decode (bytesOf r.frame) = i → step s = exec i s) ∧
  (∀ (s : State) (i w : Nat) (F : List Byte) (rest : List Event) (ins : Instr), s.cur = none →
    s.events = .frameIn i w F.length F :: rest → Presentable s i w F → decode F = ins →
    step s = exec ins { s with events := rest, cur := some ⟨i, w, ofBytes F⟩ })

/-- A frame that fails validation leaves the block exactly as if it had never been presented: the action is used up, the
code is delivered, and nothing else has changed (60_exceptions.md R270). The spec's decision D9. -/
def Obligations.DroppedFrameLeavesNoTrace : Prop :=
  ∀ (s : State) (i w : Nat) (F : List Byte) (rest : List Event) (c : DropCode), s.cur = none →
    s.events = .frameIn i w F.length F :: rest → Presentable s i w F → validate F = some c →
    step s = .next { s with events := rest, delivered := .drop c :: s.delivered }

/-- The reflection transaction (46_dispatcher.md R220): a frame that passes validation is answered with the reply described field
by field, on the same interface; the lane's block is bumped once by the frame's length, `IDC` moves for the IPv4 operations, and
nothing else changes. -/
def Obligations.AcceptedFrameIsReflected : Prop :=
  ∀ (s : State) (i w : Nat) (F : List Byte) (rest : List Event), Inv s → s.cur = none →
    s.events = .frameIn i w F.length F :: rest → Presentable s i w F → validate F = none →
    ∃ b, statAt s.stats i w = some b ∧
      step s = .next { s with
        idc := idcAfter (decode F) s.idc
        stats := setStat s.stats i w (bumpBlock b F.length)
        events := rest
        delivered := .reflect i (encode (reply s.idc (decode F))) :: s.delivered }

/-- The invariant holds after reset. -/
def Obligations.InvHoldsAtReset : Prop := Inv State.reset

/-- Every step keeps the invariant (20_memory.md R50, 10_state.md R28, 00_scope.md R8). -/
def Obligations.StepKeepsInv : Prop := ∀ s t : State, Inv s → step s = .next t → Inv t

/-- No step from a state that meets the invariant is a fault: validation is sufficient for every access of every rule to
lie in the frame (20_memory.md R52, 60_exceptions.md R276). The spec's own inference ("derived: checks 1 and 2 cover
offsets up to 41"); what an access outside does is the model's (notes/assumptions/13.md). -/
def Obligations.NoStepFaults : Prop := ∀ (s : State) (f : Fault), Inv s → step s ≠ .fault f

/-- `IDC` moves only by the identifier step of a reflected IPv4 frame, whose identifier field then leaves with the value
before, and is cleared only by `RESET` (10_state.md R26). That reset clears it to 0 is the spec's decision D7. -/
def Obligations.IdentifierCounterMovesOnlyAsSpecified : Prop :=
  ∀ s t : State, Inv s → step s = .next t →
    t.idc = s.idc ∨
    (∃ j F', t.delivered = .reflect j F' :: s.delivered ∧ frameEt F' = 0x0800 ∧
      slice F' 18 2 = beBytes 2 s.idc.toNat ∧ t.idc.toNat = (s.idc.toNat + 1) % 65536) ∨
    ((∃ rest, s.events = .reset :: rest) ∧ t.idc = 0)

/-- A counter block moves only by the one update of a frame reflected on its interface, by that frame's length, and is
cleared only by `RESET` (10_state.md R30, 47_statistics.md R251). What an update adds is the spec's decision D13. -/
def Obligations.CountersMoveOnlyAsSpecified : Prop :=
  ∀ (s t : State) (i w : Nat) (b c : StatBlock), Inv s → step s = .next t →
    statAt s.stats i w = some b → statAt t.stats i w = some c →
    c = b ∨ (∃ F', t.delivered = .reflect i F' :: s.delivered ∧ c = bumpBlock b F'.length) ∨
    ((∃ rest, s.events = .reset :: rest) ∧ c = ⟨0, 0, 0, 0, 0⟩)

/-- A presented frame is refused exactly when the host breaks a duty (46_dispatcher.md R232; the names are the model's,
notes/assumptions/9.md). -/
def Obligations.RefusalIsAHostBreach : Prop :=
  ∀ (s : State) (i w len : Nat) (F : List Byte),
    (∃ why, acceptFrame i w len F s = .error why) ↔ ¬(len = F.length ∧ Presentable s i w F)

/-! ### Runs -/

/-- `k` IPv4 frames that are accepted, on any lanes, receive the `k` identifiers from `IDC` on, modulo 65536, each exactly
once, and `IDC` ends `k` further (60_exceptions.md R290). The spec's own inference ("derived: from 20_memory.md rule
R62"). -/
def Obligations.IdentifiersAreConsecutive : Prop :=
  ∀ (s : State) (fs : List Presented) (rest : List Event), Inv s → s.cur = none → s.events = fs.map frameEvent ++ rest →
    (∀ x ∈ fs, Presentable s x.iface x.worker x.bytes ∧ validate x.bytes = none ∧ frameEt x.bytes = 0x0800) →
    ∃ (t : State) (outs : List Delivery), Host.Core.run Sys2Proof.core fs.length s = .next t ∧ t.idc = s.idc + BitVec.ofNat 16 fs.length ∧
      t.events = rest ∧ outs.length = fs.length ∧ t.delivered = outs.reverse ++ s.delivered ∧
      ∀ k x, fs[k]? = some x → ∃ F', outs[k]? = some (.reflect x.iface F') ∧
        rd F' 18 2 = (s.idc.toNat + k) % 65536

/-- After any sequence of presented frames, on any lanes, the aggregate of each interface has grown by one packet and by
the length, each way, for every frame that was reflected on it, and by nothing for a dropped frame (47_statistics.md R251,
R257). What is counted is the spec's decision D13. -/
def Obligations.TotalsCountReflectedFrames : Prop :=
  ∀ (s : State) (fs : List Presented) (rest : List Event), Inv s → s.cur = none → s.events = fs.map frameEvent ++ rest →
    (∀ x ∈ fs, Presentable s x.iface x.worker x.bytes) →
    ∃ t, Host.Core.run Sys2Proof.core fs.length s = .next t ∧ t.events = rest ∧
      ∀ j row, s.stats[j]? = some row →
        ∃ row', t.stats[j]? = some row' ∧ sumBlocks row' = addSnapshot (sumBlocks row) (tally fs j)

/-- Two frames presented in either order leave `IDC` and every counter the same; the identifiers of the two output frames do
depend on the order (00_scope.md R11; 95_test_vectors.md program E). The spec's own inference ("derived: from rule R10"). -/
def Obligations.FrameOrderLeavesIdcAndCountersEqual : Prop :=
  ∀ (s : State) (x y : Presented), Inv s → s.cur = none → Presentable s x.iface x.worker x.bytes →
    Presentable s y.iface y.worker y.bytes →
    ∃ t u, Host.Core.run Sys2Proof.core 2 { s with events := [frameEvent x, frameEvent y] } = .next t ∧
      Host.Core.run Sys2Proof.core 2 { s with events := [frameEvent y, frameEvent x] } = .next u ∧
      t.idc = u.idc ∧ t.stats = u.stats

/-- `STATS_READ(i)` on a machine with nothing else to do, at any time, delivers the exact sums over the workers of interface
`i`, after one step to begin and three for each worker, and changes nothing of the block (47_statistics.md R252, 20_memory.md
R63, 46_dispatcher.md R232). The number of steps is the model's (notes/assumptions/6.md), and so is that the workers are those
whose blocks exist where `RESET` has not followed parameter setting yet (notes/assumptions/5.md). -/
def Obligations.QuietSnapshotIsExact : Prop :=
  ∀ (s : State) (i : Nat) (row : List StatBlock), s.cur = none → s.reads = [] → s.stats[i]? = some row → row ≠ [] →
    Host.Core.run Sys2Proof.core (1 + 3 * row.length) { s with events := [.statsRead i] } =
      .next { s with events := [], delivered := .snapshot i (sumBlocks row) :: s.delivered }

/-- A copy is taken whole, whatever the token recorded before; it is added to the sum when the token has not changed since, and
discarded for every other token; an update of the block in between changes the token (47_statistics.md R253, 20_memory.md R61).
The spec's decision D22; the small steps are the model's (notes/assumptions/6.md). -/
def Obligations.ReaderDiscardsStaleCopies : Prop :=
  ∀ (b : StatBlock) (L : Nat) (r : SnapRead) (t : Word) (c : Snapshot),
    readerAdvance b { r with phase := .start } = { r with phase := .recorded b.token } ∧
    readerAdvance b { r with phase := .recorded t } =
      { r with phase := .copied t ⟨b.rxPackets, b.txPackets, b.rxBytes, b.txBytes⟩ } ∧
    readerAdvance b { r with phase := .copied b.token c } =
      { r with todo := r.todo.tail, sum := addSnapshot r.sum c, phase := .start } ∧
    (b.token ≠ t → readerAdvance b { r with phase := .copied t c } = { r with phase := .start }) ∧
    (bumpBlock b L).token ≠ b.token ∧
    readerAdvance (bumpBlock b L) { r with phase := .copied b.token c } = { r with phase := .start }

/-- A snapshot writes nothing of the block (47_statistics.md R252). -/
def Obligations.SnapshotWritesNothing : Prop :=
  ∀ (s t : State) (i k : Nat) (w : Option Nat), (beginRead i s = .next t ∨ readerStep k w s = .next t) →
    t.idc = s.idc ∧ t.stats = s.stats ∧ t.cur = s.cur ∧ t.params = s.params ∧ t.ready = s.ready ∧ t.events = s.events

/-- `RESET` puts `IDC`, every counter and every token to zero and leaves the parameters (70_reset_and_hazards.md R300,
10_state.md R35). The values are the spec's decision D7. -/
def Obligations.ResetClearsTheBlock : Prop :=
  ∀ s : State, ∃ t, runEvent .reset s = .next t ∧ t.idc = 0 ∧ t.cur = none ∧ t.params = s.params ∧ t.ready = true ∧
    t.stats.length = s.params.nIf ∧
    ∀ i w, statAt t.stats i w =
      if i < s.params.nIf ∧ w < s.params.workers then some ⟨0, 0, 0, 0, 0⟩ else none

/-- The state after reset (10_state.md R35): `IDC` and every field of every counter block are zero and no frame is in
progress. That there is one block is the model's choice of parameters at reset (notes/assumptions/4.md). The zero values
are the spec's decision D7. -/
def Obligations.StateAtReset : Prop :=
  State.reset.idc = 0 ∧ State.reset.cur = none ∧
  ∀ i w, statAt State.reset.stats i w = if i = 0 ∧ w = 0 then some ⟨0, 0, 0, 0, 0⟩ else none

/-- Parameters are set before reset and reset comes before the first frame (70_reset_and_hazards.md R302): setting them touches
nothing of the block, and until `RESET` no frame is taken. The refusal and the flag `ready` are the model's
(notes/assumptions/5.md), and so is that the transaction replaces `MAX_FRAME_LEN` beside `N_IF` and `W`, the only two that R302
names (notes/assumptions/4.md). -/
def Obligations.ParametersThenReset : Prop :=
  ∀ (s : State) (p : Params), 1 ≤ p.nIf → 1 ≤ p.workers →
    ∃ t, runEvent (.setParams p) s = .next t ∧ t = { s with params := p, ready := false } ∧
      (∀ i w len F, runEvent (.frameIn i w len F) t = .refused .notReset) ∧
      ∃ u, runEvent .reset t = .next u ∧ u.params = p ∧ u.ready = true

/-- Between frames, with nothing presented and no snapshot in progress, the block keeps all its state (60_exceptions.md
R287). That nothing presented is a step that keeps the state is the model's (notes/assumptions/7.md). -/
def Obligations.IdleKeepsAllState : Prop :=
  ∀ s : State, s.cur = none → s.events = [] → s.reads = [] → step s = .next s

/-- The reader may copy the blocks of an interface in any order, which the spec leaves open, and on a machine with nothing else
to do the sums it delivers are the same exact ones in every order (47_statistics.md R252, 20_memory.md R63). That the order is
an input, three steps to a block, is the model's (notes/assumptions/6.md), and so is that the blocks are those that exist where
`RESET` has not followed parameter setting yet (notes/assumptions/5.md). -/
def Obligations.SnapshotInAnyOrderIsExact : Prop :=
  ∀ (s : State) (i : Nat) (row : List StatBlock) (order : List Nat), s.cur = none → s.reads = [] →
    s.stats[i]? = some row → row ≠ [] → order.Perm (List.range row.length) →
    Host.Core.run Sys2Proof.core (1 + 3 * row.length)
      { s with events := .statsRead i :: order.flatMap (fun w => List.replicate 3 (.readerStep 0 (some w))) } =
      .next { s with events := [], delivered := .snapshot i (sumBlocks row) :: s.delivered }
end

