-- ==== Sys2Proof/Laws/Bytes.lean ====
section
/-! SUPPORT. Laws of byte order, slices and splices (Machine/Bytes.lean): the round trips of big-endian fields and reading and
writing a slice of a concatenation. -/

namespace Sys2Proof.Machine

@[simp] theorem length_beBytes (n v : Nat) : (beBytes n v).length = n := by
  induction n with
  | zero => rfl
  | succ n ih => simp [beBytes, ih]

@[simp] theorem length_fieldBytes (w : Nat) (v : BitVec (8 * w)) : (fieldBytes w v).length = w := length_beBytes w _

theorem beNat_lt (l : List Byte) : beNat l < 256 ^ l.length := by
  induction l with
  | nil => simp [beNat]
  | cons b l ih =>
    have hb := b.isLt
    simp only [beNat, List.length_cons, Nat.pow_succ]
    have : b.toNat * 256 ^ l.length ≤ 255 * 256 ^ l.length := Nat.mul_le_mul_right _ (by omega)
    omega

theorem beNat_append (x y : List Byte) : beNat (x ++ y) = beNat x * 256 ^ y.length + beNat y := by
  induction x with
  | nil => simp [beNat]
  | cons b l ih =>
    simp only [List.cons_append, beNat, ih, List.length_append, Nat.pow_add]
    ring

@[simp] theorem beNat_beBytes (n v : Nat) : beNat (beBytes n v) = v % 256 ^ n := by
  induction n with
  | zero => simp [beBytes, beNat, Nat.mod_one]
  | succ n ih =>
    simp only [beBytes, beNat, length_beBytes, ih, BitVec.toNat_ofNat]
    rw [show (2 : Nat) ^ 8 = 256 from rfl, Nat.pow_succ 256 n, Nat.mod_mul (a := 256 ^ n)]
    ring

theorem beBytes_mod (n v : Nat) : beBytes n (v % 256 ^ n) = beBytes n v := by
  have key : ∀ m k v : Nat, m ≤ k → beBytes m (v % 256 ^ k) = beBytes m v := by
    intro m
    induction m with
    | zero => intros; rfl
    | succ m ih =>
      intro k v hk
      simp only [beBytes, List.cons.injEq]
      refine ⟨?_, ih k v (by omega)⟩
      apply BitVec.eq_of_toNat_eq
      simp only [BitVec.toNat_ofNat]
      obtain ⟨d, rfl⟩ := Nat.exists_eq_add_of_le hk
      rw [show m + 1 + d = m + (d + 1) by omega, Nat.pow_add, Nat.mod_mul_right_div_self]
      have : (256 : Nat) ^ (d + 1) = 2 ^ 8 * 256 ^ d := by rw [Nat.pow_succ]; ring
      rw [this, Nat.mod_mul_right_mod]
  exact key n n v le_rfl

@[simp] theorem beBytes_beNat (l : List Byte) : beBytes l.length (beNat l) = l := by
  induction l with
  | nil => rfl
  | cons b l ih =>
    have hl := beNat_lt l
    simp only [List.length_cons, beBytes, beNat, List.cons.injEq]
    constructor
    · apply BitVec.eq_of_toNat_eq
      have : (b.toNat * 256 ^ l.length + beNat l) / 256 ^ l.length = b.toNat := by
        rw [Nat.mul_comm, Nat.mul_add_div (by positivity), Nat.div_eq_of_lt hl, Nat.add_zero]
      rw [BitVec.toNat_ofNat, this]
      exact Nat.mod_eq_of_lt b.isLt
    · rw [← beBytes_mod, Nat.mul_comm b.toNat, Nat.mul_add_mod, Nat.mod_eq_of_lt hl, ih]

/-! ### Slices and splices -/

theorem length_slice (F : List Byte) (a n : Nat) : (slice F a n).length = min n (F.length - a) := by
  simp [slice]

theorem length_slice_of_le {F : List Byte} {a n : Nat} (h : a + n ≤ F.length) : (slice F a n).length = n := by
  rw [length_slice]; omega

theorem getElem?_slice (F : List Byte) (a n k : Nat) : (slice F a n)[k]? = if k < n then F[a + k]? else none := by
  simp only [slice]
  by_cases h : k < n
  · rw [List.getElem?_take_of_lt h, List.getElem?_drop, if_pos h]
  · rw [List.getElem?_take_eq_none (by omega), if_neg h]

theorem length_splice {F bs : List Byte} {a : Nat} (h : a + bs.length ≤ F.length) :
    (splice F a bs).length = F.length := by
  simp [splice]; omega

theorem getElem?_splice {F bs : List Byte} {a : Nat} (h : a + bs.length ≤ F.length) (k : Nat) :
    (splice F a bs)[k]? = if a ≤ k ∧ k < a + bs.length then bs[k - a]? else F[k]? := by
  simp only [splice, List.append_assoc]
  have ha : (F.take a).length = a := by simp; omega
  by_cases h1 : k < a
  · rw [if_neg (by omega), List.getElem?_append_left (by omega), List.getElem?_take_of_lt h1]
  · rw [List.getElem?_append_right (by omega), ha]
    by_cases h2 : k < a + bs.length
    · rw [if_pos ⟨by omega, h2⟩, List.getElem?_append_left (by omega)]
    · rw [if_neg (by omega), List.getElem?_append_right (by omega), List.getElem?_drop]
      congr 1; omega

/-- Writing a slice in the middle of a concatenation. -/
theorem splice_append {A B C bs : List Byte} {a : Nat} (ha : A.length = a) (hb : bs.length = B.length) :
    splice (A ++ (B ++ C)) a bs = A ++ (bs ++ C) := by
  subst ha
  simp only [splice, List.take_left', List.append_assoc]
  congr 2
  rw [hb, List.drop_append, List.drop_eq_nil_of_le (by omega)]
  simp

/-- Reading the first part of a concatenation. -/
theorem slice_left {A B : List Byte} {n : Nat} (h : A.length = n) : slice (A ++ B) 0 n = A := by
  simp [slice, List.take_left' h]

/-- Reading past the first part of a concatenation. -/
theorem slice_right {A B : List Byte} {a k n : Nat} (h : A.length = k) (hk : k ≤ a) :
    slice (A ++ B) a n = slice B (a - k) n := by
  simp only [slice]
  rw [List.drop_append, List.drop_eq_nil_of_le (by omega), List.nil_append, h]

theorem slice_append_of_le {A B : List Byte} {a n : Nat} (h : a + n ≤ A.length) : slice (A ++ B) a n = slice A a n := by
  simp only [slice]
  rw [List.drop_append_of_le_length (by omega), List.take_append_of_le_length (by simp; omega)]

theorem slice_zero_length (F : List Byte) : slice F 0 F.length = F := by simp [slice]

@[simp] theorem slice_zero (F : List Byte) (a : Nat) : slice F a 0 = [] := by simp [slice]

/-- Two adjacent slices are one. -/
theorem slice_add (F : List Byte) (a n k : Nat) : slice F a (n + k) = slice F a n ++ slice F (a + n) k := by
  simp only [slice, ← List.drop_drop, List.take_add]

/-! ### Fields -/

/-- A field written big-endian reads back as itself. -/
@[simp] theorem ofNat_beNat_fieldBytes (w : Nat) (v : BitVec (8 * w)) :
    BitVec.ofNat (8 * w) (beNat (fieldBytes w v)) = v := by
  apply BitVec.eq_of_toNat_eq
  have h : (2 : Nat) ^ (8 * w) = 256 ^ w := by rw [Nat.pow_mul]
  rw [fieldBytes, beNat_beBytes, BitVec.toNat_ofNat, h, Nat.mod_mod, ← h, Nat.mod_eq_of_lt v.isLt]

theorem beNat_fieldBytes (w : Nat) (v : BitVec (8 * w)) : beNat (fieldBytes w v) = v.toNat := by
  have h : (2 : Nat) ^ (8 * w) = 256 ^ w := by rw [Nat.pow_mul]
  rw [fieldBytes, beNat_beBytes, ← h, Nat.mod_eq_of_lt v.isLt]

/-- The bytes of a field of a frame are the slice it was read from. -/
theorem fieldBytes_field {w a : Nat} {F : List Byte} (h : a + w ≤ F.length) :
    fieldBytes w (field w F a) = slice F a w := by
  have hp : (2 : Nat) ^ (8 * w) = 256 ^ w := by rw [Nat.pow_mul]
  have hl := length_slice_of_le h
  have hlt := beNat_lt (slice F a w)
  rw [hl] at hlt
  rw [fieldBytes, field, BitVec.toNat_ofNat, hp, rd, Nat.mod_eq_of_lt hlt]
  have := beBytes_beNat (slice F a w)
  rwa [hl] at this

theorem toNat_field {w a : Nat} {F : List Byte} : (field w F a).toNat = rd F a w % 256 ^ w := by
  have hp : (2 : Nat) ^ (8 * w) = 256 ^ w := by rw [Nat.pow_mul]
  rw [field, BitVec.toNat_ofNat, hp]

theorem rd_lt (F : List Byte) (a n : Nat) : rd F a n < 256 ^ n := by
  refine lt_of_lt_of_le (beNat_lt _) (Nat.pow_le_pow_right (by omega) ?_)
  rw [length_slice]; omega

@[simp] theorem toNat_field_eq (w a : Nat) (F : List Byte) : (field w F a).toNat = rd F a w := by
  rw [toNat_field, Nat.mod_eq_of_lt (rd_lt F a w)]

/-! ### Lengths of the formats (30_encoding.md R82 to R92) -/

@[simp] theorem length_macBytes (mac : MacHdr) (et : Half) : (macBytes mac et).length = 14 := by simp [macBytes]
@[simp] theorem length_arpBytes (a : ArpHdr) : (arpBytes a).length = 28 := by simp [arpBytes]
@[simp] theorem length_ipBytes (ip : IpHdr) : (ipBytes ip).length = 20 := by simp [ipBytes]
@[simp] theorem length_udpBytes (u : UdpHdr) : (udpBytes u).length = 8 := by simp [udpBytes]
@[simp] theorem length_icmpBytes (t c : Byte) (k : Half) : (icmpBytes t c k).length = 4 := by simp [icmpBytes]
@[simp] theorem length_arithBytes (a b c d : Word) : (arithBytes a b c d).length = 16 := by simp [arithBytes]

end Sys2Proof.Machine
end

