-- ==== Sys2Proof/Laws/Checksum.lean ====
section
/-! SUPPORT. Small laws of the checksum engine's sum (40_checksum.md R120, R129). -/

namespace Sys2Proof

open Machine

/-- Words are paired from the first byte: an even number of bytes in front does not disturb the pairing behind. -/
theorem wordSum_append (A B : List Byte) (h : A.length % 2 = 0) : wordSum (A ++ B) = wordSum A + wordSum B := by
  induction A using wordSum.induct with
  | case1 => simp [wordSum]
  | case2 b => simp at h
  | case3 a b l ih =>
    have := ih (by simp at h; omega)
    simp only [List.cons_append, wordSum, this]
    omega

/-- A 16-bit field is one word of the sum. -/
theorem wordSum_fieldBytes (v : Half) : wordSum (fieldBytes 2 v) = v.toNat := by
  have := v.isLt
  simp only [fieldBytes, beBytes, wordSum, BitVec.toNat_ofNat]
  omega

/-- One folding step keeps the sum modulo 65535. -/
theorem foldCarry_mod (fuel s : Nat) : foldCarry fuel s % 65535 = s % 65535 := by
  induction fuel generalizing s with
  | zero => rfl
  | succ n ih =>
    rw [foldCarry]
    split
    · rfl
    · rw [ih]; omega

end Sys2Proof
end

