-- ==== Sys2Proof/Laws/WellFormed.lean ====
section
/-! SUPPORT. What well-formedness says, in plain numbers. -/

namespace Sys2Proof

/- One lemma after another: many at once ask for more threads than the memory limit gives. -/
set_option Elab.async false

open Machine

theorem ipWf_iff {ip : IpHdr} {opts : List Byte} {tl : Nat} :
    ipWf ip opts tl = true ↔ 20 ≤ ihlBytes ip ∧ opts.length + 20 = ihlBytes ip ∧ totLen ip = ihlBytes ip + tl := by
  simp only [ipWf, Bool.and_eq_true, decide_eq_true_eq, and_assoc]
  rfl

theorem arithWf_iff {ip : IpHdr} {opts : List Byte} {udp : UdpHdr} {extra : List Byte} :
    arithWf ip opts udp extra = true ↔ ipWf ip opts (24 + extra.length) = true ∧ ip.proto = 17 ∧ udpLen udp = 24 := by
  simp only [arithWf, Bool.and_eq_true, decide_eq_true_eq, and_assoc]
  rfl

/-- The IPv4 part of every well-formed IPv4 operation: the options fill the header and `tot` is not below `ihl`. -/
theorem ipWf_bounds {ip : IpHdr} {opts : List Byte} {tl : Nat} (h : ipWf ip opts tl = true) :
    transportLen ip = tl ∧ transportOff ip = 34 + opts.length ∧ 14 + totLen ip = 34 + opts.length + tl := by
  obtain ⟨h1, h2, h3⟩ := ipWf_iff.1 h
  simp only [transportLen, transportOff, Config.macHdrLen]
  omega

/-- A bit vector is a constant exactly where its number is the constant's number. -/
theorem eq_iff_toNat {w n : Nat} {x c : BitVec w} (hc : c.toNat = n) : x = c ↔ x.toNat = n := by
  rw [← hc]
  exact BitVec.toNat_inj.symm

/-! ### Well-formedness of each class, in plain numbers -/

section
variable {mac : MacHdr} {ip : IpHdr} {opts data rest payload extra pad : List Byte} {udp : UdpHdr} {itype code : Byte}
  {ics et : Half} {kind opA opB oper : Word}

theorem wf_drop1 : (Instr.drop1 rest).wf = true ↔ rest.length < 14 := decide_eq_true_iff

theorem wf_drop2 : (Instr.drop2 mac rest).wf = true ↔ rest.length < 28 := decide_eq_true_iff

theorem wf_drop3 : (Instr.drop3 mac rest).wf = true ↔ rest.length < 20 := decide_eq_true_iff

theorem wf_drop4 : (Instr.drop4 mac ip rest).wf = true ↔ ihlBytes ip < 20 := decide_eq_true_iff

theorem wf_drop5 : (Instr.drop5 mac ip rest).wf = true ↔ 20 ≤ ihlBytes ip ∧ totLen ip < ihlBytes ip := by
  simp only [Instr.wf, Bool.and_eq_true, decide_eq_true_eq]
  exact Iff.rfl

theorem wf_drop6 :
    (Instr.drop6 mac ip rest).wf = true ↔
      20 ≤ ihlBytes ip ∧ ihlBytes ip ≤ totLen ip ∧ 20 + rest.length < totLen ip := by
  simp only [Instr.wf, Bool.and_eq_true, decide_eq_true_eq, and_assoc]
  exact Iff.rfl

theorem wf_drop7 :
    (Instr.drop7 mac ip opts data pad).wf = true ↔
      ipWf ip opts data.length = true ∧ ip.proto.toNat = 1 ∧ data.length < 4 := by
  simp only [Instr.wf, Bool.and_eq_true, decide_eq_true_eq, and_assoc,
    eq_iff_toNat (c := Config.protoIcmp) (n := 1) rfl]
  exact Iff.rfl

theorem wf_icmpEcho :
    (Instr.icmpEcho mac ip opts code ics rest pad).wf = true ↔
      ipWf ip opts (4 + rest.length) = true ∧ ip.proto.toNat = 1 := by
  simp only [Instr.wf, Bool.and_eq_true, decide_eq_true_eq,
    eq_iff_toNat (c := Config.protoIcmp) (n := 1) rfl]
  exact Iff.rfl

theorem wf_icmpPass :
    (Instr.icmpPass mac ip opts itype code ics rest pad).wf = true ↔
      ipWf ip opts (4 + rest.length) = true ∧ ip.proto.toNat = 1 ∧ itype.toNat ≠ 8 := by
  simp only [Instr.wf, Bool.and_eq_true, decide_eq_true_eq, and_assoc, ne_eq,
    eq_iff_toNat (c := Config.protoIcmp) (n := 1) rfl, eq_iff_toNat (c := Config.icmpEchoRequest) (n := 8) rfl]
  exact Iff.rfl

theorem wf_drop8 :
    (Instr.drop8 mac ip opts data pad).wf = true ↔
      ipWf ip opts data.length = true ∧ ip.proto.toNat = 17 ∧ data.length < 8 := by
  simp only [Instr.wf, Bool.and_eq_true, decide_eq_true_eq, and_assoc,
    eq_iff_toNat (c := Config.protoUdp) (n := 17) rfl]
  exact Iff.rfl

theorem wf_drop9 :
    (Instr.drop9 mac ip opts udp rest pad).wf = true ↔
      ipWf ip opts (8 + rest.length) = true ∧ ip.proto.toNat = 17 ∧ udpLen udp < 8 := by
  simp only [Instr.wf, Bool.and_eq_true, decide_eq_true_eq, and_assoc,
    eq_iff_toNat (c := Config.protoUdp) (n := 17) rfl]
  exact Iff.rfl

theorem wf_drop10 :
    (Instr.drop10 mac ip opts udp rest pad).wf = true ↔
      ipWf ip opts (8 + rest.length) = true ∧ ip.proto.toNat = 17 ∧ 8 ≤ udpLen udp ∧ 8 + rest.length < udpLen udp := by
  simp only [Instr.wf, Bool.and_eq_true, decide_eq_true_eq, and_assoc,
    eq_iff_toNat (c := Config.protoUdp) (n := 17) rfl]
  exact Iff.rfl

theorem wf_udpSwap :
    (Instr.udpSwap mac ip opts udp payload extra pad).wf = true ↔
      ipWf ip opts (8 + payload.length + extra.length) = true ∧ ip.proto.toNat = 17 ∧ udpLen udp = 8 + payload.length ∧
        udpLen udp ≠ 24 := by
  simp only [Instr.wf, Bool.and_eq_true, decide_eq_true_eq, and_assoc,
    eq_iff_toNat (c := Config.protoUdp) (n := 17) rfl]
  exact Iff.rfl

theorem wf_udpSkip :
    (Instr.udpSkip mac ip opts udp kind opA opB oper extra pad).wf = true ↔
      arithWf ip opts udp extra = true ∧ kind.toNat ≠ 1 := by
  simp only [Instr.wf, Bool.and_eq_true, decide_eq_true_eq, ne_eq,
    eq_iff_toNat (c := Config.kindRequest) (n := 1) rfl]

theorem wf_udpKeep :
    (Instr.udpKeep mac ip opts udp opA opB oper extra pad).wf = true ↔
      arithWf ip opts udp extra = true ∧ oper.toNat ≠ 1 ∧ oper.toNat ≠ 2 := by
  simp only [Instr.wf, Bool.and_eq_true, decide_eq_true_eq, ne_eq, and_assoc,
    eq_iff_toNat (c := Config.operAdd) (n := 1) rfl, eq_iff_toNat (c := Config.operSub) (n := 2) rfl]

theorem wf_ipPass :
    (Instr.ipPass mac ip opts data pad).wf = true ↔
      ipWf ip opts data.length = true ∧ ip.proto.toNat ≠ 1 ∧ ip.proto.toNat ≠ 17 := by
  simp only [Instr.wf, Bool.and_eq_true, decide_eq_true_eq, ne_eq, and_assoc,
    eq_iff_toNat (c := Config.protoIcmp) (n := 1) rfl, eq_iff_toNat (c := Config.protoUdp) (n := 17) rfl]

theorem wf_ethPass : (Instr.ethPass mac et rest).wf = true ↔ et.toNat ≠ 0x0800 ∧ et.toNat ≠ 0x0806 := by
  simp only [Instr.wf, Bool.and_eq_true, decide_eq_true_eq, ne_eq,
    eq_iff_toNat (c := Config.ethertypeIpv4) (n := 0x0800) rfl, eq_iff_toNat (c := Config.ethertypeArp) (n := 0x0806) rfl]

end

end Sys2Proof
end

