-- ==== Sys2Proof/Laws/Decode.lean ====
section
/-! SUPPORT. What the classification and the decoder read from a frame written by the encoder's layouts, and what the encoder's
layouts write from the fields of any frame: the two halves of the round trips. -/

namespace Sys2Proof

open Machine

/-! ### Reading a concatenation -/

theorem rd_right {A B : List Byte} {a k n : Nat} (h : A.length = k) (hk : k ≤ a) : rd (A ++ B) a n = rd B (a - k) n := by
  rw [rd, slice_right h hk, rd]

theorem field_right {w : Nat} {A B : List Byte} {a k : Nat} (h : A.length = k) (hk : k ≤ a) :
    field w (A ++ B) a = field w B (a - k) := by
  rw [field, rd_right h hk, field]

theorem field_left {w : Nat} (v : BitVec (8 * w)) (X : List Byte) : field w (fieldBytes w v ++ X) 0 = v := by
  rw [field, rd, slice_left (length_fieldBytes w v), ofNat_beNat_fieldBytes]

theorem rd_left {w : Nat} (v : BitVec (8 * w)) (X : List Byte) : rd (fieldBytes w v ++ X) 0 w = v.toNat := by
  rw [rd, slice_left (length_fieldBytes w v), beNat_fieldBytes]

/-- A field behind another one. -/
theorem field_skip {w k a : Nat} (v : BitVec (8 * k)) (X : List Byte) (h : k ≤ a) :
    field w (fieldBytes k v ++ X) a = field w X (a - k) := field_right (length_fieldBytes k v) h

/-- A field at the very place where the layout puts it. -/
theorem field_concat {w a : Nat} {A : List Byte} (v : BitVec (8 * w)) (X : List Byte) (h : A.length = a) :
    field w (A ++ (fieldBytes w v ++ X)) a = v := by
  rw [field_right h le_rfl, Nat.sub_self, field_left]

theorem rd_concat {w a : Nat} {A : List Byte} (v : BitVec (8 * w)) (X : List Byte) (h : A.length = a) :
    rd (A ++ (fieldBytes w v ++ X)) a w = v.toNat := by
  rw [rd_right h le_rfl, Nat.sub_self, rd_left]

/-! ### The MAC header -/

section Mac
variable (mac : MacHdr) (et : Half) (X : List Byte)

theorem frameEt_mac : frameEt (macBytes mac et ++ X) = et.toNat := by
  have : macBytes mac et ++ X = (fieldBytes 6 mac.dmac ++ fieldBytes 6 mac.smac) ++ (fieldBytes 2 et ++ X) := by
    simp [macBytes]
  rw [frameEt, this, rd_concat _ _ (by simp)]

theorem fieldEt_mac : field 2 (macBytes mac et ++ X) 12 = et := by
  have : macBytes mac et ++ X = (fieldBytes 6 mac.dmac ++ fieldBytes 6 mac.smac) ++ (fieldBytes 2 et ++ X) := by
    simp [macBytes]
  rw [this, field_concat _ _ (by simp)]

theorem getMac_mac : getMac (macBytes mac et ++ X) = mac := by
  have h : macBytes mac et ++ X = fieldBytes 6 mac.dmac ++ (fieldBytes 6 mac.smac ++ (fieldBytes 2 et ++ X)) := by
    simp [macBytes]
  rw [getMac, h, field_left, field_concat _ _ (length_fieldBytes 6 _)]

theorem drop_mac : (macBytes mac et ++ X).drop 14 = X := List.drop_left' (length_macBytes mac et)

end Mac

/-! ### The ARP header -/

theorem getArp_arp (mac : MacHdr) (et : Half) (a : ArpHdr) (X : List Byte) :
    getArp (macBytes mac et ++ (arpBytes a ++ X)) = a := by
  have hm := length_macBytes mac et
  generalize macBytes mac et = M at hm
  simp only [getArp, arpBytes, List.append_assoc, field_right hm (show 14 ≤ 14 by omega), field_right hm (show 14 ≤ 16 by omega),
    field_right hm (show 14 ≤ 18 by omega), field_right hm (show 14 ≤ 19 by omega), field_right hm (show 14 ≤ 20 by omega),
    field_right hm (show 14 ≤ 22 by omega), field_right hm (show 14 ≤ 28 by omega), field_right hm (show 14 ≤ 32 by omega),
    field_right hm (show 14 ≤ 38 by omega)]
  obtain ⟨f1, f2, f3, f4, f5, f6, f7, f8, f9⟩ := a
  simp (disch := omega) only [field_skip, Nat.reduceSub, field_left]

/-! ### The IPv4 header -/

theorem firstByte (ip : IpHdr) : (ip.version.toNat * 16 + ip.ihl.toNat) % 256 ^ 1 = ip.version.toNat * 16 + ip.ihl.toNat := by
  have := ip.version.isLt
  have := ip.ihl.isLt
  omega

section Ip
variable (mac : MacHdr) (ip : IpHdr) (opts X : List Byte)

theorem rd_ip (a n : Nat) (ha : 14 ≤ a) :
    rd (ipFrame mac ip opts X) a n = rd (ipBytes ip ++ (opts ++ X)) (a - 14) n := by
  rw [ipFrame, rd_right (length_macBytes _ _) ha]

theorem rd_firstByte : rd (ipFrame mac ip opts X) 14 1 = ip.version.toNat * 16 + ip.ihl.toNat := by
  rw [rd_ip _ _ _ _ _ _ le_rfl]
  have : ipBytes ip ++ (opts ++ X) = beBytes 1 (ip.version.toNat * 16 + ip.ihl.toNat) ++ (fieldBytes 1 ip.tos ++
      (fieldBytes 2 ip.tot ++ (fieldBytes 2 ip.ident ++ (fieldBytes 1 ip.fragFlags ++ (fieldBytes 1 ip.fragLow ++
      (fieldBytes 1 ip.ttl ++ (fieldBytes 1 ip.proto ++ (fieldBytes 2 ip.hcs ++ (fieldBytes 4 ip.src ++
      (fieldBytes 4 ip.dst ++ (opts ++ X))))))))))) := by simp [ipBytes]
  rw [this, rd, Nat.sub_self, slice_left (length_beBytes 1 _), beNat_beBytes, firstByte]

theorem getIp_ip : getIp (ipFrame mac ip opts X) = ip := by
  have hv : rd (ipFrame mac ip opts X) 14 1 / 16 = ip.version.toNat := by
    rw [rd_firstByte]; have := ip.ihl.isLt; omega
  have hi : rd (ipFrame mac ip opts X) 14 1 % 16 = ip.ihl.toNat := by
    rw [rd_firstByte]; have := ip.ihl.isLt; omega
  have hf {w a : Nat} (ha : 14 ≤ a) : field w (ipFrame mac ip opts X) a = field w (ipBytes ip ++ (opts ++ X)) (a - 14) := by
    rw [field, rd_ip _ _ _ _ _ _ ha, field]
  rw [getIp, hv, hi]
  rw [hf (show 14 ≤ 15 by omega), hf (show 14 ≤ 16 by omega), hf (show 14 ≤ 18 by omega), hf (show 14 ≤ 20 by omega),
    hf (show 14 ≤ 21 by omega), hf (show 14 ≤ 22 by omega), hf (show 14 ≤ 23 by omega), hf (show 14 ≤ 24 by omega),
    hf (show 14 ≤ 26 by omega), hf (show 14 ≤ 30 by omega)]
  simp only [ipBytes, List.append_assoc]
  obtain ⟨v, i, f1, f2, f3, f4, f5, f6, f7, f8, f9, f10⟩ := ip
  simp only [IpHdr.mk.injEq, BitVec.ofNat_toNat, BitVec.setWidth_eq, true_and]
  refine ⟨?_, ?_, ?_, ?_, ?_, ?_, ?_, ?_, ?_, ?_⟩
  all_goals exact field_left _ _

theorem frameIhl_ip : frameIhl (ipFrame mac ip opts X) = ihlBytes ip := by
  rw [frameIhl, rd_firstByte, ihlBytes]; have := ip.ihl.isLt; omega

theorem frameTot_ip : frameTot (ipFrame mac ip opts X) = totLen ip := by
  have h : (getIp (ipFrame mac ip opts X)).tot = ip.tot := by rw [getIp_ip]
  rw [frameTot, totLen, ← h, getIp, toNat_field_eq]

theorem frameProto_ip : frameProto (ipFrame mac ip opts X) = ip.proto.toNat := by
  have h : (getIp (ipFrame mac ip opts X)).proto = ip.proto := by rw [getIp_ip]
  rw [frameProto, ← h, getIp, toNat_field_eq]

theorem frameT_ip : frameT (ipFrame mac ip opts X) = transportOff ip := by
  rw [frameT, frameIhl_ip]; rfl

theorem ipFrame_length : (ipFrame mac ip opts X).length = 34 + opts.length + X.length := by
  simp [ipFrame, length_macBytes, length_ipBytes]; omega

theorem frameEt_ip : frameEt (ipFrame mac ip opts X) = Config.ethertypeIpv4.toNat := frameEt_mac _ _ _

theorem getMac_ip : getMac (ipFrame mac ip opts X) = mac := getMac_mac _ _ _

theorem drop34_ip : (ipFrame mac ip opts X).drop 34 = opts ++ X := by
  have : ipFrame mac ip opts X = (macBytes mac Config.ethertypeIpv4 ++ ipBytes ip) ++ (opts ++ X) := by simp [ipFrame]
  rw [this, List.drop_left' (by simp)]

variable {ip opts}

theorem getOpts_ip (h : opts.length + 20 = ihlBytes ip) : getOpts (ipFrame mac ip opts X) = opts := by
  rw [getOpts, frameIhl_ip, slice, drop34_ip]
  exact List.take_left' (by omega)

theorem drop_transport (h : opts.length + 20 = ihlBytes ip) (k : Nat) :
    (ipFrame mac ip opts X).drop (transportOff ip + k) = X.drop k := by
  have h2 : transportOff ip + k = 34 + (opts.length + k) := by simp only [transportOff, Config.macHdrLen]; omega
  rw [h2, ← List.drop_drop, drop34_ip, ← List.drop_drop, List.drop_left]

theorem slice_transport (h : opts.length + 20 = ihlBytes ip) (k n : Nat) :
    slice (ipFrame mac ip opts X) (transportOff ip + k) n = slice X k n := by
  rw [slice, drop_transport mac X h, slice]

theorem field_transport {w : Nat} (h : opts.length + 20 = ihlBytes ip) (k : Nat) :
    field w (ipFrame mac ip opts X) (transportOff ip + k) = field w X k := by
  rw [field, rd, slice_transport mac X h, field, rd]

theorem rd_transport (h : opts.length + 20 = ihlBytes ip) (k n : Nat) :
    rd (ipFrame mac ip opts X) (transportOff ip + k) n = rd X k n := by
  rw [rd, slice_transport mac X h, rd]

/-- The IPv4 packet's bytes from `T + k` on, where `D` is the whole of the transport data and `pad` the link padding. -/
theorem getData_ip {D pad : List Byte} (h : ipWf ip opts D.length = true) (k : Nat) :
    getData (ipFrame mac ip opts (D ++ pad)) (transportOff ip + k) = D.drop k := by
  obtain ⟨h1, h2, h3⟩ := ipWf_iff.1 h
  obtain ⟨-, h4, h5⟩ := ipWf_bounds h
  rw [getData, slice_transport mac _ h2, frameTot_ip, slice]
  have : 14 + totLen ip - (transportOff ip + k) = D.length - k := by omega
  rw [this]
  by_cases hk : k ≤ D.length
  · rw [List.drop_append_of_le_length hk, List.take_left' (by simp)]
  · rw [show D.length - k = 0 by omega, List.take_zero, List.drop_eq_nil_of_le (by omega)]

theorem getPad_ip {D pad : List Byte} (h : ipWf ip opts D.length = true) :
    getPad (ipFrame mac ip opts (D ++ pad)) = pad := by
  obtain ⟨h1, h2, h3⟩ := ipWf_iff.1 h
  obtain ⟨-, h4, h5⟩ := ipWf_bounds h
  rw [getPad, frameTot_ip, show 14 + totLen ip = transportOff ip + D.length by omega, drop_transport mac _ h2,
    List.drop_left]

end Ip

/-! ### Transport headers -/

/-- The UDP header's four fields where R90 puts them. -/
theorem field_udpBytes (u : UdpHdr) (X : List Byte) :
    field 2 (udpBytes u ++ X) 0 = u.sport ∧ field 2 (udpBytes u ++ X) 2 = u.dport ∧
      field 2 (udpBytes u ++ X) 4 = u.ul ∧ field 2 (udpBytes u ++ X) 6 = u.ucs := by
  simp only [udpBytes, List.append_assoc]
  refine ⟨field_left _ _, ?_, ?_, ?_⟩
  all_goals exact field_left _ _

/-- The ICMP fields where R88 puts them. -/
theorem field_icmpBytes (t c : Byte) (k : Half) (X : List Byte) :
    field 1 (icmpBytes t c k ++ X) 0 = t ∧ field 1 (icmpBytes t c k ++ X) 1 = c ∧
      field 2 (icmpBytes t c k ++ X) 2 = k := by
  simp only [icmpBytes, List.append_assoc]
  refine ⟨field_left _ _, ?_, ?_⟩
  all_goals exact field_left _ _

/-- The four mini-protocol words where R92 puts them. -/
theorem field_arithBytes (u : UdpHdr) (a b c d : Word) (X : List Byte) :
    field 4 (udpBytes u ++ (arithBytes a b c d ++ X)) 8 = a ∧ field 4 (udpBytes u ++ (arithBytes a b c d ++ X)) 12 = b ∧
      field 4 (udpBytes u ++ (arithBytes a b c d ++ X)) 16 = c ∧
      field 4 (udpBytes u ++ (arithBytes a b c d ++ X)) 20 = d := by
  have hu := length_udpBytes u
  simp only [field_right hu (show 8 ≤ 8 by omega), field_right hu (show 8 ≤ 12 by omega),
    field_right hu (show 8 ≤ 16 by omega), field_right hu (show 8 ≤ 20 by omega), arithBytes, List.append_assoc,
    Nat.reduceSub]
  exact ⟨field_left _ _, field_left _ _, field_left _ _, field_left _ _⟩

section
variable (mac : MacHdr) (ip : IpHdr) {opts X pad : List Byte}

theorem getUdp_ip (u : UdpHdr) (h : opts.length + 20 = ihlBytes ip) :
    getUdp (ipFrame mac ip opts (udpBytes u ++ X)) (transportOff ip) = u := by
  obtain ⟨f0, f2, f4, f6⟩ := field_udpBytes u X
  have e0 := field_transport (w := 2) mac (udpBytes u ++ X) h 0
  rw [Nat.add_zero] at e0
  rw [getUdp, e0, field_transport mac _ h 2, field_transport mac _ h 4, field_transport mac _ h 6, f0, f2, f4, f6]

/-- The bytes after a datagram of four mini-protocol words, and the link padding. -/
theorem arith_layout {u : UdpHdr} {a b c d : Word} {extra : List Byte} (h : arithWf ip opts u extra = true) :
    getData (ipFrame mac ip opts (udpBytes u ++ (arithBytes a b c d ++ (extra ++ pad)))) (transportOff ip + 24) = extra ∧
      getPad (ipFrame mac ip opts (udpBytes u ++ (arithBytes a b c d ++ (extra ++ pad)))) = pad := by
  obtain ⟨h1, hp, hu⟩ := arithWf_iff.1 h
  have e : udpBytes u ++ (arithBytes a b c d ++ (extra ++ pad)) = ((udpBytes u ++ arithBytes a b c d) ++ extra) ++ pad := by
    simp
  have hk : (udpBytes u ++ arithBytes a b c d).length = 24 := by simp
  have hl : ((udpBytes u ++ arithBytes a b c d) ++ extra).length = 24 + extra.length := by rw [List.length_append, hk]
  refine ⟨?_, ?_⟩
  · rw [e, getData_ip mac (hl ▸ h1) 24, List.drop_left' hk]
  · rw [e, getPad_ip mac (hl ▸ h1)]

end

/-- A number read from a frame is the value of the field there. -/
theorem rd_eq_toNat (w : Nat) (F : List Byte) (a : Nat) : rd F a w = (field w F a).toNat := (toNat_field_eq w a F).symm

/-! ### Writing back the fields of a frame -/

/-- Any frame is its slice up to `a` and the rest. -/
theorem slice_append_drop (F : List Byte) (a : Nat) : slice F 0 a ++ F.drop a = F := by simp [slice]

theorem slice_append_drop_from (F : List Byte) (a n : Nat) : slice F a n ++ F.drop (a + n) = F.drop a := by
  rw [slice, ← List.drop_drop, List.take_append_drop]

theorem macBytes_getMac {F : List Byte} {et : Half} (h : 14 ≤ F.length) (het : frameEt F = et.toNat) :
    macBytes (getMac F) et = slice F 0 14 := by
  have : et = field 2 F 12 := by
    apply BitVec.eq_of_toNat_eq
    rw [← het]
    exact (toNat_field_eq 2 12 F).symm
  rw [this, macBytes, getMac, fieldBytes_field (by omega), fieldBytes_field (by omega), fieldBytes_field (by omega),
    ← slice_add F 0 6 6, ← slice_add F 0 12 2]

theorem arpBytes_getArp {F : List Byte} (h : 42 ≤ F.length) : arpBytes (getArp F) = slice F 14 28 := by
  simp only [arpBytes, getArp]
  rw [fieldBytes_field (by omega), fieldBytes_field (by omega), fieldBytes_field (by omega), fieldBytes_field (by omega),
    fieldBytes_field (by omega), fieldBytes_field (by omega), fieldBytes_field (by omega), fieldBytes_field (by omega),
    fieldBytes_field (by omega), ← slice_add F 14 2 2, ← slice_add F 14 4 1, ← slice_add F 14 5 1, ← slice_add F 14 6 2,
    ← slice_add F 14 8 6, ← slice_add F 14 14 4, ← slice_add F 14 18 6, ← slice_add F 14 24 4]

theorem ipBytes_getIp {F : List Byte} (h : 34 ≤ F.length) : ipBytes (getIp F) = slice F 14 20 := by
  have hb : rd F 14 1 < 256 := by simpa using rd_lt F 14 1
  have h0 : beBytes 1 ((getIp F).version.toNat * 16 + (getIp F).ihl.toNat) = slice F 14 1 := by
    have e : (getIp F).version.toNat * 16 + (getIp F).ihl.toNat = rd F 14 1 := by
      simp only [getIp, BitVec.toNat_ofNat]; omega
    have := beBytes_beNat (slice F 14 1)
    rw [length_slice_of_le (by omega)] at this
    rw [e, rd, this]
  rw [ipBytes, h0]
  simp only [getIp]
  rw [fieldBytes_field (by omega), fieldBytes_field (by omega), fieldBytes_field (by omega), fieldBytes_field (by omega),
    fieldBytes_field (by omega), fieldBytes_field (by omega), fieldBytes_field (by omega), fieldBytes_field (by omega),
    fieldBytes_field (by omega), fieldBytes_field (by omega), ← slice_add F 14 1 1, ← slice_add F 14 2 2,
    ← slice_add F 14 4 2, ← slice_add F 14 6 1, ← slice_add F 14 7 1, ← slice_add F 14 8 1, ← slice_add F 14 9 1,
    ← slice_add F 14 10 2, ← slice_add F 14 12 4, ← slice_add F 14 16 4]

theorem udpBytes_getUdp {F : List Byte} {t : Nat} (h : t + 8 ≤ F.length) : udpBytes (getUdp F t) = slice F t 8 := by
  simp only [udpBytes, getUdp]
  rw [fieldBytes_field (by omega), fieldBytes_field (by omega), fieldBytes_field (by omega), fieldBytes_field (by omega),
    ← slice_add F t 2 2, ← slice_add F t 4 2, ← slice_add F t 6 2]

end Sys2Proof
end

