-- ==== Sys2Proof/Laws/Classify.lean ====
section
/-! SUPPORT. The class of a frame that is laid out as the encoder lays it out, read off its fields (30_encoding.md R100). -/

namespace Sys2Proof

open Machine

/-! ### What the classification reads of an IPv4 frame -/

section
variable {mac : MacHdr} {ip : IpHdr} {opts X : List Byte}

theorem classify_ip (h : 34 ≤ (ipFrame mac ip opts X).length) :
    classify (ipFrame mac ip opts X) =
      if ihlBytes ip < 20 then .drop .ipBadIhl
      else if totLen ip < ihlBytes ip then .drop .ipBadTotalLength
      else if (ipFrame mac ip opts X).length - 14 < totLen ip then .drop .ipLengthExceedsFrame
      else if ip.proto.toNat = 1 then classifyIcmp (ipFrame mac ip opts X)
      else if ip.proto.toNat = 17 then classifyUdp (ipFrame mac ip opts X)
      else .ipPass := by
  rw [classify, if_neg (by omega), frameEt_ip, if_neg (by decide), if_pos rfl, classifyIpv4, if_neg (by omega),
    frameIhl_ip, frameTot_ip, frameProto_ip]

theorem classify_accepted {D pad : List Byte} (h : ipWf ip opts D.length = true) :
    classify (ipFrame mac ip opts (D ++ pad)) =
      if ip.proto.toNat = 1 then classifyIcmp (ipFrame mac ip opts (D ++ pad))
      else if ip.proto.toNat = 17 then classifyUdp (ipFrame mac ip opts (D ++ pad))
      else .ipPass := by
  obtain ⟨h1, h2, h3⟩ := ipWf_iff.1 h
  have hl := ipFrame_length mac ip opts (D ++ pad)
  rw [List.length_append] at hl
  rw [classify_ip (by omega), if_neg (by omega), if_neg (by omega), if_neg (by omega)]

theorem frameTl_ip {n : Nat} (h : ipWf ip opts n = true) : frameTl (ipFrame mac ip opts X) = n := by
  obtain ⟨h1, h2, h3⟩ := ipWf_iff.1 h
  rw [frameTl, frameTot_ip, frameIhl_ip]; omega

theorem frameItype_ip (h : opts.length + 20 = ihlBytes ip) :
    frameItype (ipFrame mac ip opts X) = rd X 0 1 := by
  rw [frameItype, frameT_ip, ← rd_transport mac X h 0 1, Nat.add_zero]

theorem frameUl_ip (h : opts.length + 20 = ihlBytes ip) :
    frameUl (ipFrame mac ip opts X) = rd X 4 2 := by
  rw [frameUl, frameT_ip, ← rd_transport mac X h 4 2]

theorem frameKind_ip (h : opts.length + 20 = ihlBytes ip) :
    frameKind (ipFrame mac ip opts X) = rd X 8 4 := by
  rw [frameKind, frameT_ip, ← rd_transport mac X h 8 4]

theorem frameOper_ip (h : opts.length + 20 = ihlBytes ip) :
    frameOper (ipFrame mac ip opts X) = rd X 20 4 := by
  rw [frameOper, frameT_ip, ← rd_transport mac X h 20 4]
end

theorem rd_icmpBytes (t c : Byte) (k : Half) (X : List Byte) : rd (icmpBytes t c k ++ X) 0 1 = t.toNat := by
  rw [rd_eq_toNat, (field_icmpBytes t c k X).1]

theorem rd_udpBytes (u : UdpHdr) (X : List Byte) : rd (udpBytes u ++ X) 4 2 = udpLen u := by
  rw [rd_eq_toNat, (field_udpBytes u X).2.2.1]; rfl

theorem rd_arith_kind (u : UdpHdr) (a b c d : Word) (X : List Byte) :
    rd (udpBytes u ++ (arithBytes a b c d ++ X)) 8 4 = a.toNat := by
  rw [rd_eq_toNat, (field_arithBytes u a b c d X).1]

theorem rd_arith_oper (u : UdpHdr) (a b c d : Word) (X : List Byte) :
    rd (udpBytes u ++ (arithBytes a b c d ++ X)) 20 4 = d.toNat := by
  rw [rd_eq_toNat, (field_arithBytes u a b c d X).2.2.2]

/-! ### The class -/

section
variable {mac : MacHdr} {ip : IpHdr} {opts X D pad : List Byte}

theorem classify_icmp (h : ipWf ip opts D.length = true) (hp : ip.proto.toNat = 1) :
    classify (ipFrame mac ip opts (D ++ pad)) =
      if D.length < 4 then .drop .icmpTruncated
      else if rd (D ++ pad) 0 1 = 8 then .icmpEcho else .icmpPass := by
  rw [classify_accepted h, if_pos hp, classifyIcmp, frameTl_ip h, frameItype_ip (ipWf_iff.1 h).2.1]

theorem classify_udp (h : ipWf ip opts D.length = true) (hp : ip.proto.toNat = 17) :
    classify (ipFrame mac ip opts (D ++ pad)) =
      if D.length < 8 then .drop .udpTruncated
      else if rd (D ++ pad) 4 2 < 8 then .drop .udpBadLength
      else if D.length < rd (D ++ pad) 4 2 then .drop .udpLengthExceedsDatagram
      else if rd (D ++ pad) 4 2 ≠ 24 then .udpSwap
      else if rd (D ++ pad) 8 4 ≠ 1 then .udpSkip
      else if rd (D ++ pad) 20 4 = 1 then .udpAdd
      else if rd (D ++ pad) 20 4 = 2 then .udpSub
      else .udpKeep := by
  have h2 := (ipWf_iff.1 h).2.1
  have hn : ¬ ip.proto.toNat = 1 := by rw [hp]; omega
  rw [classify_accepted h, if_neg hn, if_pos hp, classifyUdp, frameTl_ip h, frameUl_ip h2, frameKind_ip h2,
    frameOper_ip h2]

theorem classify_arith {udp : UdpHdr} {a b c d : Word} {extra : List Byte} (h : arithWf ip opts udp extra = true) :
    classify (ipFrame mac ip opts (udpBytes udp ++ (arithBytes a b c d ++ (extra ++ pad)))) =
      if a.toNat ≠ 1 then .udpSkip
      else if d.toNat = 1 then .udpAdd
      else if d.toNat = 2 then .udpSub
      else .udpKeep := by
  obtain ⟨h1, hp, hu⟩ := arithWf_iff.1 h
  have e : udpBytes udp ++ (arithBytes a b c d ++ (extra ++ pad)) = (udpBytes udp ++ (arithBytes a b c d ++ extra)) ++ pad := by simp
  have hl : (udpBytes udp ++ (arithBytes a b c d ++ extra)).length = 24 + extra.length := by
    simp; omega
  have hc := classify_udp (mac := mac) (pad := pad) (hl ▸ h1) (by rw [hp]; rfl)
  rw [← e, rd_udpBytes, rd_arith_kind, rd_arith_oper, hl, hu] at hc
  rw [hc, if_neg (by omega), if_neg (by omega), if_neg (by omega), if_neg (by simp)]
end

theorem classify_mac {mac : MacHdr} {et : Half} {X : List Byte} :
   classify (macBytes mac et ++ X) = if et.toNat = 0x0806 then (if X.length < 28 then .drop .arpTruncated else .arpReply)
     else if et.toNat = 0x0800 then classifyIpv4 (macBytes mac et ++ X) else .ethPass := by
  have h : (macBytes mac et ++ X).length = 14 + X.length := by simp
  rw [classify, if_neg (by omega), frameEt_mac, h, Nat.add_sub_cancel_left]; rfl

end Sys2Proof
end

