-- ==== Sys2Proof/Laws/Memory.lean ====
section
/-! SUPPORT. Laws of the frame space (Machine/Ops.lean): every operation keeps the canonical form, a read after a write, and what
each access does on the frame space of a frame, as a function of its bytes. -/

namespace Sys2Proof.Machine

/-! ### Any frame space -/

theorem readByte_writeByte (m : Memory) (a k : Nat) (b : Byte) :
    readByte (writeByte m a b) k = if k = a then some b else readByte m k := by
  by_cases h : k = a
  · subst h
    rw [if_pos rfl]
    induction m with
    | nil => simp [writeByte, readByte]
    | cons c m ih =>
      simp only [writeByte]
      split
      · simp [readByte]
      · split
        · simp [readByte]
        · next h1 h2 => simp only [readByte]; rw [if_neg (Ne.symm h2), ih]
  · rw [if_neg h]
    induction m with
    | nil => simp only [writeByte, readByte]; rw [if_neg (Ne.symm h)]
    | cons c m ih =>
      simp only [writeByte]
      split
      · simp only [readByte]; rw [if_neg (Ne.symm h)]
      · split
        · next h1 => simp only [readByte]; rw [if_neg (Ne.symm h), if_neg (by omega)]
        · simp only [readByte, ih]

theorem mem_writeByte_fst {m : Memory} {a : Nat} {b : Byte} {c : Host.Cell} (h : c ∈ writeByte m a b) :
    c.1 = a ∨ c ∈ m := by
  induction m with
  | nil => simp only [writeByte, List.mem_singleton] at h; exact .inl (by rw [h])
  | cons d m ih =>
    obtain ⟨j, e⟩ := d
    simp only [writeByte] at h
    split at h
    · rcases List.mem_cons.1 h with h | h
      · exact .inl (by rw [h])
      · exact .inr h
    · split at h
      · rcases List.mem_cons.1 h with h | h
        · exact .inl (by rw [h])
        · exact .inr (List.mem_cons_of_mem _ h)
      · rcases List.mem_cons.1 h with h | h
        · exact .inr (by rw [h]; exact List.mem_cons_self)
        · exact (ih h).imp_right (List.mem_cons_of_mem _)

theorem writeByte_wf {m : Memory} (h : Memory.wf m) (a : Nat) (b : Byte) : Memory.wf (writeByte m a b) := by
  induction m with
  | nil => simp [writeByte, Memory.wf]
  | cons c m ih =>
    obtain ⟨j, d⟩ := c
    have hm := List.pairwise_cons.1 h
    simp only [writeByte]
    split
    · next hlt =>
      refine List.pairwise_cons.2 ⟨fun x hx => ?_, h⟩
      rcases List.mem_cons.1 hx with hx | hx
      · rw [hx]; exact hlt
      · exact Nat.lt_trans hlt (hm.1 x hx)
    · split
      · next heq => subst heq; exact List.pairwise_cons.2 ⟨hm.1, hm.2⟩
      · refine List.pairwise_cons.2 ⟨fun x hx => ?_, ih hm.2⟩
        rcases mem_writeByte_fst hx with hx | hx
        · show j < x.1; omega
        · exact hm.1 x hx

theorem storeBytes_wf {m m' : Memory} (h : Memory.wf m) {a : Nat} {bs : List Byte} (hs : storeBytes m a bs = .ok m') :
    Memory.wf m' := by
  induction bs generalizing m a with
  | nil => simp only [storeBytes, Except.ok.injEq] at hs; exact hs ▸ h
  | cons b l ih =>
    simp only [storeBytes] at hs
    split at hs
    · cases hs
    · exact ih (writeByte_wf h a b) hs

theorem memWrite_wf {m m' : Memory} (h : Memory.wf m) {a n v : Nat} (hs : memWrite m a n v = .ok m') : Memory.wf m' :=
  storeBytes_wf h hs

theorem memSwap_wf {m m' : Memory} (h : Memory.wf m) {a b n : Nat} (hs : memSwap m a b n = .ok m') : Memory.wf m' := by
  simp only [memSwap] at hs
  split at hs
  · split at hs
    · next h1 => exact storeBytes_wf (storeBytes_wf h h1) hs
    · cases hs
  · cases hs
  · cases hs

/-! ### The frame space of a frame -/

theorem cellsFrom_fst_ge {F : List Byte} {s : Nat} {c : Host.Cell} (h : c ∈ cellsFrom s F) : s ≤ c.1 := by
  induction F generalizing s with
  | nil => cases h
  | cons b l ih =>
    rcases List.mem_cons.1 h with h | h
    · rw [h]
    · have := ih h; omega

theorem cellsFrom_wf (F : List Byte) (s : Nat) : Memory.wf (cellsFrom s F) := by
  induction F generalizing s with
  | nil => exact List.Pairwise.nil
  | cons b l ih => exact List.pairwise_cons.2 ⟨fun c hc => cellsFrom_fst_ge hc, ih (s + 1)⟩

theorem ofBytes_wf (F : List Byte) : Memory.wf (ofBytes F) := cellsFrom_wf F 0

@[simp] theorem bytesOf_cellsFrom (F : List Byte) (s : Nat) : bytesOf (cellsFrom s F) = F := by
  induction F generalizing s with
  | nil => rfl
  | cons b l ih => simpa [bytesOf, cellsFrom] using ih (s + 1)

@[simp] theorem bytesOf_ofBytes (F : List Byte) : bytesOf (ofBytes F) = F := bytesOf_cellsFrom F 0

theorem length_bytesOf (m : Memory) : (bytesOf m).length = frameLen m := by simp [bytesOf, frameLen]

@[simp] theorem frameLen_ofBytes (F : List Byte) : frameLen (ofBytes F) = F.length := by
  rw [← length_bytesOf, bytesOf_ofBytes]

theorem ofBytes_dense (F : List Byte) : Memory.dense (ofBytes F) := by simp [Memory.dense]

theorem readByte_cellsFrom (F : List Byte) (s a : Nat) :
    readByte (cellsFrom s F) a = if s ≤ a then F[a - s]? else none := by
  induction F generalizing s with
  | nil => simp [cellsFrom, readByte]
  | cons b l ih =>
    simp only [cellsFrom, readByte, ih]
    by_cases h : s = a
    · simp [h]
    · rw [if_neg h]
      by_cases h2 : s ≤ a
      · rw [if_pos (by omega), if_pos h2, List.getElem?_cons, if_neg (by omega)]
        congr 1
      · rw [if_neg (by omega), if_neg h2]

/-- `F[a]`, and no value outside the frame (20_memory.md R50, R52). -/
@[simp] theorem readByte_ofBytes (F : List Byte) (a : Nat) : readByte (ofBytes F) a = F[a]? := by
  simp [ofBytes, readByte_cellsFrom]

theorem writeByte_cellsFrom {F : List Byte} {s a : Nat} (b : Byte) (hs : s ≤ a) (ha : a < s + F.length) :
    writeByte (cellsFrom s F) a b = cellsFrom s (F.set (a - s) b) := by
  induction F generalizing s with
  | nil => simp at ha; omega
  | cons c l ih =>
    simp only [cellsFrom, writeByte]
    rw [if_neg (by omega)]
    by_cases h : a = s
    · subst h; simp [cellsFrom]
    · simp only [List.length_cons] at ha
      rw [if_neg h, ih (by omega) (by omega), show a - s = (a - (s + 1)) + 1 by omega]
      rfl

theorem writeByte_ofBytes {F : List Byte} {a : Nat} (b : Byte) (h : a < F.length) :
    writeByte (ofBytes F) a b = ofBytes (F.set a b) :=
  writeByte_cellsFrom (s := 0) b (Nat.zero_le a) (by omega)

theorem loadBytes_ofBytes {F : List Byte} {a n : Nat} (h : a + n ≤ F.length) :
    loadBytes (ofBytes F) a n = .ok (slice F a n) := by
  induction n generalizing a with
  | zero => simp [loadBytes]
  | succ n ih =>
    have ha : a < F.length := by omega
    simp only [loadBytes, readByte_ofBytes, List.getElem?_eq_getElem ha, ih (a := a + 1) (by omega)]
    rw [slice, slice, List.drop_eq_getElem_cons ha, List.take_succ_cons]

/-- An access that reaches outside the frame is a fault (20_memory.md R52). -/
theorem loadBytes_ofBytes_out {F : List Byte} {a n : Nat} (hn : 0 < n) (h : F.length < a + n) :
    loadBytes (ofBytes F) a n = .error .outOfBounds := by
  induction n generalizing a with
  | zero => omega
  | succ n ih =>
    simp only [loadBytes, readByte_ofBytes]
    by_cases ha : a < F.length
    · rw [List.getElem?_eq_getElem ha]
      simp only [ih (a := a + 1) (by omega) (by omega)]
    · rw [List.getElem?_eq_none (by omega)]

theorem storeBytes_ofBytes {F bs : List Byte} {a : Nat} (h : a + bs.length ≤ F.length) :
    storeBytes (ofBytes F) a bs = .ok (ofBytes (splice F a bs)) := by
  induction bs generalizing F a with
  | nil => simp [storeBytes, splice]
  | cons b l ih =>
    simp only [List.length_cons] at h
    have ha : a < F.length := by omega
    simp only [storeBytes, readByte_ofBytes, List.getElem?_eq_getElem ha, writeByte_ofBytes b ha]
    rw [ih (by simp; omega)]
    congr 2
    apply List.ext_getElem?
    intro k
    rw [getElem?_splice (by simp; omega), getElem?_splice (by simp; omega)]
    simp only [List.length_cons]
    by_cases hk : k = a
    · subst hk
      rw [if_neg (by omega), if_pos (by omega)]
      simp [ha]
    · by_cases hk2 : a + 1 ≤ k ∧ k < a + 1 + l.length
      · rw [if_pos hk2, if_pos (by omega), show k - a = (k - (a + 1)) + 1 by omega]
        simp
      · rw [if_neg hk2, if_neg (by omega), List.getElem?_set_ne (by omega)]

theorem storeBytes_ofBytes_out {F bs : List Byte} {a : Nat} (hn : bs ≠ []) (h : F.length < a + bs.length) :
    storeBytes (ofBytes F) a bs = .error .outOfBounds := by
  induction bs generalizing F a with
  | nil => exact absurd rfl hn
  | cons b l ih =>
    simp only [List.length_cons] at h
    simp only [storeBytes, readByte_ofBytes]
    by_cases ha : a < F.length
    · rw [List.getElem?_eq_getElem ha]
      simp only [writeByte_ofBytes b ha]
      refine ih ?_ (by simp; omega)
      rintro rfl; simp at h; omega
    · rw [List.getElem?_eq_none (by omega)]

theorem memWrite_ofBytes {F : List Byte} {a n : Nat} (v : Nat) (h : a + n ≤ F.length) :
    memWrite (ofBytes F) a n v = .ok (ofBytes (splice F a (beBytes n v))) :=
  storeBytes_ofBytes (by simpa using h)

theorem memSwap_ofBytes {F : List Byte} {a b n : Nat} (ha : a + n ≤ F.length) (hb : b + n ≤ F.length) :
    memSwap (ofBytes F) a b n = .ok (ofBytes (splice (splice F a (slice F b n)) b (slice F a n))) := by
  have h1 := length_slice_of_le ha
  have h2 := length_slice_of_le hb
  have h3 : (splice F a (slice F b n)).length = F.length := length_splice (by omega)
  simp only [memSwap, loadBytes_ofBytes ha, loadBytes_ofBytes hb, storeBytes_ofBytes (F := F) (a := a) (by rw [h2]; exact ha)]
  exact storeBytes_ofBytes (by rw [h1, h3]; exact hb)

/-! ### What an access that succeeds has done -/

theorem storeBytes_ofBytes_ok {F bs : List Byte} {a : Nat} {m : Memory} (h : storeBytes (ofBytes F) a bs = .ok m) :
    m = ofBytes (splice F a bs) ∧ (bs ≠ [] → a + bs.length ≤ F.length) := by
  by_cases hb : bs = []
  · subst hb
    simp only [storeBytes, Except.ok.injEq] at h
    exact ⟨by simp [splice, ← h], fun h => absurd rfl h⟩
  · by_cases hle : a + bs.length ≤ F.length
    · rw [storeBytes_ofBytes hle, Except.ok.injEq] at h
      exact ⟨h.symm, fun _ => hle⟩
    · rw [storeBytes_ofBytes_out hb (by omega)] at h; cases h

theorem loadBytes_ofBytes_ok {F l : List Byte} {a n : Nat} (h : loadBytes (ofBytes F) a n = .ok l) :
    l = slice F a n ∧ (0 < n → a + n ≤ F.length) := by
  by_cases hn : 0 < n
  · by_cases hle : a + n ≤ F.length
    · rw [loadBytes_ofBytes hle, Except.ok.injEq] at h
      exact ⟨h.symm, fun _ => hle⟩
    · rw [loadBytes_ofBytes_out hn (by omega)] at h; cases h
  · have : n = 0 := by omega
    subst this
    simp only [loadBytes, Except.ok.injEq] at h
    exact ⟨by simp [← h], fun h => absurd h (by omega)⟩

theorem memWrite_ofBytes_ok {F : List Byte} {a n v : Nat} {m : Memory} (hn : 0 < n)
    (h : memWrite (ofBytes F) a n v = .ok m) : m = ofBytes (splice F a (beBytes n v)) ∧ a + n ≤ F.length := by
  obtain ⟨h1, h2⟩ := storeBytes_ofBytes_ok h
  refine ⟨h1, ?_⟩
  have hne : beBytes n v ≠ [] := by
    intro h0; have := length_beBytes n v; rw [h0] at this; simp at this; omega
  simpa using h2 hne

theorem memSwap_ofBytes_ok {F : List Byte} {a b n : Nat} {m : Memory} (hn : 0 < n)
    (h : memSwap (ofBytes F) a b n = .ok m) :
    m = ofBytes (splice (splice F a (slice F b n)) b (slice F a n)) ∧ a + n ≤ F.length ∧ b + n ≤ F.length := by
  have ha : a + n ≤ F.length := by
    by_contra hc
    simp only [memSwap, loadBytes_ofBytes_out hn (show F.length < a + n by omega)] at h
    cases h
  have hb : b + n ≤ F.length := by
    by_contra hc
    simp only [memSwap, loadBytes_ofBytes ha, loadBytes_ofBytes_out hn (show F.length < b + n by omega)] at h
    cases h
  rw [memSwap_ofBytes ha hb, Except.ok.injEq] at h
  exact ⟨h.symm, ha, hb⟩

end Sys2Proof.Machine
end

