-- ==== Sys2Proof/Laws/State.lean ====
section
/-! SUPPORT. One lemma per field per update of State, so that no proof unfolds a record update. -/

namespace Sys2Proof.Machine

section EndReflection
variable (d : Delivery) (s : State)

@[simp] theorem endReflection_idc : (endReflection d s).idc = s.idc := rfl
@[simp] theorem endReflection_stats : (endReflection d s).stats = s.stats := rfl
@[simp] theorem endReflection_cur : (endReflection d s).cur = none := rfl
@[simp] theorem endReflection_params : (endReflection d s).params = s.params := rfl
@[simp] theorem endReflection_ready : (endReflection d s).ready = s.ready := rfl
@[simp] theorem endReflection_reads : (endReflection d s).reads = s.reads := rfl
@[simp] theorem endReflection_events : (endReflection d s).events = s.events := rfl
@[simp] theorem endReflection_delivered : (endReflection d s).delivered = d :: s.delivered := rfl

@[simp] theorem deliver_idc : (deliver d s).idc = s.idc := rfl
@[simp] theorem deliver_stats : (deliver d s).stats = s.stats := rfl
@[simp] theorem deliver_cur : (deliver d s).cur = s.cur := rfl
@[simp] theorem deliver_params : (deliver d s).params = s.params := rfl
@[simp] theorem deliver_ready : (deliver d s).ready = s.ready := rfl
@[simp] theorem deliver_reads : (deliver d s).reads = s.reads := rfl
@[simp] theorem deliver_events : (deliver d s).events = s.events := rfl
@[simp] theorem deliver_delivered : (deliver d s).delivered = d :: s.delivered := rfl

end EndReflection

section AfterReflect
variable (s : State) (r : Reflection) (b : StatBlock) (idc : Half) (out : List Byte) (code : DropCode)

@[simp] theorem afterReflect_idc : (afterReflect s r b idc out).idc = idc := rfl
@[simp] theorem afterReflect_stats :
    (afterReflect s r b idc out).stats = setStat s.stats r.iface r.worker (bumpBlock b out.length) := rfl
@[simp] theorem afterReflect_cur : (afterReflect s r b idc out).cur = none := rfl
@[simp] theorem afterReflect_params : (afterReflect s r b idc out).params = s.params := rfl
@[simp] theorem afterReflect_ready : (afterReflect s r b idc out).ready = s.ready := rfl
@[simp] theorem afterReflect_reads : (afterReflect s r b idc out).reads = s.reads := rfl
@[simp] theorem afterReflect_events : (afterReflect s r b idc out).events = s.events := rfl
@[simp] theorem afterReflect_delivered :
    (afterReflect s r b idc out).delivered = .reflect r.iface out :: s.delivered := rfl

@[simp] theorem afterDrop_idc : (afterDrop s code).idc = s.idc := rfl
@[simp] theorem afterDrop_stats : (afterDrop s code).stats = s.stats := rfl
@[simp] theorem afterDrop_cur : (afterDrop s code).cur = none := rfl
@[simp] theorem afterDrop_params : (afterDrop s code).params = s.params := rfl
@[simp] theorem afterDrop_ready : (afterDrop s code).ready = s.ready := rfl
@[simp] theorem afterDrop_reads : (afterDrop s code).reads = s.reads := rfl
@[simp] theorem afterDrop_events : (afterDrop s code).events = s.events := rfl
@[simp] theorem afterDrop_delivered : (afterDrop s code).delivered = .drop code :: s.delivered := rfl

end AfterReflect

section ApplyReset
variable (s : State)

@[simp] theorem applyReset_idc : (applyReset s).idc = Config.idReset := rfl
@[simp] theorem applyReset_stats : (applyReset s).stats = freshStats s.params := rfl
@[simp] theorem applyReset_cur : (applyReset s).cur = none := rfl
@[simp] theorem applyReset_params : (applyReset s).params = s.params := rfl
@[simp] theorem applyReset_ready : (applyReset s).ready = true := rfl
@[simp] theorem applyReset_reads : (applyReset s).reads = s.reads := rfl
@[simp] theorem applyReset_events : (applyReset s).events = s.events := rfl
@[simp] theorem applyReset_delivered : (applyReset s).delivered = s.delivered := rfl

end ApplyReset

section DrawIdentifier
variable (s : State)

@[simp] theorem drawIdentifier_fst : (drawIdentifier s).1 = s.idc := rfl
@[simp] theorem drawIdentifier_idc : (drawIdentifier s).2.idc = s.idc + 1 := rfl
@[simp] theorem drawIdentifier_stats : (drawIdentifier s).2.stats = s.stats := rfl
@[simp] theorem drawIdentifier_cur : (drawIdentifier s).2.cur = s.cur := rfl
@[simp] theorem drawIdentifier_params : (drawIdentifier s).2.params = s.params := rfl
@[simp] theorem drawIdentifier_ready : (drawIdentifier s).2.ready = s.ready := rfl
@[simp] theorem drawIdentifier_reads : (drawIdentifier s).2.reads = s.reads := rfl
@[simp] theorem drawIdentifier_events : (drawIdentifier s).2.events = s.events := rfl
@[simp] theorem drawIdentifier_delivered : (drawIdentifier s).2.delivered = s.delivered := rfl

end DrawIdentifier

section WithFetchWord
variable (s : State) (nbits w : Nat)

@[simp] theorem withFetchWord_idc : (s.withFetchWord nbits w).idc = s.idc := rfl
@[simp] theorem withFetchWord_stats : (s.withFetchWord nbits w).stats = s.stats := rfl
@[simp] theorem withFetchWord_cur :
    (s.withFetchWord nbits w).cur = some ⟨0, 0, ofBytes (tableFrame nbits w)⟩ := rfl
@[simp] theorem withFetchWord_params : (s.withFetchWord nbits w).params = s.params := rfl
@[simp] theorem withFetchWord_ready : (s.withFetchWord nbits w).ready = s.ready := rfl
@[simp] theorem withFetchWord_reads : (s.withFetchWord nbits w).reads = s.reads := rfl
@[simp] theorem withFetchWord_events : (s.withFetchWord nbits w).events = s.events := rfl
@[simp] theorem withFetchWord_delivered : (s.withFetchWord nbits w).delivered = s.delivered := rfl

end WithFetchWord

section BumpBlock
variable (b : StatBlock) (L : Nat)

@[simp] theorem bumpBlock_rxPackets : (bumpBlock b L).rxPackets = b.rxPackets + 1 := rfl
@[simp] theorem bumpBlock_txPackets : (bumpBlock b L).txPackets = b.txPackets + 1 := rfl
@[simp] theorem bumpBlock_rxBytes : (bumpBlock b L).rxBytes = b.rxBytes + BitVec.ofNat 64 L := rfl
@[simp] theorem bumpBlock_txBytes : (bumpBlock b L).txBytes = b.txBytes + BitVec.ofNat 64 L := rfl
@[simp] theorem bumpBlock_token : (bumpBlock b L).token = b.token + 1 := rfl

end BumpBlock

/-! ### The counter blocks -/

theorem statAt_setStat_self {stats : List (List StatBlock)} {i w : Nat} {b c : StatBlock}
    (h : statAt stats i w = some b) : statAt (setStat stats i w c) i w = some c := by
  simp only [statAt] at h
  split at h
  · cases h
  · next row hrow =>
    have hi := (List.getElem?_eq_some_iff.1 hrow).1
    have hw := (List.getElem?_eq_some_iff.1 h).1
    simp only [statAt, setStat, hrow, List.getElem?_set_self hi, List.getElem?_set_self hw]

theorem statAt_setStat_ne {stats : List (List StatBlock)} {i w j v : Nat} {c : StatBlock} (h : ¬(j = i ∧ v = w)) :
    statAt (setStat stats i w c) j v = statAt stats j v := by
  simp only [setStat]
  split
  · rfl
  · next row hrow =>
    have hi := (List.getElem?_eq_some_iff.1 hrow).1
    by_cases hj : j = i
    · subst hj
      simp only [statAt, hrow, List.getElem?_set_self hi]
      exact List.getElem?_set_ne (by tauto)
    · simp only [statAt, List.getElem?_set_ne (Ne.symm hj)]

@[simp] theorem length_setStat (stats : List (List StatBlock)) (i w : Nat) (c : StatBlock) :
    (setStat stats i w c).length = stats.length := by
  simp only [setStat]; split <;> simp

theorem length_row_setStat {stats : List (List StatBlock)} {i w k : Nat} {c : StatBlock}
    (h : ∀ row ∈ stats, row.length = k) : ∀ row ∈ setStat stats i w c, row.length = k := by
  simp only [setStat]
  split
  · exact h
  · next row hrow =>
    intro x hx
    rcases List.mem_or_eq_of_mem_set hx with hx | hx
    · exact h x hx
    · rw [hx, List.length_set]; exact h row (List.mem_of_getElem? hrow)

/-- A block of the right shape exists exactly on the lanes (10_state.md R28). -/
theorem statAt_isSome {stats : List (List StatBlock)} {n k i w : Nat} (hn : stats.length = n)
    (hk : ∀ row ∈ stats, row.length = k) (hi : i < n) (hw : w < k) : ∃ b, statAt stats i w = some b := by
  have h1 : i < stats.length := by omega
  have h2 : w < (stats[i]).length := by rw [hk _ (List.getElem_mem h1)]; exact hw
  exact ⟨stats[i][w], by simp [statAt, List.getElem?_eq_getElem h1, List.getElem?_eq_getElem h2]⟩

end Sys2Proof.Machine
end

