-- ==== Sys2Proof/Laws/Ops.lean ====
section
/-! SUPPORT. For each shared operation, once, what it does: the accesses on a frame written as a concatenation of fields, the
rewriting steps of the reflectors on a frame of their format, and what the ends of a reflection answer. -/

namespace Sys2Proof.Machine

open Host (Outcome)

@[simp] theorem ok_bind {α β : Type} (x : α) (f : α → Except Fault β) : ((Except.ok x : Except Fault α) >>= f) = f x := rfl
@[simp] theorem error_bind {α β : Type} (e : Fault) (f : α → Except Fault β) :
    ((Except.error e : Except Fault α) >>= f) = .error e := rfl

theorem bind_eq_ok {α β : Type} {x : Except Fault α} {f : α → Except Fault β} {y : β} (h : (x >>= f) = .ok y) :
    ∃ a, x = .ok a ∧ f a = .ok y := by
  cases x with
  | error e => cases h
  | ok a => exact ⟨a, rfl, h⟩

/-! ### Accesses on a concatenation of fields -/

theorem loadBytes_concat {A B C : List Byte} {a n : Nat} (ha : A.length = a) (hn : B.length = n) :
    loadBytes (ofBytes (A ++ (B ++ C))) a n = .ok B := by
  rw [loadBytes_ofBytes (by simp; omega), slice_right ha le_rfl, Nat.sub_self, slice_left hn]

theorem memWrite_concat {A B C : List Byte} {a n : Nat} (v : Nat) (ha : A.length = a) (hn : B.length = n) :
    memWrite (ofBytes (A ++ (B ++ C))) a n v = .ok (ofBytes (A ++ (beBytes n v ++ C))) := by
  rw [memWrite_ofBytes v (by simp; omega), splice_append ha (by simp [hn])]

theorem memSwap_concat {A X M Y C : List Byte} {a b n : Nat} (ha : A.length = a) (hx : X.length = n)
    (hb : a + n + M.length = b) (hy : Y.length = n) :
    memSwap (ofBytes (A ++ (X ++ (M ++ (Y ++ C))))) a b n = .ok (ofBytes (A ++ (Y ++ (M ++ (X ++ C))))) := by
  have e1 : slice (A ++ (X ++ (M ++ (Y ++ C)))) a n = X := by
    rw [slice_right ha le_rfl, Nat.sub_self, slice_left hx]
  have e2 : slice (A ++ (X ++ (M ++ (Y ++ C)))) b n = Y := by
    rw [slice_right ha (by omega), slice_right hx (by omega), slice_right (k := M.length) rfl (by omega),
      show b - a - n - M.length = 0 by omega, slice_left hy]
  rw [memSwap_ofBytes (by simp; omega) (by simp; omega), e1, e2, splice_append ha (by omega)]
  have : A ++ (Y ++ (M ++ (Y ++ C))) = (A ++ (Y ++ M)) ++ (Y ++ C) := by simp
  rw [this, splice_append (by simp; omega) (by omega)]
  simp

/-- The checksum of a region with its field zero, stored in the field (40_checksum.md R125). -/
theorem stampChecksum_concat {pre A R K S C : List Byte} {a n k : Nat} (ha : A.length = a) (hk : a + R.length = k)
    (hK : K.length = 2) (hn : R.length + 2 + S.length = n) :
    stampChecksum pre a n k (ofBytes (A ++ (R ++ (K ++ (S ++ C))))) =
      .ok (ofBytes (A ++ (R ++ (fieldBytes 2 (cksum (pre ++ (R ++ (fieldBytes 2 0 ++ S)))) ++ (S ++ C))))) := by
  have e0 : A ++ (R ++ (K ++ (S ++ C))) = (A ++ R) ++ (K ++ (S ++ C)) := by simp
  have e1 : (A ++ R) ++ (beBytes 2 0 ++ (S ++ C)) = A ++ ((R ++ (beBytes 2 0 ++ S)) ++ C) := by simp
  have e2 : A ++ ((R ++ (beBytes 2 0 ++ S)) ++ C) = (A ++ R) ++ (beBytes 2 0 ++ (S ++ C)) := by simp
  simp only [stampChecksum]
  rw [e0, memWrite_concat 0 (by simp; omega) hK]
  simp only
  rw [e1, loadBytes_concat ha (by simp; omega)]
  simp only
  rw [e2, memWrite_concat _ (by simp; omega) (by simp)]
  simp [fieldBytes]

/-! ### The reflectors' steps on a frame of their format -/

/-- The MAC swap of a frame (46_dispatcher.md R222). -/
theorem macSwap_macBytes (mac : MacHdr) (et : Half) (X : List Byte) :
    macSwap (ofBytes (macBytes mac et ++ X)) = .ok (ofBytes (macBytes (swapMac mac) et ++ X)) := by
  have e (x y : MacAddr) : (fieldBytes 6 x ++ fieldBytes 6 y ++ fieldBytes 2 et) ++ X =
      [] ++ (fieldBytes 6 x ++ ([] ++ (fieldBytes 6 y ++ (fieldBytes 2 et ++ X)))) := by simp
  simp only [macSwap, macBytes, swapMac, e]
  exact memSwap_concat rfl (length_fieldBytes 6 _) rfl (length_fieldBytes 6 _)

/-- The ARP rewrite of an ARP frame (42_arp.md R160). -/
theorem arpRewrite_arpBytes (mac : MacHdr) (et : Half) (a : ArpHdr) (X : List Byte) :
    arpRewrite (ofBytes (macBytes mac et ++ (arpBytes a ++ X))) =
      .ok (ofBytes (macBytes mac et ++ (arpBytes (replyArp a) ++ X))) := by
  have e1 (a : ArpHdr) : macBytes mac et ++ (arpBytes a ++ X) =
      (macBytes mac et ++ (fieldBytes 2 a.htype ++ (fieldBytes 2 a.ptype ++ (fieldBytes 1 a.hlen ++ fieldBytes 1 a.plen)))) ++
        (fieldBytes 2 a.oper ++ (((fieldBytes 6 a.senderHw ++ fieldBytes 4 a.senderPa) ++ ([] ++
          ((fieldBytes 6 a.targetHw ++ fieldBytes 4 a.targetPa) ++ X))))) := by
    simp [arpBytes]
  have e2 (P X Y Z : List Byte) : P ++ (X ++ (Y ++ Z)) = (P ++ X) ++ (Y ++ Z) := by simp
  simp only [arpRewrite]
  rw [e1 a, memWrite_concat _ (by simp) (by simp), ok_bind, e2,
    memSwap_concat (by simp) (by simp) (by simp) (by simp), e1 (replyArp a), e2]
  rfl

/-- Steps 3 to 6 of 43_ipv4.md R170 on an IPv4 frame whose options fill its header. -/
theorem ipv4Steps_ipFrame (mac : MacHdr) (ip : IpHdr) (opts X : List Byte) (id : Half)
    (h : opts.length + 20 = ihlBytes ip) :
    ipv4Steps ip id (ofBytes (ipFrame mac ip opts X)) = .ok (ofBytes (ipFrame mac (replyIp id ip opts) opts X)) := by
  have e1 (ip : IpHdr) : ipFrame mac ip opts X =
      (macBytes mac Config.ethertypeIpv4 ++ (beBytes 1 (ip.version.toNat * 16 + ip.ihl.toNat) ++ (fieldBytes 1 ip.tos ++
        (fieldBytes 2 ip.tot ++ (fieldBytes 2 ip.ident ++ (fieldBytes 1 ip.fragFlags ++ (fieldBytes 1 ip.fragLow ++
        (fieldBytes 1 ip.ttl ++ (fieldBytes 1 ip.proto ++ fieldBytes 2 ip.hcs))))))))) ++
        (fieldBytes 4 ip.src ++ ([] ++ (fieldBytes 4 ip.dst ++ (opts ++ X)))) := by
    simp [ipFrame, ipBytes]
  have e2 (ip : IpHdr) : ipFrame mac ip opts X =
      (macBytes mac Config.ethertypeIpv4 ++ (beBytes 1 (ip.version.toNat * 16 + ip.ihl.toNat) ++ (fieldBytes 1 ip.tos ++
        fieldBytes 2 ip.tot))) ++ (fieldBytes 2 ip.ident ++ (fieldBytes 1 ip.fragFlags ++ (fieldBytes 1 ip.fragLow ++
        (fieldBytes 1 ip.ttl ++ (fieldBytes 1 ip.proto ++ (fieldBytes 2 ip.hcs ++
        (fieldBytes 4 ip.src ++ (fieldBytes 4 ip.dst ++ (opts ++ X))))))))) := by
    simp [ipFrame, ipBytes]
  have e3 (ip : IpHdr) : ipFrame mac ip opts X =
      (macBytes mac Config.ethertypeIpv4 ++ (beBytes 1 (ip.version.toNat * 16 + ip.ihl.toNat) ++ (fieldBytes 1 ip.tos ++
        (fieldBytes 2 ip.tot ++ fieldBytes 2 ip.ident)))) ++ (fieldBytes 1 ip.fragFlags ++ (fieldBytes 1 ip.fragLow ++
        (fieldBytes 1 ip.ttl ++ (fieldBytes 1 ip.proto ++ (fieldBytes 2 ip.hcs ++
        (fieldBytes 4 ip.src ++ (fieldBytes 4 ip.dst ++ (opts ++ X)))))))) := by
    simp [ipFrame, ipBytes]
  have e4 (ip : IpHdr) : ipFrame mac ip opts X =
      macBytes mac Config.ethertypeIpv4 ++ ((beBytes 1 (ip.version.toNat * 16 + ip.ihl.toNat) ++ (fieldBytes 1 ip.tos ++
        (fieldBytes 2 ip.tot ++ (fieldBytes 2 ip.ident ++ (fieldBytes 1 ip.fragFlags ++ (fieldBytes 1 ip.fragLow ++
        (fieldBytes 1 ip.ttl ++ fieldBytes 1 ip.proto))))))) ++ (fieldBytes 2 ip.hcs ++
        ((fieldBytes 4 ip.src ++ (fieldBytes 4 ip.dst ++ opts)) ++ X))) := by
    simp [ipFrame, ipBytes]
  have e5 (ip : IpHdr) : ipBytes ip ++ opts =
      (beBytes 1 (ip.version.toNat * 16 + ip.ihl.toNat) ++ (fieldBytes 1 ip.tos ++
        (fieldBytes 2 ip.tot ++ (fieldBytes 2 ip.ident ++ (fieldBytes 1 ip.fragFlags ++ (fieldBytes 1 ip.fragLow ++
        (fieldBytes 1 ip.ttl ++ fieldBytes 1 ip.proto))))))) ++ (fieldBytes 2 ip.hcs ++
        (fieldBytes 4 ip.src ++ (fieldBytes 4 ip.dst ++ opts))) := by
    simp [ipBytes]
  let ip3 : IpHdr := { ip with src := ip.dst, dst := ip.src }
  let ip4 : IpHdr := { ip3 with ident := id }
  let ip5 : IpHdr := { ip4 with fragFlags := 0 }
  have s3 : memSwap (ofBytes (ipFrame mac ip opts X)) 26 30 4 = .ok (ofBytes (ipFrame mac ip3 opts X)) := by
    rw [e1 ip, memSwap_concat (by simp) (by simp) (by simp) (by simp), e1 ip3]
  have s4 : memWrite (ofBytes (ipFrame mac ip3 opts X)) 18 2 id.toNat = .ok (ofBytes (ipFrame mac ip4 opts X)) := by
    rw [e2 ip3, memWrite_concat _ (by simp) (by simp), e2 ip4]; rfl
  have s5 : clearFragFlags (ofBytes (ipFrame mac ip4 opts X)) = .ok (ofBytes (ipFrame mac ip5 opts X)) := by
    rw [clearFragFlags, e3 ip4, memWrite_concat _ (by simp) (by simp), e3 ip5]; rfl
  have s6 : stampChecksum [] 14 (ihlBytes ip) 24 (ofBytes (ipFrame mac ip5 opts X)) =
      .ok (ofBytes (ipFrame mac (replyIp id ip opts) opts X)) := by
    rw [e4 ip5, stampChecksum_concat (by simp) (by simp) (by simp) (by simp; omega), e4 (replyIp id ip opts)]
    have : (replyIp id ip opts).hcs = cksum (ipBytes (rewrittenIp id ip) ++ opts) := rfl
    rw [this, e5 (rewrittenIp id ip)]
    rfl
  simp only [ipv4Steps, s3, s4, s5, s6, ok_bind]

/-- A frame of the IPv4 EtherType up to its transport header, as one prefix of `T` bytes (30_encoding.md R96). -/
def ipPrefix (mac : MacHdr) (ip : IpHdr) (opts : List Byte) : List Byte :=
  macBytes mac Config.ethertypeIpv4 ++ (ipBytes ip ++ opts)

theorem ipFrame_eq_prefix (mac : MacHdr) (ip : IpHdr) (opts X : List Byte) :
    ipFrame mac ip opts X = ipPrefix mac ip opts ++ X := by simp [ipFrame, ipPrefix]

theorem length_ipPrefix {mac : MacHdr} {ip jp : IpHdr} {opts : List Byte} (h : opts.length + 20 = ihlBytes ip) :
    (ipPrefix mac jp opts).length = transportOff ip := by
  simp [ipPrefix, transportOff, Config.macHdrLen]; omega

/-- The ICMP rewrite of an echo request frame (44_icmp.md R190, R191). `jp` is the header after the IPv4 steps. -/
theorem icmpEchoRewrite_ipFrame (mac : MacHdr) (ip jp : IpHdr) (opts : List Byte) (t code : Byte) (ics : Half)
    (rest pad : List Byte) (h : opts.length + 20 = ihlBytes ip) (htl : transportLen ip = 4 + rest.length) :
    icmpEchoRewrite ip (ofBytes (ipFrame mac jp opts (icmpBytes t code ics ++ (rest ++ pad)))) =
      .ok (ofBytes (ipFrame mac jp opts
        (icmpBytes Config.icmpEchoReply code (replyIcs code rest) ++ (rest ++ pad)))) := by
  have hp : (ipPrefix mac jp opts).length = transportOff ip := length_ipPrefix h
  have e1 (t : Byte) (ics : Half) : ipFrame mac jp opts (icmpBytes t code ics ++ (rest ++ pad)) =
      ipPrefix mac jp opts ++ (fieldBytes 1 t ++ (fieldBytes 1 code ++ (fieldBytes 2 ics ++ (rest ++ pad)))) := by
    simp [ipFrame_eq_prefix, icmpBytes]
  have e2 (t : Byte) (ics : Half) : ipFrame mac jp opts (icmpBytes t code ics ++ (rest ++ pad)) =
      ipPrefix mac jp opts ++ ((fieldBytes 1 t ++ fieldBytes 1 code) ++ (fieldBytes 2 ics ++ (rest ++ pad))) := by
    simp [ipFrame_eq_prefix, icmpBytes]
  simp only [icmpEchoRewrite]
  rw [e1 t ics, memWrite_concat _ hp (by simp), ok_bind]
  have e3 : ipPrefix mac jp opts ++ (beBytes 1 Config.icmpEchoReply.toNat ++ (fieldBytes 1 code ++ (fieldBytes 2 ics ++
      (rest ++ pad)))) = ipPrefix mac jp opts ++ ((fieldBytes 1 Config.icmpEchoReply ++ fieldBytes 1 code) ++
      (fieldBytes 2 ics ++ (rest ++ pad))) := by simp [fieldBytes]
  rw [e3, stampChecksum_concat hp (by simp) (by simp) (by simp; omega), e2]
  simp [replyIcs, icmpBytes]

/-- The port swap of a UDP datagram (45_udp.md R202). -/
theorem portSwap_concat {P : List Byte} {t : Nat} (hp : P.length = t) (u : UdpHdr) (X : List Byte) :
    portSwap t (ofBytes (P ++ (udpBytes u ++ X))) =
      .ok (ofBytes (P ++ (udpBytes ⟨u.dport, u.sport, u.ul, u.ucs⟩ ++ X))) := by
  have e (u : UdpHdr) : P ++ (udpBytes u ++ X) = P ++ (fieldBytes 2 u.sport ++ ([] ++ (fieldBytes 2 u.dport ++
      (fieldBytes 2 u.ul ++ (fieldBytes 2 u.ucs ++ X))))) := by simp [udpBytes]
  rw [portSwap, e u, memSwap_concat hp (by simp) (by simp) (by simp), e]

/-- The engine's four writes on a 16-byte payload at `T+8` (41_arith.md R141). -/
theorem arithRespond_concat {P : List Byte} {t : Nat} (hp : P.length = t) (u : UdpHdr) (k a b o r : Word)
    (X : List Byte) :
    arithRespond t r (ofBytes (P ++ (udpBytes u ++ (arithBytes k a b o ++ X)))) =
      .ok (ofBytes (P ++ (udpBytes u ++ (arithBytes Config.kindResponse r 0 0 ++ X)))) := by
  have e0 : P ++ (udpBytes u ++ (arithBytes k a b o ++ X)) =
      (P ++ udpBytes u) ++ (fieldBytes 4 k ++ (fieldBytes 4 a ++ (fieldBytes 4 b ++ (fieldBytes 4 o ++ X)))) := by
    simp [arithBytes]
  have sh (P A B : List Byte) : P ++ (A ++ B) = (P ++ A) ++ B := by simp
  simp only [arithRespond]
  rw [e0, memWrite_concat _ (by simp; omega) (by simp), ok_bind, sh, memWrite_concat _ (by simp; omega) (by simp), ok_bind,
    sh, memWrite_concat _ (by simp; omega) (by simp), ok_bind, sh, memWrite_concat _ (by simp; omega) (by simp)]
  simp [arithBytes, fieldBytes]

/-- The UDP checksum of a datagram in an IPv4 frame (45_udp.md R204). `jp` is the header after the IPv4 steps. -/
theorem udpChecksum_ipFrame (mac : MacHdr) (ip jp : IpHdr) (opts : List Byte) (u : UdpHdr) (payload X : List Byte)
    (h : opts.length + 20 = ihlBytes ip) (hul : udpLen u = 8 + payload.length) :
    udpChecksum (transportOff ip) (udpLen u) (ofBytes (ipFrame mac jp opts (udpBytes u ++ (payload ++ X)))) =
      .ok (ofBytes (ipFrame mac jp opts (udpBytes (UdpHdr.mk u.sport u.dport u.ul
        (cksum (pseudoHeader jp.src jp.dst u.ul ++ (udpBytes ⟨u.sport, u.dport, u.ul, 0⟩ ++ payload)))) ++
          (payload ++ X)))) := by
  have hp : (ipPrefix mac jp opts).length = transportOff ip := length_ipPrefix h
  have eA (Y : List Byte) : ipFrame mac jp opts Y =
      (macBytes mac Config.ethertypeIpv4 ++ (beBytes 1 (jp.version.toNat * 16 + jp.ihl.toNat) ++ (fieldBytes 1 jp.tos ++
        (fieldBytes 2 jp.tot ++ (fieldBytes 2 jp.ident ++ (fieldBytes 1 jp.fragFlags ++ (fieldBytes 1 jp.fragLow ++
        (fieldBytes 1 jp.ttl ++ (fieldBytes 1 jp.proto ++ fieldBytes 2 jp.hcs))))))))) ++
        (fieldBytes 4 jp.src ++ (fieldBytes 4 jp.dst ++ (opts ++ Y))) := by
    simp [ipFrame, ipBytes]
  have eB (Y : List Byte) : ipFrame mac jp opts Y =
      (macBytes mac Config.ethertypeIpv4 ++ (beBytes 1 (jp.version.toNat * 16 + jp.ihl.toNat) ++ (fieldBytes 1 jp.tos ++
        (fieldBytes 2 jp.tot ++ (fieldBytes 2 jp.ident ++ (fieldBytes 1 jp.fragFlags ++ (fieldBytes 1 jp.fragLow ++
        (fieldBytes 1 jp.ttl ++ (fieldBytes 1 jp.proto ++ (fieldBytes 2 jp.hcs ++ fieldBytes 4 jp.src)))))))))) ++
        (fieldBytes 4 jp.dst ++ (opts ++ Y)) := by
    simp [ipFrame, ipBytes]
  have eU (c : Half) : udpBytes ⟨u.sport, u.dport, u.ul, c⟩ ++ (payload ++ X) =
      (fieldBytes 2 u.sport ++ (fieldBytes 2 u.dport ++ fieldBytes 2 u.ul)) ++ (fieldBytes 2 c ++ (payload ++ X)) := by
    simp [udpBytes]
  have hsrc : loadBytes (ofBytes (ipFrame mac jp opts (udpBytes u ++ (payload ++ X)))) 26 4 =
      .ok (fieldBytes 4 jp.src) := by rw [eA, loadBytes_concat (by simp) (by simp)]
  have hdst : loadBytes (ofBytes (ipFrame mac jp opts (udpBytes u ++ (payload ++ X)))) 30 4 =
      .ok (fieldBytes 4 jp.dst) := by rw [eB, loadBytes_concat (by simp) (by simp)]
  have hps : fieldBytes 4 jp.src ++ fieldBytes 4 jp.dst ++ pseudoTail (udpLen u) = pseudoHeader jp.src jp.dst u.ul := by
    simp [pseudoTail, pseudoHeader, udpLen, fieldBytes]
  simp only [udpChecksum, hsrc, hdst, ok_bind, hps]
  have := eU u.ucs
  rw [show (UdpHdr.mk u.sport u.dport u.ul u.ucs) = u from rfl] at this
  rw [ipFrame_eq_prefix, this, stampChecksum_concat hp (by simp) (by simp) (by simp; omega), ipFrame_eq_prefix, eU]
  simp [udpBytes]

/-! ### The ends of a reflection -/

/-- What a drop answers when a reflection is in progress (60_exceptions.md R270). -/
theorem raiseDrop_of_cur {s : State} {r : Reflection} (h : s.cur = some r) (code : DropCode) :
    raiseDrop code s = .next (afterDrop s code) := by
  simp only [raiseDrop, h]; rfl

theorem finishReflect_of_block {s : State} {r : Reflection} {b : StatBlock} (F : List Byte)
    (h : statAt s.stats r.iface r.worker = some b) :
    finishReflect r (ofBytes F) s = .next (afterReflect s r b s.idc F) := by
  simp only [finishReflect, statsUpdate, h, frameLen_ofBytes, bytesOf_ofBytes]; rfl

/-- What a reflection that draws no identifier answers when its rewrite succeeds. -/
theorem reflectWith_of_ok {body : Memory → Except Fault Memory} {s : State} {r : Reflection} {b : StatBlock}
    {F : List Byte} (hc : s.cur = some r) (hb : statAt s.stats r.iface r.worker = some b)
    (h : body r.frame = .ok (ofBytes F)) : reflectWith body s = .next (afterReflect s r b s.idc F) := by
  simp only [reflectWith, hc, h]; exact finishReflect_of_block F hb

/-- What a reflection that draws an identifier answers when its rewrite succeeds. -/
theorem reflectWithId_of_ok {body : Half → Memory → Except Fault Memory} {s : State} {r : Reflection} {b : StatBlock}
    {F : List Byte} (hc : s.cur = some r) (hb : statAt s.stats r.iface r.worker = some b)
    (h : body s.idc r.frame = .ok (ofBytes F)) : reflectWithId body s = .next (afterReflect s r b (s.idc + 1) F) := by
  simp only [reflectWithId, drawIdentifier]
  split
  · next h0 => rw [hc] at h0; cases h0
  · next r' h1 =>
    rw [hc, Option.some.injEq] at h1
    subst h1
    simp only [h]
    exact finishReflect_of_block (s := { s with idc := s.idc + 1 }) F hb

/-- Everything a reflection that answers a next state has done: the rewrite succeeded, the lane has a block, and the state
is the one with the outcome delivered. -/
theorem finishReflect_next {r : Reflection} {m : Memory} {s t : State} (h : finishReflect r m s = .next t) :
    ∃ b, statAt s.stats r.iface r.worker = some b ∧
      t = { s with stats := setStat s.stats r.iface r.worker (bumpBlock b (frameLen m)), cur := none,
                   delivered := .reflect r.iface (bytesOf m) :: s.delivered } := by
  simp only [finishReflect, statsUpdate] at h
  cases hb : statAt s.stats r.iface r.worker with
  | none => simp only [hb] at h; cases h
  | some b =>
    simp only [hb, Outcome.next.injEq] at h
    exact ⟨b, rfl, h ▸ rfl⟩

theorem reflectWith_next {body : Memory → Except Fault Memory} {s t : State} (h : reflectWith body s = .next t) :
    ∃ r m, s.cur = some r ∧ body r.frame = .ok m ∧ finishReflect r m s = .next t := by
  simp only [reflectWith] at h
  split at h
  · cases h
  · next r hr =>
    split at h
    · cases h
    · next m hm => exact ⟨r, m, hr, hm, h⟩

theorem reflectWithId_next {body : Half → Memory → Except Fault Memory} {s t : State}
    (h : reflectWithId body s = .next t) :
    ∃ r m, s.cur = some r ∧ body s.idc r.frame = .ok m ∧ finishReflect r m { s with idc := s.idc + 1 } = .next t := by
  simp only [reflectWithId, drawIdentifier] at h
  split at h
  · cases h
  · next r hr =>
    split at h
    · cases h
    · next m hm => exact ⟨r, m, hr, hm, h⟩

theorem raiseDrop_next {code : DropCode} {s t : State} (h : raiseDrop code s = .next t) :
    (∃ r, s.cur = some r) ∧ t = afterDrop s code := by
  simp only [raiseDrop] at h
  split at h
  · cases h
  · next r hr => exact ⟨⟨r, hr⟩, by simp only [Outcome.next.injEq] at h; exact h ▸ rfl⟩

end Sys2Proof.Machine
end

