-- ==== Sys2Proof/Laws/PerInstr.lean ====
section
/-! SUPPORT. Statements made per instruction, one lemma per constructor of `Instr`. -/

namespace Sys2Proof

/- One lemma after another: many at once ask for more threads than the memory limit gives. -/
set_option Elab.async false

open Machine

namespace Laws.SelectorStands

/-- The frame of a well-formed instruction is of the instruction's class (30_encoding.md R100, R101). -/
def Statement (i : Instr) : Prop := i.wf = true → classify (encode i) = classOf i

theorem drop1 (bytes : List Byte) :
    Statement (.drop1 bytes) := fun h => if_pos (wf_drop1.1 h)

theorem drop2 (mac : MacHdr) (rest : List Byte) :
    Statement (.drop2 mac rest) := by
  intro h
  have := wf_drop2.1 h
  rw [encode, classify_mac, if_pos (by decide), if_pos this, classOf]

theorem arpReply (mac : MacHdr) (arp : ArpHdr) (trailer : List Byte) :
    Statement (.arpReply mac arp trailer) := by
  intro _
  rw [encode, classify_mac, if_pos (by decide), if_neg (by simp), classOf]

theorem drop3 (mac : MacHdr) (rest : List Byte) :
    Statement (.drop3 mac rest) := by
  intro h
  have := wf_drop3.1 h
  rw [encode, classify_mac, if_neg (by decide), if_pos (by decide), classifyIpv4,
    if_pos (by simpa using this), classOf]

theorem drop4 (mac : MacHdr) (ip : IpHdr) (rest : List Byte) :
    Statement (.drop4 mac ip rest) := by
  intro h
  rw [encode, classify_ip (by simp [ipFrame_length]), if_pos (wf_drop4.1 h), classOf]

theorem drop5 (mac : MacHdr) (ip : IpHdr) (rest : List Byte) :
    Statement (.drop5 mac ip rest) := by
  intro h
  have := wf_drop5.1 h
  rw [encode, classify_ip (by simp [ipFrame_length]), if_neg (by omega), if_pos this.2, classOf]

theorem drop6 (mac : MacHdr) (ip : IpHdr) (rest : List Byte) :
    Statement (.drop6 mac ip rest) := by
  intro h
  have := wf_drop6.1 h
  rw [encode, classify_ip (by simp [ipFrame_length]), if_neg (by omega), if_neg (by omega),
    if_pos (by simp only [ipFrame_length, List.length_nil]; omega), classOf]

theorem drop7 (mac : MacHdr) (ip : IpHdr) (opts data pad : List Byte) :
    Statement (.drop7 mac ip opts data pad) := by
  intro h
  obtain ⟨h1, hp, hl⟩ := wf_drop7.1 h
  rw [encode, classify_icmp h1 hp, if_pos hl, classOf]

theorem icmpEcho (mac : MacHdr) (ip : IpHdr) (opts : List Byte) (code : Byte) (ics : Half) (rest pad : List Byte) :
    Statement (.icmpEcho mac ip opts code ics rest pad) := by
  intro h
  obtain ⟨h1, hp⟩ := wf_icmpEcho.1 h
  rw [encode, ← List.append_assoc, classify_icmp (by simpa using h1) hp,
    if_neg (by simp), List.append_assoc, rd_icmpBytes, if_pos (by decide), classOf]

theorem icmpPass (mac : MacHdr) (ip : IpHdr) (opts : List Byte) (itype code : Byte) (ics : Half) (rest pad : List Byte) :
    Statement (.icmpPass mac ip opts itype code ics rest pad) := by
  intro h
  obtain ⟨h1, hp, ht⟩ := wf_icmpPass.1 h
  rw [encode, ← List.append_assoc, classify_icmp (by simpa using h1) hp,
    if_neg (by simp), List.append_assoc, rd_icmpBytes, if_neg ht, classOf]

theorem drop8 (mac : MacHdr) (ip : IpHdr) (opts data pad : List Byte) :
    Statement (.drop8 mac ip opts data pad) := by
  intro h
  obtain ⟨h1, hp, hl⟩ := wf_drop8.1 h
  rw [encode, classify_udp h1 hp, if_pos hl, classOf]

theorem drop9 (mac : MacHdr) (ip : IpHdr) (opts : List Byte) (udp : UdpHdr) (rest pad : List Byte) :
    Statement (.drop9 mac ip opts udp rest pad) := by
  intro h
  obtain ⟨h1, hp, hu⟩ := wf_drop9.1 h
  rw [encode, ← List.append_assoc, classify_udp (by simpa using h1) hp,
    if_neg (by simp), List.append_assoc, rd_udpBytes, if_pos hu, classOf]

theorem drop10 (mac : MacHdr) (ip : IpHdr) (opts : List Byte) (udp : UdpHdr) (rest pad : List Byte) :
    Statement (.drop10 mac ip opts udp rest pad) := by
  intro h
  obtain ⟨h1, hp, h8, hu⟩ := wf_drop10.1 h
  rw [encode, ← List.append_assoc, classify_udp (by simpa using h1) hp,
    if_neg (by simp), List.append_assoc, rd_udpBytes, if_neg (by omega),
    if_pos (by simpa using hu), classOf]

theorem udpSwap (mac : MacHdr) (ip : IpHdr) (opts : List Byte) (udp : UdpHdr) (payload extra pad : List Byte) :
    Statement (.udpSwap mac ip opts udp payload extra pad) := by
  intro h
  obtain ⟨h1, hp, hu, hn⟩ := wf_udpSwap.1 h
  have e : udpBytes udp ++ (payload ++ (extra ++ pad)) = (udpBytes udp ++ (payload ++ extra)) ++ pad := by simp
  have hl : (udpBytes udp ++ (payload ++ extra)).length = 8 + payload.length + extra.length := by
    simp; omega
  rw [encode, e, classify_udp (hl ▸ h1) hp, hl, ← e, rd_udpBytes,
    if_neg (by omega), if_neg (by omega), if_neg (by omega), if_pos hn, classOf]

theorem udpSkip (mac : MacHdr) (ip : IpHdr) (opts : List Byte) (udp : UdpHdr) (kind opA opB oper : Word) (extra pad : List Byte) :
    Statement (.udpSkip mac ip opts udp kind opA opB oper extra pad) := by
  intro h
  obtain ⟨h1, hk⟩ := wf_udpSkip.1 h
  rw [encode, classify_arith h1, if_pos hk, classOf]

theorem udpAdd (mac : MacHdr) (ip : IpHdr) (opts : List Byte) (udp : UdpHdr) (opA opB : Word) (extra pad : List Byte) :
    Statement (.udpAdd mac ip opts udp opA opB extra pad) := by
  intro h
  rw [encode, classify_arith h, if_neg (by decide), if_pos (by decide), classOf]

theorem udpSub (mac : MacHdr) (ip : IpHdr) (opts : List Byte) (udp : UdpHdr) (opA opB : Word) (extra pad : List Byte) :
    Statement (.udpSub mac ip opts udp opA opB extra pad) := by
  intro h
  rw [encode, classify_arith h, if_neg (by decide), if_neg (by decide), if_pos (by decide), classOf]

theorem udpKeep (mac : MacHdr) (ip : IpHdr) (opts : List Byte) (udp : UdpHdr) (opA opB oper : Word) (extra pad : List Byte) :
    Statement (.udpKeep mac ip opts udp opA opB oper extra pad) := by
  intro h
  obtain ⟨h1, hn1, hn2⟩ := wf_udpKeep.1 h
  rw [encode, classify_arith h1, if_neg (by decide), if_neg hn1, if_neg hn2, classOf]

theorem ipPass (mac : MacHdr) (ip : IpHdr) (opts data pad : List Byte) :
    Statement (.ipPass mac ip opts data pad) := by
  intro h
  obtain ⟨h1, hn1, hn2⟩ := wf_ipPass.1 h
  rw [encode, classify_accepted h1, if_neg hn1, if_neg hn2, classOf]

theorem ethPass (mac : MacHdr) (et : Half) (payload : List Byte) :
    Statement (.ethPass mac et payload) := by
  intro h
  obtain ⟨h1, h2⟩ := wf_ethPass.1 h
  rw [encode, classify_mac, if_neg h2, if_neg h1, classOf]

end Laws.SelectorStands

end Sys2Proof
end

