-- ==== Sys2Proof/Laws/Step.lean ====
section
/-! SUPPORT. What each meaning calls, what each action of the host or the reader can do, and one step of a run. -/

namespace Sys2Proof.Machine

open Host (Outcome)

/-! ### The meanings over the shared operations -/

section
variable (mac : MacHdr) (ip : IpHdr) (opts data rest payload extra pad : List Byte) (udp : UdpHdr) (itype code : Byte)
  (ics et : Half) (kind opA opB oper : Word) (arp : ArpHdr) (s : State)

theorem exec_ethPass : exec (.ethPass mac et payload) s = reflectWith macSwap s := rfl

theorem exec_arpReply : exec (.arpReply mac arp data) s = reflectWith arpReflection s := rfl

theorem exec_ipPass : exec (.ipPass mac ip opts data pad) s = reflectWithId (ipv4Reflection ip .ok) s := rfl

theorem exec_icmpEcho :
    exec (.icmpEcho mac ip opts code ics rest pad) s = reflectWithId (ipv4Reflection ip (icmpEchoRewrite ip)) s := rfl

theorem exec_icmpPass :
    exec (.icmpPass mac ip opts itype code ics rest pad) s = reflectWithId (ipv4Reflection ip .ok) s := rfl

theorem exec_udpSwap :
    exec (.udpSwap mac ip opts udp payload extra pad) s = reflectWithId (ipv4Reflection ip (udpRewrite ip udp .ok)) s := rfl

theorem exec_udpSkip :
    exec (.udpSkip mac ip opts udp kind opA opB oper extra pad) s =
      reflectWithId (ipv4Reflection ip (udpRewrite ip udp .ok)) s := rfl

theorem exec_udpAdd :
    exec (.udpAdd mac ip opts udp opA opB extra pad) s =
      reflectWithId (ipv4Reflection ip (udpRewrite ip udp (arithRespond (transportOff ip) (opA + opB)))) s := rfl

theorem exec_udpSub :
    exec (.udpSub mac ip opts udp opA opB extra pad) s =
      reflectWithId (ipv4Reflection ip (udpRewrite ip udp (arithRespond (transportOff ip) (opA - opB)))) s := rfl

theorem exec_udpKeep :
    exec (.udpKeep mac ip opts udp opA opB oper extra pad) s =
      reflectWithId (ipv4Reflection ip (udpRewrite ip udp (arithRespond (transportOff ip) opA))) s := rfl

end

/-! ### The host's actions and the reader's -/

/-- A frame that is taken was presented in keeping with the host's duties, and is put into the buffer unchanged. -/
theorem acceptFrame_ok {i w len : Nat} {F : List Byte} {s t : State} (h : acceptFrame i w len F s = .ok t) :
    len = F.length ∧ Presentable s i w F ∧ t = { s with cur := some ⟨i, w, ofBytes F⟩ } := by
  rw [acceptFrame] at h
  split at h
  · cases h
  split at h
  · cases h
  split at h
  · cases h
  split at h
  · cases h
  split at h
  · cases h
  next h1 h2 h3 h4 h5 =>
    cases h
    simp only [ne_eq, Decidable.not_not] at h4
    exact ⟨h4, ⟨by simpa using h1, by omega, by omega, by omega⟩, rfl⟩

/-- A presented frame that keeps the host's duties is taken. -/
theorem acceptFrame_of_presentable {i w : Nat} {F : List Byte} {s : State} (h : Presentable s i w F) :
    acceptFrame i w F.length F s = .ok { s with cur := some ⟨i, w, ofBytes F⟩ } := by
  obtain ⟨h1, h2, h3, h4⟩ := h
  rw [acceptFrame, if_neg (by simp [h1]), if_neg (by omega), if_neg (by omega), if_neg (by simp), if_neg (by omega)]

theorem statsUpdate_ok {i w L : Nat} {s t : State} (h : statsUpdate i w L s = .ok t) :
    ∃ b, statAt s.stats i w = some b ∧ t = { s with stats := setStat s.stats i w (bumpBlock b L) } := by
  rw [statsUpdate] at h
  split at h
  · cases h
  · next b hb => cases h; exact ⟨b, hb, rfl⟩

theorem beginRead_next {i : Nat} {s t : State} (h : beginRead i s = .next t) :
    ∃ row, s.stats[i]? = some row ∧
      t = { s with reads := s.reads ++ [⟨i, List.range row.length, Snapshot.zero, .start⟩] } := by
  rw [beginRead] at h
  split at h
  · cases h
  next row hr => cases h; exact ⟨row, hr, rfl⟩

/-- Choosing a block reorders what is left of a snapshot and changes nothing else. -/
theorem readerChoose_spec (w : Option Nat) (r : SnapRead) :
    ∃ l, l.Perm r.todo ∧ readerChoose w r = { r with todo := l } := by
  unfold readerChoose
  split
  · split
    · next v _ hv => exact ⟨_, (List.perm_cons_erase hv).symm, rfl⟩
    · exact ⟨_, List.Perm.refl _, rfl⟩
  · exact ⟨_, List.Perm.refl _, rfl⟩

@[simp] theorem readerAdvance_iface (b : StatBlock) (r : SnapRead) : (readerAdvance b r).iface = r.iface := by
  unfold readerAdvance
  split <;> [rfl; rfl; split <;> rfl]

/-- A turn keeps what is left of a snapshot, or takes its first block off. -/
theorem readerTurn_todo (stats : List (List StatBlock)) (r : SnapRead) :
    (readerTurn stats r).todo = r.todo ∨ (readerTurn stats r).todo = r.todo.tail := by
  unfold readerTurn
  split
  · exact .inl rfl
  · next h =>
    split
    · right; rw [h]; rfl
    · unfold readerAdvance
      split
      · exact .inl rfl
      · exact .inl rfl
      · split
        · exact .inr rfl
        · exact .inl rfl

/-- The reader's next step does nothing (no such snapshot), ends one snapshot and delivers its sums, or moves one on. -/
theorem readerStep_next (k : Nat) (w : Option Nat) (s : State) :
    (s.reads[k]? = none ∧ readerStep k w s = .next s) ∨
    ∃ r, s.reads[k]? = some r ∧
      (((readerTurn s.stats (readerChoose w r)).todo = [] ∧ readerStep k w s =
          .next (deliver (.snapshot r.iface (readerTurn s.stats (readerChoose w r)).sum) { s with reads := s.reads.eraseIdx k })) ∨
        ((readerTurn s.stats (readerChoose w r)).todo ≠ [] ∧ readerStep k w s =
          .next { s with reads := s.reads.set k (readerTurn s.stats (readerChoose w r)) })) := by
  rw [readerStep]
  split
  · next hk => exact .inl ⟨hk, rfl⟩
  · next r hk =>
    refine .inr ⟨r, hk, ?_⟩
    dsimp only
    split
    · next h => exact .inl ⟨h, rfl⟩
    · next h => exact .inr ⟨h, rfl⟩

theorem setParams_next {p : Params} {s t : State} (h : setParams p s = .next t) :
    1 ≤ p.nIf ∧ 1 ≤ p.workers ∧ t = { s with params := p, ready := false } := by
  rw [setParams] at h
  split at h
  · cases h
  next h1 => cases h; exact ⟨by omega, by omega, rfl⟩

/-! ### Steps and runs -/

theorem step_of_cur {s : State} {r : Reflection} (h : s.cur = some r) : step s = exec (decode (bytesOf r.frame)) s := by
  rw [step, h]
  rfl

theorem step_of_event {s : State} {e : Event} {rest : List Event} (hc : s.cur = none) (he : s.events = e :: rest) :
    step s = runEvent e { s with events := rest } := by
  rw [step, hc]
  simp only [he]

theorem run_succ (M : Host.Core) (k : Nat) (s t : M.State) (h : M.step s = .next t) : M.run (k + 1) s = M.run k t := by
  simp only [Host.Core.run, h]

end Sys2Proof.Machine
end

