-- ==== Sys2Proof/Tests/Slice0.lean ====
section
/-! SUPPORT. Tests: the vectors of spec/95_test_vectors.md and spec/96_family_vectors.md, ill-formed terms, and for every statement
with hypotheses a concrete state and operands that meet them. Every expected frame is the spec's, none the model's. -/

namespace Sys2Proof.Tests

/- One theorem after another: many kernel evaluations at once ask for more threads than the memory limit gives. -/
set_option Elab.async false

open Sys2Proof Sys2Proof.Machine Host

/-! ### Helpers -/

/-- The machine right after reset, but for `IDC`, with `F` presented on worker 0 of interface 0. -/
def presented (idc : Half) (F : List Byte) : State :=
  { State.reset with idc := idc, events := [.frameIn 0 0 F.length F] }

/-- What a step shows: what was delivered, `IDC`, and the block of lane (0, 0). -/
def observe : Outcome State Fault Refusal → Option (List Delivery × Half × Option StatBlock)
  | .next s => some (s.delivered, s.idc, statAt s.stats 0 0)
  | _ => none

/-- Whether an outcome is a next state. -/
def isNext : Outcome State Fault Refusal → Bool
  | .next _ => true
  | _ => false

theorem exists_next {o : Outcome State Fault Refusal} (h : isNext o = true) : ∃ t, o = .next t := by
  cases o with
  | next t => exact ⟨t, rfl⟩
  | fault f => cases h
  | refused r => cases h

/-- The reflection of the frame of `i` on lane (0, 0). -/
def lane (i : Instr) : Reflection := ⟨0, 0, ofBytes (encode i)⟩

/-- The machine with the frame of `i` in its buffer. -/
def loaded (idc : Half) (i : Instr) : State := { State.reset with idc := idc, cur := some (lane i) }

theorem loaded_of_wf (idc : Half) {i : Instr} (h : i.wf = true) :
    Loaded (loaded idc i) i (lane i) StatBlock.zero := ⟨rfl, rfl, rfl, h⟩

/-- Two workers on one interface, after reset. -/
def twoLanes : State := applyReset { State.reset with params := ⟨1, 2, 1518⟩ }

/-! ### Frames of 95_test_vectors.md and 96_family_vectors.md, and the instructions they stand for (read by hand from 30_encoding.md
R82 to R92) -/

/-- DR1. -/
def vecDR1 : List Byte :=
    [2, 0, 0, 0, 0, 1, 2, 0, 0, 0, 0, 2, 8]

/-- DR2. -/
def vecDR2 : List Byte :=
    [0xff, 0xff, 0xff, 0xff, 0xff, 0xff, 2, 0, 0, 0, 0, 2, 8, 6, 0, 1, 8, 0, 6, 4, 0, 1, 2, 0, 0, 0, 0, 2, 0xc0,
     0xa8, 0, 1, 0, 0, 0, 0, 0, 0, 0xc0, 0xa8, 0]

/-- AR3. -/
def vecAR3 : List Byte :=
    [2, 0, 0, 0, 0, 1, 2, 0, 0, 0, 0, 2, 8, 6, 0, 6, 0x86, 0xdd, 8, 0x10, 0x12, 0x34, 0xa0, 0xa1, 0xa2, 0xa3, 0xa4,
     0xa5, 0xa6, 0xa7, 0xa8, 0xa9, 0xb0, 0xb1, 0xb2, 0xb3, 0xb4, 0xb5, 0xb6, 0xb7, 0xb8, 0xb9]

/-- AR3, the output frame. -/
def outAR3 : List Byte :=
    [2, 0, 0, 0, 0, 2, 2, 0, 0, 0, 0, 1, 8, 6, 0, 6, 0x86, 0xdd, 8, 0x10, 0, 2, 0xb0, 0xb1, 0xb2, 0xb3, 0xb4, 0xb5,
     0xb6, 0xb7, 0xb8, 0xb9, 0xa0, 0xa1, 0xa2, 0xa3, 0xa4, 0xa5, 0xa6, 0xa7, 0xa8, 0xa9]

/-- DR3. -/
def vecDR3 : List Byte :=
    [2, 0, 0, 0, 0, 1, 2, 0, 0, 0, 0, 2, 8, 0, 0x45, 0, 0, 0x20, 0x12, 0x34, 0x40, 0, 0x40, 1, 0xa7, 0x55, 0xc0,
     0xa8, 0, 1, 0xc0, 0xa8, 0]

/-- DR4. -/
def vecDR4 : List Byte :=
    [2, 0, 0, 0, 0, 1, 2, 0, 0, 0, 0, 2, 8, 0, 0x44, 0, 0, 0x20, 0x12, 0x34, 0x40, 0, 0x40, 1, 0xa7, 0x55, 0xc0,
     0xa8, 0, 1, 0xc0, 0xa8, 0, 2, 8, 0, 0x33, 0x37, 0, 1, 0, 1, 0x61, 0x62, 0x63, 0x64]

/-- DR5a. -/
def vecDR5a : List Byte :=
    [2, 0, 0, 0, 0, 1, 2, 0, 0, 0, 0, 2, 8, 0, 0x4f, 0, 0, 0x20, 0x12, 0x34, 0x40, 0, 0x40, 1, 0xa7, 0x55, 0xc0,
     0xa8, 0, 1, 0xc0, 0xa8, 0, 2, 8, 0, 0x33, 0x37, 0, 1, 0, 1, 0x61, 0x62, 0x63, 0x64]

/-- DR6. -/
def vecDR6 : List Byte :=
    [2, 0, 0, 0, 0, 1, 2, 0, 0, 0, 0, 2, 8, 0, 0x45, 0, 0, 0x21, 0x12, 0x34, 0x40, 0, 0x40, 1, 0xa7, 0x55, 0xc0,
     0xa8, 0, 1, 0xc0, 0xa8, 0, 2, 8, 0, 0x33, 0x37, 0, 1, 0, 1, 0x61, 0x62, 0x63, 0x64]

/-- DR7. -/
def vecDR7 : List Byte :=
    [2, 0, 0, 0, 0, 1, 2, 0, 0, 0, 0, 2, 8, 0, 0x45, 0, 0, 0x17, 0x12, 0x34, 0x40, 0, 0x40, 1, 0xa7, 0x5e, 0xc0,
     0xa8, 0, 1, 0xc0, 0xa8, 0, 2, 8, 0, 0]

/-- IC1. -/
def vecIC1 : List Byte :=
    [2, 0, 0, 0, 0, 1, 2, 0, 0, 0, 0, 2, 8, 0, 0x45, 0, 0, 0x1f, 0, 4, 0x40, 0, 0x40, 1, 0xe2, 0xaf, 0xac, 0x10, 0,
     9, 0xac, 0x10, 0, 1, 8, 0, 0x33, 0x98, 0, 2, 0, 3, 0x61, 0x62, 0x63]

/-- IC1, the output frame. -/
def outIC1 : List Byte :=
    [2, 0, 0, 0, 0, 2, 2, 0, 0, 0, 0, 1, 8, 0, 0x45, 0, 0, 0x1f, 1, 0, 0, 0, 0x40, 1, 0x21, 0xb4, 0xac, 0x10, 0, 1,
     0xac, 0x10, 0, 9, 0, 0, 0x3b, 0x98, 0, 2, 0, 3, 0x61, 0x62, 0x63]

/-- IC2. -/
def vecIC2 : List Byte :=
    [2, 0, 0, 0, 0, 1, 2, 0, 0, 0, 0, 2, 8, 0, 0x45, 0, 0, 0x1c, 0, 3, 0x40, 0, 0x40, 1, 0xe2, 0xb3, 0xac, 0x10, 0,
     9, 0xac, 0x10, 0, 1, 3, 1, 0xfc, 0xfe, 0, 0, 0, 0]

/-- IC2, the output frame. -/
def outIC2 : List Byte :=
    [2, 0, 0, 0, 0, 2, 2, 0, 0, 0, 0, 1, 8, 0, 0x45, 0, 0, 0x1c, 1, 1, 0, 0, 0x40, 1, 0x21, 0xb6, 0xac, 0x10, 0, 1,
     0xac, 0x10, 0, 9, 3, 1, 0xfc, 0xfe, 0, 0, 0, 0]

/-- DR8. -/
def vecDR8 : List Byte :=
    [2, 0, 0, 0, 0, 1, 2, 0, 0, 0, 0, 2, 8, 0, 0x45, 0, 0, 0x1b, 0x12, 0x34, 0x40, 0, 0x40, 0x11, 0xa7, 0x4a, 0xc0,
     0xa8, 0, 1, 0xc0, 0xa8, 0, 2, 0, 0, 0, 0, 0, 0, 0]

/-- DR9. -/
def vecDR9 : List Byte :=
    [2, 0, 0, 0, 0, 1, 2, 0, 0, 0, 0, 2, 8, 0, 0x45, 0, 0, 0x2c, 0xbe, 0xef, 0, 0, 0x40, 0x11, 0xa7, 0xcf, 0x0a, 0,
     0, 1, 0x0a, 0, 0, 2, 0x13, 0x88, 0, 7, 0, 7, 0xd8, 0x20, 0, 0, 0, 1, 0, 0, 0, 7, 0, 0, 0, 3, 0, 0, 0, 1]

/-- DR10. -/
def vecDR10 : List Byte :=
    [2, 0, 0, 0, 0, 1, 2, 0, 0, 0, 0, 2, 8, 0, 0x45, 0, 0, 0x2c, 0xbe, 0xef, 0, 0, 0x40, 0x11, 0xa7, 0xcf, 0x0a, 0,
     0, 1, 0x0a, 0, 0, 2, 0x13, 0x88, 0, 7, 0, 0x19, 0xd8, 0x20, 0, 0, 0, 1, 0, 0, 0, 7, 0, 0, 0, 3, 0, 0, 0, 1]

/-- UD6. -/
def vecUD6 : List Byte :=
    [2, 0, 0, 0, 0, 1, 2, 0, 0, 0, 0, 2, 8, 0, 0x45, 0, 0, 0x1f, 0, 1, 0x20, 0, 0x40, 0x11, 2, 0xa3, 0xac, 0x10, 0,
     9, 0xac, 0x10, 0, 1, 4, 0xd2, 0x10, 0xe1, 0, 0x0b, 0x9f, 0x80, 0x78, 0x79, 0x7a, 0xaa, 0xbb, 0xcc]

/-- UD6, the output frame. -/
def outUD6 : List Byte :=
    [2, 0, 0, 0, 0, 2, 2, 0, 0, 0, 0, 1, 8, 0, 0x45, 0, 0, 0x1f, 0, 0x15, 0, 0, 0x40, 0x11, 0x22, 0x8f, 0xac, 0x10,
     0, 1, 0xac, 0x10, 0, 9, 0x10, 0xe1, 4, 0xd2, 0, 0x0b, 0x9f, 0x80, 0x78, 0x79, 0x7a, 0xaa, 0xbb, 0xcc]

/-- UD4. -/
def vecUD4 : List Byte :=
    [2, 0, 0, 0, 0, 1, 2, 0, 0, 0, 0, 2, 8, 0, 0x45, 0, 0, 0x2c, 0xbe, 0xef, 0, 0, 0x40, 0x11, 0xa7, 0xcf, 0x0a, 0,
     0, 1, 0x0a, 0, 0, 2, 0x13, 0x88, 0, 7, 0, 0x18, 0xd8, 0x1f, 0, 0, 0, 2, 0, 0, 0, 7, 0, 0, 0, 3, 0, 0, 0, 1]

/-- UD4, the output frame. -/
def outUD4 : List Byte :=
    [2, 0, 0, 0, 0, 2, 2, 0, 0, 0, 0, 1, 8, 0, 0x45, 0, 0, 0x2c, 0, 0x13, 0, 0, 0x40, 0x11, 0x66, 0xac, 0x0a, 0, 0,
     2, 0x0a, 0, 0, 1, 0, 7, 0x13, 0x88, 0, 0x18, 0xd8, 0x1f, 0, 0, 0, 2, 0, 0, 0, 7, 0, 0, 0, 3, 0, 0, 0, 1]

/-- UD9. -/
def vecUD9 : List Byte :=
    [2, 0, 0, 0, 0, 1, 2, 0, 0, 0, 0, 2, 8, 0, 0x45, 0, 0, 0x30, 0xbe, 0xef, 0, 0, 0x40, 0x11, 0xa7, 0xcb, 0x0a, 0,
     0, 1, 0x0a, 0, 0, 2, 0x13, 0x88, 0, 7, 0, 0x18, 0xd8, 0x20, 0, 0, 0, 1, 0, 0, 0, 7, 0, 0, 0, 3, 0, 0, 0, 1,
     0xde, 0xad, 0xbe, 0xef]

/-- UD9, the output frame. -/
def outUD9 : List Byte :=
    [2, 0, 0, 0, 0, 2, 2, 0, 0, 0, 0, 1, 8, 0, 0x45, 0, 0, 0x30, 0, 0x18, 0, 0, 0x40, 0x11, 0x66, 0xa3, 0x0a, 0, 0,
     2, 0x0a, 0, 0, 1, 0, 7, 0x13, 0x88, 0, 0x18, 0xd8, 0x20, 0, 0, 0, 2, 0, 0, 0, 0x0a, 0, 0, 0, 0, 0, 0, 0, 0,
     0xde, 0xad, 0xbe, 0xef]

/-- UD2. -/
def vecUD2 : List Byte :=
    [2, 0, 0, 0, 0, 1, 2, 0, 0, 0, 0, 2, 8, 0, 0x45, 0, 0, 0x2c, 0xbe, 0xef, 0, 0, 0x40, 0x11, 0xa7, 0xcf, 0x0a, 0,
     0, 1, 0x0a, 0, 0, 2, 0x13, 0x88, 0, 7, 0, 0x18, 0xd8, 0x1f, 0, 0, 0, 1, 0, 0, 0, 7, 0, 0, 0, 3, 0, 0, 0, 2]

/-- UD2, the output frame. -/
def outUD2 : List Byte :=
    [2, 0, 0, 0, 0, 2, 2, 0, 0, 0, 0, 1, 8, 0, 0x45, 0, 0, 0x2c, 0, 0x11, 0, 0, 0x40, 0x11, 0x66, 0xae, 0x0a, 0, 0,
     2, 0x0a, 0, 0, 1, 0, 7, 0x13, 0x88, 0, 0x18, 0xd8, 0x26, 0, 0, 0, 2, 0, 0, 0, 4, 0, 0, 0, 0, 0, 0, 0, 0]

/-- UD3. -/
def vecUD3 : List Byte :=
    [2, 0, 0, 0, 0, 1, 2, 0, 0, 0, 0, 2, 8, 0, 0x45, 0, 0, 0x2c, 0xbe, 0xef, 0, 0, 0x40, 0x11, 0xa7, 0xcf, 0x0a, 0,
     0, 1, 0x0a, 0, 0, 2, 0x13, 0x88, 0, 7, 0, 0x18, 0xd8, 0x18, 0, 0, 0, 1, 0, 0, 0, 7, 0, 0, 0, 3, 0, 0, 0, 9]

/-- UD3, the output frame. -/
def outUD3 : List Byte :=
    [2, 0, 0, 0, 0, 2, 2, 0, 0, 0, 0, 1, 8, 0, 0x45, 0, 0, 0x2c, 0, 0x12, 0, 0, 0x40, 0x11, 0x66, 0xad, 0x0a, 0, 0,
     2, 0x0a, 0, 0, 1, 0, 7, 0x13, 0x88, 0, 0x18, 0xd8, 0x23, 0, 0, 0, 2, 0, 0, 0, 7, 0, 0, 0, 0, 0, 0, 0, 0]

/-- IP1. -/
def vecIP1 : List Byte :=
    [2, 0, 0, 0, 0, 1, 2, 0, 0, 0, 0, 2, 8, 0, 0x46, 0, 0, 0x1c, 0, 2, 0x40, 0, 0x40, 6, 0xdf, 0xae, 0xac, 0x10, 0,
     9, 0xac, 0x10, 0, 1, 1, 1, 1, 0, 0xde, 0xad, 0xbe, 0xef]

/-- IP1, the output frame. -/
def outIP1 : List Byte :=
    [2, 0, 0, 0, 0, 2, 2, 0, 0, 0, 0, 1, 8, 0, 0x46, 0, 0, 0x1c, 0, 0xff, 0, 0, 0x40, 6, 0x1e, 0xb2, 0xac, 0x10, 0,
     1, 0xac, 0x10, 0, 9, 1, 1, 1, 0, 0xde, 0xad, 0xbe, 0xef]

/-- ET2. -/
def vecET2 : List Byte :=
    [1, 0, 0x5e, 0, 0, 0xfb, 2, 0, 0, 0, 0, 2, 0x81, 0, 0, 0x64, 8, 0, 0x45, 0]

/-- ET2, the output frame. -/
def outET2 : List Byte :=
    [2, 0, 0, 0, 0, 2, 1, 0, 0x5e, 0, 0, 0xfb, 0x81, 0, 0, 0x64, 8, 0, 0x45, 0]

/-- IC5. -/
def vecIC5 : List Byte :=
    [2, 0, 0, 0, 0, 1, 2, 0, 0, 0, 0, 2, 8, 0, 0x45, 0, 0, 0x1e, 0, 9, 0x40, 0, 0x40, 1, 0xe2, 0xab, 0xac, 0x10, 0,
     9, 0xac, 0x10, 0, 1, 8, 0, 0x96, 0x9b, 0, 1, 0, 1, 0x61, 0x62, 0xee, 0xee, 0xee, 0xee]

/-- IC5, the output frame. -/
def outIC5 : List Byte :=
    [2, 0, 0, 0, 0, 2, 2, 0, 0, 0, 0, 1, 8, 0, 0x45, 0, 0, 0x1e, 1, 4, 0, 0, 0x40, 1, 0x21, 0xb1, 0xac, 0x10, 0, 1,
     0xac, 0x10, 0, 9, 0, 0, 0x9e, 0x9b, 0, 1, 0, 1, 0x61, 0x62, 0xee, 0xee, 0xee, 0xee]

/-- UD11. -/
def vecUD11 : List Byte :=
    [2, 0, 0, 0, 0, 1, 2, 0, 0, 0, 0, 2, 8, 0, 0x45, 0, 0, 0x1e, 0, 5, 0, 0, 0x40, 0x11, 0x66, 0xc8, 0x0a, 0, 0, 1,
     0x0a, 0, 0, 2, 0, 9, 0, 0x0a, 0, 0x0a, 0, 0, 0xeb, 0xc4]

/-- UD11, the output frame. -/
def outUD11 : List Byte :=
    [2, 0, 0, 0, 0, 2, 2, 0, 0, 0, 0, 1, 8, 0, 0x45, 0, 0, 0x1e, 0, 0x1a, 0, 0, 0x40, 0x11, 0x66, 0xb3, 0x0a, 0, 0,
     2, 0x0a, 0, 0, 1, 0, 0x0a, 0, 9, 0, 0x0a, 0, 0, 0xeb, 0xc4]

/-- UD12. -/
def vecUD12 : List Byte :=
    [2, 0, 0, 0, 0, 1, 2, 0, 0, 0, 0, 2, 8, 0, 0x45, 0, 0, 0x2c, 0xbe, 0xef, 0, 0, 0x40, 0x11, 0xa7, 0xcf, 0x0a, 0,
     0, 1, 0x0a, 0, 0, 2, 0, 7, 0, 7, 0, 0x18, 0xeb, 0xa9, 0, 0, 0, 1, 0xff, 0xff, 0xff, 0xff, 0, 0, 0, 2, 0, 0, 0, 1]

/-- UD12, the output frame. -/
def outUD12 : List Byte :=
    [2, 0, 0, 0, 0, 2, 2, 0, 0, 0, 0, 1, 8, 0, 0x45, 0, 0, 0x2c, 0, 0x1b, 0, 0, 0x40, 0x11, 0x66, 0xa4, 0x0a, 0, 0,
     2, 0x0a, 0, 0, 1, 0, 7, 0, 7, 0, 0x18, 0xeb, 0xaa, 0, 0, 0, 2, 0, 0, 0, 1, 0, 0, 0, 0, 0, 0, 0, 0]

/-- IP2. -/
def vecIP2 : List Byte :=
    [2, 0, 0, 0, 0, 1, 2, 0, 0, 0, 0, 2, 8, 0, 0x45, 0xb8, 0, 0x16, 0x77, 0x77, 0x3f, 0xfe, 1, 0x2f, 0xa9, 0x61,
     0xac, 0x10, 0, 9, 0xac, 0x10, 0, 1, 0xaa, 0xbb]

/-- IP2, the output frame. -/
def outIP2 : List Byte :=
    [2, 0, 0, 0, 0, 2, 2, 0, 0, 0, 0, 1, 8, 0, 0x45, 0xb8, 0, 0x16, 1, 0, 0, 0xfe, 1, 0x2f, 0x5e, 0xd9, 0xac, 0x10,
     0, 1, 0xac, 0x10, 0, 9, 0xaa, 0xbb]

/-- AR2. -/
def vecAR2 : List Byte :=
    [2, 0, 0, 0, 0, 1, 2, 0, 0, 0, 0, 2, 8, 6, 0, 1, 8, 0, 6, 4, 0, 2, 0x0a, 0x0b, 0x0c, 0x0d, 0x0e, 0x0f, 0xc0,
     0xa8, 0, 1, 0x1a, 0x1b, 0x1c, 0x1d, 0x1e, 0x1f, 0xc0, 0xa8, 0, 2, 0, 0, 0, 0, 0, 0, 0, 0, 0, 0, 0, 0, 0, 0, 0,
     0, 0, 0]

/-- AR2, the output frame. -/
def outAR2 : List Byte :=
    [2, 0, 0, 0, 0, 2, 2, 0, 0, 0, 0, 1, 8, 6, 0, 1, 8, 0, 6, 4, 0, 2, 0x1a, 0x1b, 0x1c, 0x1d, 0x1e, 0x1f, 0xc0,
     0xa8, 0, 2, 0x0a, 0x0b, 0x0c, 0x0d, 0x0e, 0x0f, 0xc0, 0xa8, 0, 1, 0, 0, 0, 0, 0, 0, 0, 0, 0, 0, 0, 0, 0, 0, 0,
     0, 0, 0]

/-- The instruction of DR1. -/
def insDR1 : Instr :=
    .drop1 [2, 0, 0, 0, 0, 1, 2, 0, 0, 0, 0, 2, 8]

/-- The instruction of DR2. -/
def insDR2 : Instr :=
    .drop2 ⟨0xffffffffffff, 0x20000000002⟩ [0, 1, 8, 0, 6, 4, 0, 1, 2, 0, 0, 0, 0, 2, 0xc0, 0xa8, 0, 1, 0, 0, 0, 0, 0, 0, 0xc0, 0xa8, 0]

/-- The instruction of AR3. -/
def insAR3 : Instr :=
    .arpReply ⟨0x20000000001, 0x20000000002⟩ ⟨6, 0x86dd, 8, 0x10, 0x1234, 0xa0a1a2a3a4a5, 0xa6a7a8a9, 0xb0b1b2b3b4b5, 0xb6b7b8b9⟩ []

/-- The instruction of DR3. -/
def insDR3 : Instr :=
    .drop3 ⟨0x20000000001, 0x20000000002⟩ [0x45, 0, 0, 0x20, 0x12, 0x34, 0x40, 0, 0x40, 1, 0xa7, 0x55, 0xc0, 0xa8, 0, 1, 0xc0, 0xa8, 0]

/-- The instruction of DR4. -/
def insDR4 : Instr :=
    .drop4 ⟨0x20000000001, 0x20000000002⟩
      ⟨4, 4, 0, 0x20, 0x1234, 0x40, 0, 0x40, 1, 0xa755, 0xc0a80001, 0xc0a80002⟩
      [8, 0, 0x33, 0x37, 0, 1, 0, 1, 0x61, 0x62, 0x63, 0x64]

/-- The instruction of DR5a. -/
def insDR5a : Instr :=
    .drop5 ⟨0x20000000001, 0x20000000002⟩
      ⟨4, 0xf, 0, 0x20, 0x1234, 0x40, 0, 0x40, 1, 0xa755, 0xc0a80001, 0xc0a80002⟩
      [8, 0, 0x33, 0x37, 0, 1, 0, 1, 0x61, 0x62, 0x63, 0x64]

/-- The instruction of DR6. -/
def insDR6 : Instr :=
    .drop6 ⟨0x20000000001, 0x20000000002⟩
      ⟨4, 5, 0, 0x21, 0x1234, 0x40, 0, 0x40, 1, 0xa755, 0xc0a80001, 0xc0a80002⟩
      [8, 0, 0x33, 0x37, 0, 1, 0, 1, 0x61, 0x62, 0x63, 0x64]

/-- The instruction of DR7. -/
def insDR7 : Instr :=
    .drop7 ⟨0x20000000001, 0x20000000002⟩
      ⟨4, 5, 0, 0x17, 0x1234, 0x40, 0, 0x40, 1, 0xa75e, 0xc0a80001, 0xc0a80002⟩
      [] [8, 0, 0] []

/-- The instruction of IC1. -/
def insIC1 : Instr :=
    .icmpEcho ⟨0x20000000001, 0x20000000002⟩
      ⟨4, 5, 0, 0x1f, 4, 0x40, 0, 0x40, 1, 0xe2af, 0xac100009, 0xac100001⟩
      [] 0 0x3398 [0, 2, 0, 3, 0x61, 0x62, 0x63] []

/-- The instruction of IC2. -/
def insIC2 : Instr :=
    .icmpPass ⟨0x20000000001, 0x20000000002⟩
      ⟨4, 5, 0, 0x1c, 3, 0x40, 0, 0x40, 1, 0xe2b3, 0xac100009, 0xac100001⟩
      [] 3 1 0xfcfe [0, 0, 0, 0] []

/-- The instruction of DR8. -/
def insDR8 : Instr :=
    .drop8 ⟨0x20000000001, 0x20000000002⟩
      ⟨4, 5, 0, 0x1b, 0x1234, 0x40, 0, 0x40, 0x11, 0xa74a, 0xc0a80001, 0xc0a80002⟩
      [] [0, 0, 0, 0, 0, 0, 0] []

/-- The instruction of DR9. -/
def insDR9 : Instr :=
    .drop9 ⟨0x20000000001, 0x20000000002⟩
      ⟨4, 5, 0, 0x2c, 0xbeef, 0, 0, 0x40, 0x11, 0xa7cf, 0xa000001, 0xa000002⟩
      [] ⟨0x1388, 7, 7, 0xd820⟩ [0, 0, 0, 1, 0, 0, 0, 7, 0, 0, 0, 3, 0, 0, 0, 1] []

/-- The instruction of DR10. -/
def insDR10 : Instr :=
    .drop10 ⟨0x20000000001, 0x20000000002⟩
      ⟨4, 5, 0, 0x2c, 0xbeef, 0, 0, 0x40, 0x11, 0xa7cf, 0xa000001, 0xa000002⟩
      [] ⟨0x1388, 7, 0x19, 0xd820⟩ [0, 0, 0, 1, 0, 0, 0, 7, 0, 0, 0, 3, 0, 0, 0, 1] []

/-- The instruction of UD6. -/
def insUD6 : Instr :=
    .udpSwap ⟨0x20000000001, 0x20000000002⟩
      ⟨4, 5, 0, 0x1f, 1, 0x20, 0, 0x40, 0x11, 0x2a3, 0xac100009, 0xac100001⟩
      [] ⟨0x4d2, 0x10e1, 0xb, 0x9f80⟩ [0x78, 0x79, 0x7a] [] [0xaa, 0xbb, 0xcc]

/-- The instruction of UD4. -/
def insUD4 : Instr :=
    .udpSkip ⟨0x20000000001, 0x20000000002⟩
      ⟨4, 5, 0, 0x2c, 0xbeef, 0, 0, 0x40, 0x11, 0xa7cf, 0xa000001, 0xa000002⟩
      [] ⟨0x1388, 7, 0x18, 0xd81f⟩ 2 7 3 1 [] []

/-- The instruction of UD9. -/
def insUD9 : Instr :=
    .udpAdd ⟨0x20000000001, 0x20000000002⟩
      ⟨4, 5, 0, 0x30, 0xbeef, 0, 0, 0x40, 0x11, 0xa7cb, 0xa000001, 0xa000002⟩
      [] ⟨0x1388, 7, 0x18, 0xd820⟩ 7 3 [0xde, 0xad, 0xbe, 0xef] []

/-- The instruction of UD2. -/
def insUD2 : Instr :=
    .udpSub ⟨0x20000000001, 0x20000000002⟩
      ⟨4, 5, 0, 0x2c, 0xbeef, 0, 0, 0x40, 0x11, 0xa7cf, 0xa000001, 0xa000002⟩
      [] ⟨0x1388, 7, 0x18, 0xd81f⟩ 7 3 [] []

/-- The instruction of UD3. -/
def insUD3 : Instr :=
    .udpKeep ⟨0x20000000001, 0x20000000002⟩
      ⟨4, 5, 0, 0x2c, 0xbeef, 0, 0, 0x40, 0x11, 0xa7cf, 0xa000001, 0xa000002⟩
      [] ⟨0x1388, 7, 0x18, 0xd818⟩ 7 3 9 [] []

/-- The instruction of IP1. -/
def insIP1 : Instr :=
    .ipPass ⟨0x20000000001, 0x20000000002⟩
      ⟨4, 6, 0, 0x1c, 2, 0x40, 0, 0x40, 6, 0xdfae, 0xac100009, 0xac100001⟩
      [1, 1, 1, 0] [0xde, 0xad, 0xbe, 0xef] []

/-- The instruction of ET2. -/
def insET2 : Instr :=
    .ethPass ⟨0x1005e0000fb, 0x20000000002⟩ 0x8100 [0, 0x64, 8, 0, 0x45, 0]

/-- One instruction of each constructor. -/
def samples : List Instr :=
    [insDR1, insDR2, insAR3, insDR3, insDR4, insDR5a, insDR6, insDR7, insIC1, insIC2, insDR8, insDR9, insDR10, insUD6, insUD4, insUD9, insUD2, insUD3, insIP1, insET2]

/-! ### Decoding: each vector to its instruction and back -/

theorem test_decode_drop1 : decode vecDR1 = insDR1 ∧ encode insDR1 = vecDR1 := by decide +kernel

theorem test_decode_drop2 : decode vecDR2 = insDR2 ∧ encode insDR2 = vecDR2 := by decide +kernel

theorem test_decode_arpReply : decode vecAR3 = insAR3 ∧ encode insAR3 = vecAR3 := by decide +kernel

theorem test_decode_drop3 : decode vecDR3 = insDR3 ∧ encode insDR3 = vecDR3 := by decide +kernel

theorem test_decode_drop4 : decode vecDR4 = insDR4 ∧ encode insDR4 = vecDR4 := by decide +kernel

theorem test_decode_drop5 : decode vecDR5a = insDR5a ∧ encode insDR5a = vecDR5a := by decide +kernel

theorem test_decode_drop6 : decode vecDR6 = insDR6 ∧ encode insDR6 = vecDR6 := by decide +kernel

theorem test_decode_drop7 : decode vecDR7 = insDR7 ∧ encode insDR7 = vecDR7 := by decide +kernel

theorem test_decode_icmpEcho : decode vecIC1 = insIC1 ∧ encode insIC1 = vecIC1 := by decide +kernel

theorem test_decode_icmpPass : decode vecIC2 = insIC2 ∧ encode insIC2 = vecIC2 := by decide +kernel

theorem test_decode_drop8 : decode vecDR8 = insDR8 ∧ encode insDR8 = vecDR8 := by decide +kernel

theorem test_decode_drop9 : decode vecDR9 = insDR9 ∧ encode insDR9 = vecDR9 := by decide +kernel

theorem test_decode_drop10 : decode vecDR10 = insDR10 ∧ encode insDR10 = vecDR10 := by decide +kernel

theorem test_decode_udpSwap : decode vecUD6 = insUD6 ∧ encode insUD6 = vecUD6 := by decide +kernel

theorem test_decode_udpSkip : decode vecUD4 = insUD4 ∧ encode insUD4 = vecUD4 := by decide +kernel

theorem test_decode_udpAdd : decode vecUD9 = insUD9 ∧ encode insUD9 = vecUD9 := by decide +kernel

theorem test_decode_udpSub : decode vecUD2 = insUD2 ∧ encode insUD2 = vecUD2 := by decide +kernel

theorem test_decode_udpKeep : decode vecUD3 = insUD3 ∧ encode insUD3 = vecUD3 := by decide +kernel

theorem test_decode_ipPass : decode vecIP1 = insIP1 ∧ encode insIP1 = vecIP1 := by decide +kernel

theorem test_decode_ethPass : decode vecET2 = insET2 ∧ encode insET2 = vecET2 := by decide +kernel

/-! ### One step on each vector, from the `IDC` the vector states -/

theorem test_step_drop1 :
    observe (step (presented 5 vecDR1)) = some ([.drop .runtFrame], 5, some StatBlock.zero) := by decide +kernel

theorem test_step_drop2 :
    observe (step (presented 5 vecDR2)) = some ([.drop .arpTruncated], 5, some StatBlock.zero) := by decide +kernel

theorem test_step_arpReply_AR3 :
    observe (step (presented 7 vecAR3)) = some ([.reflect 0 outAR3], 7, some ⟨1, 1, 42, 42, 1⟩) := by decide +kernel

theorem test_step_drop3 :
    observe (step (presented 5 vecDR3)) = some ([.drop .ipTruncated], 5, some StatBlock.zero) := by decide +kernel

theorem test_step_drop4 :
    observe (step (presented 5 vecDR4)) = some ([.drop .ipBadIhl], 5, some StatBlock.zero) := by decide +kernel

theorem test_step_drop5 :
    observe (step (presented 5 vecDR5a)) = some ([.drop .ipBadTotalLength], 5, some StatBlock.zero) := by decide +kernel

theorem test_step_drop6 :
    observe (step (presented 5 vecDR6)) = some ([.drop .ipLengthExceedsFrame], 5, some StatBlock.zero) := by decide +kernel

theorem test_step_drop7 :
    observe (step (presented 5 vecDR7)) = some ([.drop .icmpTruncated], 5, some StatBlock.zero) := by decide +kernel

theorem test_step_icmpEcho_IC1 :
    observe (step (presented 0x100 vecIC1)) = some ([.reflect 0 outIC1], 0x101, some ⟨1, 1, 45, 45, 1⟩) := by decide +kernel

theorem test_step_icmpPass_IC2 :
    observe (step (presented 0x101 vecIC2)) = some ([.reflect 0 outIC2], 0x102, some ⟨1, 1, 42, 42, 1⟩) := by decide +kernel

theorem test_step_drop8 :
    observe (step (presented 5 vecDR8)) = some ([.drop .udpTruncated], 5, some StatBlock.zero) := by decide +kernel

theorem test_step_drop9 :
    observe (step (presented 5 vecDR9)) = some ([.drop .udpBadLength], 5, some StatBlock.zero) := by decide +kernel

theorem test_step_drop10 :
    observe (step (presented 5 vecDR10)) = some ([.drop .udpLengthExceedsDatagram], 5, some StatBlock.zero) := by decide +kernel

theorem test_step_udpSwap_UD6 :
    observe (step (presented 0x15 vecUD6)) = some ([.reflect 0 outUD6], 0x16, some ⟨1, 1, 48, 48, 1⟩) := by decide +kernel

theorem test_step_udpSkip_UD4 :
    observe (step (presented 0x13 vecUD4)) = some ([.reflect 0 outUD4], 0x14, some ⟨1, 1, 58, 58, 1⟩) := by decide +kernel

theorem test_step_udpAdd_UD9 :
    observe (step (presented 0x18 vecUD9)) = some ([.reflect 0 outUD9], 0x19, some ⟨1, 1, 62, 62, 1⟩) := by decide +kernel

theorem test_step_udpSub_UD2 :
    observe (step (presented 0x11 vecUD2)) = some ([.reflect 0 outUD2], 0x12, some ⟨1, 1, 58, 58, 1⟩) := by decide +kernel

theorem test_step_udpKeep_UD3 :
    observe (step (presented 0x12 vecUD3)) = some ([.reflect 0 outUD3], 0x13, some ⟨1, 1, 58, 58, 1⟩) := by decide +kernel

theorem test_step_ipPass_IP1 :
    observe (step (presented 0xff vecIP1)) = some ([.reflect 0 outIP1], 0x100, some ⟨1, 1, 42, 42, 1⟩) := by decide +kernel

theorem test_step_ethPass_ET2 :
    observe (step (presented 0x42 vecET2)) = some ([.reflect 0 outET2], 0x42, some ⟨1, 1, 20, 20, 1⟩) := by decide +kernel

theorem test_step_icmpEcho_IC5 :
    observe (step (presented 0x104 vecIC5)) = some ([.reflect 0 outIC5], 0x105, some ⟨1, 1, 48, 48, 1⟩) := by decide +kernel

theorem test_step_udpSwap_UD11 :
    observe (step (presented 0x1a vecUD11)) = some ([.reflect 0 outUD11], 0x1b, some ⟨1, 1, 44, 44, 1⟩) := by decide +kernel

theorem test_step_udpAdd_UD12 :
    observe (step (presented 0x1b vecUD12)) = some ([.reflect 0 outUD12], 0x1c, some ⟨1, 1, 58, 58, 1⟩) := by decide +kernel

theorem test_step_ipPass_IP2 :
    observe (step (presented 0x100 vecIP2)) = some ([.reflect 0 outIP2], 0x101, some ⟨1, 1, 36, 36, 1⟩) := by decide +kernel

theorem test_step_arpReply_AR2 :
    observe (step (presented 7 vecAR2)) = some ([.reflect 0 outAR2], 7, some ⟨1, 1, 60, 60, 1⟩) := by decide +kernel

/-! ### Well-formedness: an ill-formed term for each check, refused -/

/-- A MAC header. -/
def mac0 : MacHdr := ⟨1, 2⟩

/-- An IPv4 header with the three fields that are checked. -/
def hdr (ihl : BitVec 4) (tot : Half) (proto : Byte) : IpHdr := ⟨4, ihl, 0, tot, 0, 0, 0, 64, proto, 0, 1, 2⟩

/-- `n` zero bytes. -/
def zs (n : Nat) : List Byte := List.replicate n 0

/-- A UDP header of the given length field. -/
def uhdr (ul : Half) : UdpHdr := ⟨1, 2, ul, 0⟩

theorem test_wf_samples : ∀ i ∈ samples, i.wf = true := by decide +kernel

theorem test_ill_formed_lengths :
    (Instr.drop1 (zs 14)).wf = false ∧ (Instr.drop2 mac0 (zs 28)).wf = false ∧ (Instr.drop3 mac0 (zs 20)).wf = false := by
  decide +kernel

theorem test_ill_formed_header_drops :
    (Instr.drop4 mac0 (hdr 5 20 6) []).wf = false ∧
    (Instr.drop5 mac0 (hdr 4 15 6) []).wf = false ∧ (Instr.drop5 mac0 (hdr 5 20 6) []).wf = false ∧
    (Instr.drop6 mac0 (hdr 4 40 6) []).wf = false ∧ (Instr.drop6 mac0 (hdr 6 23 6) []).wf = false ∧
    (Instr.drop6 mac0 (hdr 5 40 6) (zs 20)).wf = false := by decide +kernel

theorem test_ill_formed_ip_pass :
    (Instr.ipPass mac0 (hdr 4 16 6) [] [] []).wf = false ∧ (Instr.ipPass mac0 (hdr 6 24 6) [] [] []).wf = false ∧
    (Instr.ipPass mac0 (hdr 5 21 6) [] [] []).wf = false ∧ (Instr.ipPass mac0 (hdr 5 20 1) [] [] []).wf = false ∧
    (Instr.ipPass mac0 (hdr 5 20 17) [] [] []).wf = false := by decide +kernel

theorem test_ill_formed_icmp :
    (Instr.drop7 mac0 (hdr 5 24 1) [] (zs 4) []).wf = false ∧ (Instr.drop7 mac0 (hdr 5 23 17) [] (zs 3) []).wf = false ∧
    (Instr.drop7 mac0 (hdr 5 23 1) [] (zs 2) []).wf = false ∧
    (Instr.icmpEcho mac0 (hdr 5 24 17) [] 0 0 [] []).wf = false ∧
    (Instr.icmpEcho mac0 (hdr 5 25 1) [] 0 0 [] []).wf = false ∧
    (Instr.icmpPass mac0 (hdr 5 24 17) [] 0 0 0 [] []).wf = false ∧
    (Instr.icmpPass mac0 (hdr 5 25 1) [] 0 0 0 [] []).wf = false ∧
    (Instr.icmpPass mac0 (hdr 5 24 1) [] 8 0 0 [] []).wf = false := by decide +kernel

theorem test_ill_formed_udp_drops :
    (Instr.drop8 mac0 (hdr 5 28 17) [] (zs 8) []).wf = false ∧ (Instr.drop8 mac0 (hdr 5 27 1) [] (zs 7) []).wf = false ∧
    (Instr.drop8 mac0 (hdr 5 27 17) [] (zs 6) []).wf = false ∧
    (Instr.drop9 mac0 (hdr 5 28 17) [] (uhdr 8) [] []).wf = false ∧
    (Instr.drop9 mac0 (hdr 5 28 1) [] (uhdr 7) [] []).wf = false ∧
    (Instr.drop9 mac0 (hdr 5 29 17) [] (uhdr 7) [] []).wf = false ∧
    (Instr.drop10 mac0 (hdr 5 28 17) [] (uhdr 8) [] []).wf = false ∧
    (Instr.drop10 mac0 (hdr 5 28 17) [] (uhdr 7) [] []).wf = false ∧
    (Instr.drop10 mac0 (hdr 5 28 1) [] (uhdr 9) [] []).wf = false ∧
    (Instr.drop10 mac0 (hdr 5 27 17) [] (uhdr 9) [] []).wf = false := by decide +kernel

theorem test_ill_formed_udp_swap :
    (Instr.udpSwap mac0 (hdr 5 28 17) [] (uhdr 9) [] [] []).wf = false ∧
    (Instr.udpSwap mac0 (hdr 5 28 1) [] (uhdr 8) [] [] []).wf = false ∧
    (Instr.udpSwap mac0 (hdr 5 29 17) [] (uhdr 8) [] [] []).wf = false ∧
    (Instr.udpSwap mac0 (hdr 5 44 17) [] (uhdr 24) (zs 16) [] []).wf = false := by decide +kernel

theorem test_ill_formed_arith :
    (Instr.udpSkip mac0 (hdr 5 44 17) [] (uhdr 24) 1 0 0 0 [] []).wf = false ∧
    (Instr.udpSkip mac0 (hdr 5 44 17) [] (uhdr 23) 2 0 0 0 [] []).wf = false ∧
    (Instr.udpSkip mac0 (hdr 5 44 1) [] (uhdr 24) 2 0 0 0 [] []).wf = false ∧
    (Instr.udpSkip mac0 (hdr 5 43 17) [] (uhdr 24) 2 0 0 0 [] []).wf = false ∧
    (Instr.udpAdd mac0 (hdr 5 44 17) [] (uhdr 25) 0 0 [] []).wf = false ∧
    (Instr.udpSub mac0 (hdr 5 44 17) [] (uhdr 25) 0 0 [] []).wf = false ∧
    (Instr.udpKeep mac0 (hdr 5 44 17) [] (uhdr 25) 0 0 9 [] []).wf = false ∧
    (Instr.udpKeep mac0 (hdr 5 44 17) [] (uhdr 24) 0 0 1 [] []).wf = false ∧
    (Instr.udpKeep mac0 (hdr 5 44 17) [] (uhdr 24) 0 0 2 [] []).wf = false := by decide +kernel

theorem test_ill_formed_eth_pass :
    (Instr.ethPass mac0 0x0800 []).wf = false ∧ (Instr.ethPass mac0 0x0806 []).wf = false := by decide +kernel

/-! ### Words of spec/opcode_table.json -/

theorem test_table_word_eth : decodeTableWord 112 0x0200000000010200000000021234 =
    some (.ethPass ⟨0x020000000001, 0x020000000002⟩ 0x1234 (zs 28)) := by decide +kernel

theorem test_table_word_arp :
    decodeTableWord 112 0x0806 = some (.arpReply ⟨0, 0⟩ ⟨0, 0, 0, 0, 0, 0, 0, 0, 0⟩ []) := by decide +kernel

theorem test_table_word_short :
    decodeTableWord 16 0x0806 = some (.drop1 [0x08, 0x06]) ∧ decodeTableWord 13 0 = none := by decide +kernel

theorem test_fetch_word : observe (step (State.reset.withFetchWord 112 0x0200000000010200000000021234)) =
    some ([.reflect 0 ([2, 0, 0, 0, 0, 2, 2, 0, 0, 0, 0, 1, 0x12, 0x34] ++ zs 28)], 0, some ⟨1, 1, 42, 42, 1⟩) := by
  decide +kernel

/-! ### Operations -/

/-- AE4, AE5, AE8 of 95_test_vectors.md. -/
theorem test_arith : arithSub 3 7 = 0xFFFFFFFC ∧ arithAdd 0xFFFFFFFF 2 = 1 ∧ arithSub 0 1 = 0xFFFFFFFF := by decide +kernel

/-- CK1, CK4, CK6, CK9, CK11 and CK15 of 95_test_vectors.md. -/
theorem test_cksum : cksum [] = 0xffff ∧ cksum [1] = 0xfeff ∧ cksum [0xff, 0xff, 0xff, 0xff, 0, 1] = 0xfffe ∧
    cksum [0x12, 0x34, 0x56] = 0x97cb ∧ cksum [0, 1, 0xf2, 3, 0xf4, 0xf5, 0xf6, 0xf7] = 0x220d ∧
    cksum [0x80, 0, 0x80, 0] = 0xfffe := by decide +kernel

/-- ST2 and ST4 of 95_test_vectors.md: every field of a block wraps. -/
theorem test_stats_wrap :
    bumpBlock ⟨7, 7, 0xFFFFFFFFFFFFFFF6, 0xFFFFFFFFFFFFFFF6, 0xFFFFFFFF⟩ 46 = ⟨8, 8, 36, 36, 0⟩ := by decide +kernel

/-- A token that changed between copy and check discards the copy (47_statistics.md R253). -/
theorem test_reader_retries : readerAdvance ⟨2, 2, 88, 88, 2⟩ ⟨0, [0], Snapshot.zero, .copied 1 ⟨1, 1, 42, 42⟩⟩ =
    ⟨0, [0], Snapshot.zero, .start⟩ := by decide +kernel

/-- The reader may begin with any worker that is left, and only where a copy begins (20_memory.md R63). -/
theorem test_reader_chooses :
    readerChoose (some 1) ⟨0, [0, 1], Snapshot.zero, .start⟩ = ⟨0, [1, 0], Snapshot.zero, .start⟩ ∧
    readerChoose (some 2) ⟨0, [0, 1], Snapshot.zero, .start⟩ = ⟨0, [0, 1], Snapshot.zero, .start⟩ ∧
    readerChoose (some 1) ⟨0, [0, 1], Snapshot.zero, .recorded 5⟩ = ⟨0, [0, 1], Snapshot.zero, .recorded 5⟩ := by
  decide +kernel

/-- A snapshot may begin between parameter setting and `RESET` too (46_dispatcher.md R232). -/
theorem test_stats_read_before_reset : isNext (runEvent (.statsRead 0) { twoLanes with ready := false }) = true := rfl

/-- Each breach of a host duty has its own refusal (46_dispatcher.md R232). -/
theorem test_host_breaches :
    runEvent (.frameIn 0 0 14 (zs 14)) { State.reset with ready := false } = .refused .notReset ∧
    runEvent (.frameIn 1 0 14 (zs 14)) State.reset = .refused .noSuchInterface ∧
    runEvent (.frameIn 0 1 14 (zs 14)) State.reset = .refused .noSuchWorker ∧
    runEvent (.frameIn 0 0 15 (zs 14)) State.reset = .refused .wrongLength ∧
    runEvent (.frameIn 0 0 14 (zs 14)) { State.reset with params := ⟨1, 1, 13⟩ } = .refused .frameTooLong ∧
    runEvent (.statsRead 1) State.reset = .refused .noSuchInterface ∧
    runEvent (.setParams ⟨0, 1, 64⟩) State.reset = .refused .badParams :=
  ⟨rfl, rfl, rfl, rfl, rfl, rfl, rfl⟩

/-! ### Witnesses: for each statement with hypotheses, a state and operands that meet all of them -/

/-- `∀ i, i.wf = true → …` (DecodeInvertsEncode, UnexaminedFieldsDoNotSelect, ReplyIsWellFormed, RepliesAreReflectedAgain): every
constructor, at the ends of the ranges that its lengths have. -/
theorem test_witness_wf :
    (∀ i ∈ samples, i.wf = true) ∧ (Instr.drop1 []).wf = true ∧ (Instr.drop2 mac0 (zs 27)).wf = true ∧
    (Instr.drop3 mac0 (zs 19)).wf = true ∧ (Instr.ipPass mac0 (hdr 15 60 6) (zs 40) [] []).wf = true ∧
    (Instr.icmpEcho mac0 (hdr 5 24 1) [] 0 0 [] []).wf = true ∧ (Instr.udpSwap mac0 (hdr 5 28 17) [] (uhdr 8) [] [] []).wf = true ∧
    (Instr.drop10 mac0 (hdr 5 28 17) [] (uhdr 65535) [] []).wf = true := by decide +kernel

/-- FoldedSumIsResidue: each of its conditions at the ends of its range. -/
theorem test_witness_fold :
    (2 ^ 32 - 1 < 2 ^ 32 ∧ foldSum (2 ^ 32 - 1) = 65535) ∧ (65534 % 65535 ≠ 0 ∧ foldSum 65534 = 65534) ∧
    (65536 % 65535 ≠ 0 ∧ foldSum 65536 = 1) ∧ ((65535 : Nat) ≠ 0 ∧ 65535 % 65535 = 0 ∧ foldSum 65535 = 65535) ∧
    foldSum 0 = 0 := by decide +kernel

/-- OddByteIsHighByte, ChecksumZeroFieldLaw: an even prefix, empty and not. -/
theorem test_witness_even_prefix : ([] : List Byte).length % 2 = 0 ∧ ([0x12, 0x34] : List Byte).length % 2 = 0 := by decide

theorem test_witness_ChecksumOrderIndependent : List.Perm [0x1234#16, 0x5678#16] [0x5678#16, 0x1234#16] :=
  List.Perm.swap _ _ _

/-- WriteIsReadBack: the last two addresses of a frame space, and one before and one behind the field. -/
theorem test_witness_WriteIsReadBack :
    memWrite (ofBytes [1, 2, 3, 4]) 2 2 0xABCD = .ok (ofBytes [1, 2, 0xAB, 0xCD]) ∧ 1 < 2 ∧ 2 + 2 ≤ 4 := ⟨rfl, by decide, by decide⟩

/-- SwapExchangesTwoFields: adjacent fields that end where the frame ends. -/
theorem test_witness_SwapExchangesTwoFields : 0 + 2 ≤ 2 ∧ 2 + 2 ≤ ([1, 2, 3, 4] : List Byte).length := by decide

theorem test_witness_EthPassResult : Loaded (loaded 0x42 insET2) insET2 (lane insET2) StatBlock.zero :=
  loaded_of_wf _ (by decide +kernel)
theorem test_witness_ArpReplyResult : Loaded (loaded 7 insAR3) insAR3 (lane insAR3) StatBlock.zero :=
  loaded_of_wf _ (by decide +kernel)
theorem test_witness_IpPassResult : Loaded (loaded 0xffff insIP1) insIP1 (lane insIP1) StatBlock.zero :=
  loaded_of_wf _ (by decide +kernel)
theorem test_witness_IcmpEchoResult : Loaded (loaded 0x100 insIC1) insIC1 (lane insIC1) StatBlock.zero :=
  loaded_of_wf _ (by decide +kernel)
theorem test_witness_IcmpPassResult : Loaded (loaded 0x101 insIC2) insIC2 (lane insIC2) StatBlock.zero :=
  loaded_of_wf _ (by decide +kernel)
theorem test_witness_UdpSwapResult : Loaded (loaded 0x15 insUD6) insUD6 (lane insUD6) StatBlock.zero :=
  loaded_of_wf _ (by decide +kernel)
theorem test_witness_UdpSkipResult : Loaded (loaded 0x13 insUD4) insUD4 (lane insUD4) StatBlock.zero :=
  loaded_of_wf _ (by decide +kernel)
theorem test_witness_UdpAddResult : Loaded (loaded 0x18 insUD9) insUD9 (lane insUD9) StatBlock.zero :=
  loaded_of_wf _ (by decide +kernel)
theorem test_witness_UdpSubResult : Loaded (loaded 0x11 insUD2) insUD2 (lane insUD2) StatBlock.zero :=
  loaded_of_wf _ (by decide +kernel)
theorem test_witness_UdpKeepResult : Loaded (loaded 0x12 insUD3) insUD3 (lane insUD3) StatBlock.zero :=
  loaded_of_wf _ (by decide +kernel)

/-- DropsTakeTheException: each of the ten classes with a frame in the buffer. -/
theorem test_witness_DropsTakeTheException : (∀ i ∈ samples, (loaded 5 i).cur = some (lane i)) ∧
    samples.filterMap dropOf = [.runtFrame, .arpTruncated, .ipTruncated, .ipBadIhl, .ipBadTotalLength, .ipLengthExceedsFrame,
      .icmpTruncated, .udpTruncated, .udpBadLength, .udpLengthExceedsDatagram] := ⟨fun _ _ => rfl, by decide +kernel⟩

/-- OtherBytesLeaveAsTheyCame: UD9 in the buffer is reflected, and the offsets 17, 21, 38 and 58 (beside a written field each)
are untouched while 18, 20, 40 and 57 are not. -/
theorem test_witness_OtherBytesLeaveAsTheyCame :
    (loaded 0x18 insUD9).cur = some (lane insUD9) ∧ (lane insUD9).frame = ofBytes vecUD9 ∧
    (∃ t, exec insUD9 (loaded 0x18 insUD9) = .next t) ∧
    observe (exec insUD9 (loaded 0x18 insUD9)) = some ([.reflect 0 outUD9], 0x19, some ⟨1, 1, 62, 62, 1⟩) ∧
    (∀ a ∈ [17, 21, 38, 58], ∀ p ∈ writes insUD9, a < p.1 ∨ p.1 + p.2 ≤ a) ∧
    (∀ a ∈ [18, 20, 40, 57], ¬ ∀ p ∈ writes insUD9, a < p.1 ∨ p.1 + p.2 ≤ a) :=
  ⟨rfl, by decide +kernel, exists_next (by decide +kernel), by decide +kernel, by decide +kernel, by decide +kernel⟩

/-- OtherStateStaysAsItWas: an operation and a drop. -/
theorem test_witness_OtherStateStaysAsItWas :
    (∃ t, exec insIP1 (loaded 0xff insIP1) = .next t) ∧ (∃ t, exec insDR5a (loaded 5 insDR5a) = .next t) ∧
    (dropOf insDR5a).isSome = true ∧ ¬((0 : Nat) = (lane insIP1).iface ∧ (1 : Nat) = (lane insIP1).worker) :=
  ⟨exists_next (by decide +kernel), exists_next (by decide +kernel), rfl, by decide⟩

/-- Ipv4FieldsLeftAlone, IdentifierIsDrawnOnce (first part), HeaderChecksumValidates, RepliesAreReflectedAgain (the addresses): IP1 with its option word; the offsets 14, 17,
21, 23, 34 and 37 are the ends of the ranges. -/
theorem test_witness_ipv4 : Loaded (loaded 0xffff insIP1) insIP1 (lane insIP1) StatBlock.zero ∧
    ((ipOf insIP1).map fun p => (ihlBytes p.1, p.2)) = some (24, [1, 1, 1, 0]) ∧ 37 < 14 + 24 :=
  ⟨loaded_of_wf _ (by decide +kernel), by decide +kernel, by decide⟩

/-- IdentifierIsDrawnOnce (second part): ETH.PASS and a drop. -/
theorem test_witness_no_identifier :
    (∃ t, exec insET2 (loaded 0x42 insET2) = .next t) ∧ ipOf insET2 = none ∧
    (∃ t, exec insDR5a (loaded 5 insDR5a) = .next t) ∧ ipOf insDR5a = none :=
  ⟨exists_next (by decide +kernel), rfl, exists_next (by decide +kernel), rfl⟩

theorem test_witness_EchoChecksumValidates : Loaded (loaded 0x100 insIC1) insIC1 (lane insIC1) StatBlock.zero ∧
    transportLen (hdr 5 31 1) % 2 = 1 := ⟨loaded_of_wf _ (by decide +kernel), by decide +kernel⟩

/-- UdpChecksumValidates, RepliesAreReflectedAgain (the ports): the five UDP operations. -/
theorem test_witness_UdpChecksumValidates :
    ∀ i ∈ [insUD6, insUD4, insUD9, insUD2, insUD3], i.wf = true ∧ (udpOf i).isSome = true := by decide +kernel

/-- StatsUpdateExact: the second lane of two. -/
theorem test_witness_StatsUpdateExact : statAt twoLanes.stats 0 1 = some StatBlock.zero := rfl

/-- OutcomeDependsOnFrameAndIdc: the same frame under equal and under different `IDC`, and a frame without an IPv4 header. -/
theorem test_witness_OutcomeDependsOnFrameAndIdc :
    Loaded (loaded 0 insUD9) insUD9 (lane insUD9) StatBlock.zero ∧ Loaded (loaded 0xffff insUD9) insUD9 (lane insUD9) StatBlock.zero ∧
    (loaded 0 insUD9).idc ≠ (loaded 0xffff insUD9).idc ∧
    Loaded (loaded 0 insET2) insET2 (lane insET2) StatBlock.zero ∧ ipOf insET2 = none :=
  ⟨loaded_of_wf _ (by decide +kernel), loaded_of_wf _ (by decide +kernel), by decide, loaded_of_wf _ (by decide +kernel), rfl⟩

/-- UD9 on worker 0. -/
def x0 : Presented := ⟨0, 0, vecUD9⟩
/-- IP1 on worker 1. -/
def x1 : Presented := ⟨0, 1, vecIP1⟩
/-- DR5a, a frame that is dropped, on worker 1. -/
def x2 : Presented := ⟨0, 1, vecDR5a⟩

/-- `twoLanes` with `x0`, `x1`, `x2` presented. -/
def queued : State := { twoLanes with events := [x0, x1, x2].map frameEvent }

/-- A reflection on lane (0, 1) and a snapshot about to copy block (0, 1) in progress. -/
def busy : State := { twoLanes with cur := some ⟨0, 1, ofBytes vecUD9⟩, reads := [⟨0, [1], Snapshot.zero, .start⟩] }

theorem test_witness_inv_queued : Inv queued where
  nIf_pos := by decide
  workers_pos := by decide
  rows := fun _ => rfl
  cols := by decide
  reflection := by intro r h; cases h
  snapshots := by intro r h; cases h

/-- NoStepFaults, StepKeepsInv: the invariant with a reflection and a snapshot in progress. -/
theorem test_witness_inv_busy : Inv busy where
  nIf_pos := by decide
  workers_pos := by decide
  rows := fun _ => rfl
  cols := by decide
  reflection := by
    intro r h
    cases h
    exact ⟨rfl, by decide, by decide, by decide +kernel⟩
  snapshots := by
    intro r h
    cases List.mem_singleton.mp h
    decide

theorem test_witness_StepKeepsInv : (∃ t, step busy = .next t) ∧ ∃ t, step queued = .next t :=
  ⟨exists_next (by decide +kernel), exists_next (by decide +kernel)⟩

/-- IdentifierCounterMovesOnlyAsSpecified, CountersMoveOnlyAsSpecified: a step of each kind, from states that meet the invariant:
a reflected IPv4 frame, a drop, a reset. The block of lane (0, 0) exists before and after. -/
theorem test_witness_moves :
    observe (step queued) = some ([.reflect 0 (encode (reply 0 insUD9))], 1, some ⟨1, 1, 62, 62, 1⟩) ∧
    observe (step { queued with events := [frameEvent x2] }) = some ([.drop .ipBadTotalLength], 0, some StatBlock.zero) ∧
    observe (step { queued with idc := 7, events := [.reset] }) = some ([], 0, some StatBlock.zero) := by decide +kernel

/-- The frames are presented in keeping with the host's duties. -/
theorem test_witness_presentable : ∀ x ∈ [x0, x1, x2], Presentable queued x.iface x.worker x.bytes := by
  have h : ∀ x ∈ [x0, x1, x2], x.iface < 1 ∧ x.worker < 2 ∧ x.bytes.length ≤ 1518 := by decide +kernel
  exact fun x hx => ⟨rfl, (h x hx).1, (h x hx).2.1, (h x hx).2.2⟩

/-- StepRunsTheDecodedFrame: its first part on `busy`, its second on `queued`. -/
theorem test_witness_StepRunsTheDecodedFrame :
    busy.cur = some ⟨0, 1, ofBytes vecUD9⟩ ∧ decode (bytesOf (ofBytes vecUD9)) = insUD9 ∧ queued.cur = none ∧
    queued.events = .frameIn 0 0 vecUD9.length vecUD9 :: [frameEvent x1, frameEvent x2] ∧ decode vecUD9 = insUD9 :=
  ⟨rfl, by decide +kernel, rfl, rfl, by decide +kernel⟩

/-- DroppedFrameLeavesNoTrace, with `test_witness_presentable`. -/
theorem test_witness_DroppedFrameLeavesNoTrace :
    (presented 5 vecDR5a).cur = none ∧ (presented 5 vecDR5a).events = .frameIn 0 0 vecDR5a.length vecDR5a :: [] ∧
    Presentable (presented 5 vecDR5a) 0 0 vecDR5a ∧ validate vecDR5a = some .ipBadTotalLength :=
  ⟨rfl, rfl, ⟨rfl, by decide, by decide, by decide +kernel⟩, by decide +kernel⟩

/-- AcceptedFrameIsReflected, on `queued` (with `test_witness_inv_queued`). -/
theorem test_witness_AcceptedFrameIsReflected : queued.cur = none ∧
    queued.events = .frameIn 0 0 vecUD9.length vecUD9 :: [frameEvent x1, frameEvent x2] ∧
    Presentable queued 0 0 vecUD9 ∧ validate vecUD9 = none :=
  ⟨rfl, rfl, test_witness_presentable x0 (by decide), by decide +kernel⟩

/-- RefusalIsAHostBreach: both sides. -/
theorem test_witness_RefusalIsAHostBreach :
    (∃ why, acceptFrame 0 0 13 [] twoLanes = .error why) ∧ (∃ s, acceptFrame 0 1 0 [] twoLanes = .ok s) := ⟨⟨_, rfl⟩, ⟨_, rfl⟩⟩

/-- IdentifiersAreConsecutive: the first two frames of `queued`, both IPv4, on two lanes (with `test_witness_inv_queued` and
`test_witness_presentable`). -/
theorem test_witness_IdentifiersAreConsecutive : queued.cur = none ∧
    queued.events = [x0, x1].map frameEvent ++ [frameEvent x2] ∧
    ∀ x ∈ [x0, x1], validate x.bytes = none ∧ frameEt x.bytes = 0x0800 := ⟨rfl, rfl, by decide +kernel⟩

/-- TotalsCountReflectedFrames: two frames reflected and one dropped (with `test_witness_inv_queued` and
`test_witness_presentable`). -/
theorem test_witness_TotalsCountReflectedFrames : queued.cur = none ∧
    queued.events = [x0, x1, x2].map frameEvent ++ [] ∧ queued.stats[0]? = some [StatBlock.zero, StatBlock.zero] ∧
    tally [x0, x1, x2] 0 = ⟨2, 2, 104, 104⟩ := ⟨rfl, rfl, rfl, by decide +kernel⟩

/-- FrameOrderLeavesIdcAndCountersEqual: `x0` and `x1` on two lanes (with `test_witness_inv_queued` and `test_witness_presentable`). -/
theorem test_witness_FrameOrderLeavesIdcAndCountersEqual : Inv queued ∧ queued.cur = none ∧
    Presentable queued x0.iface x0.worker x0.bytes ∧ Presentable queued x1.iface x1.worker x1.bytes :=
  ⟨test_witness_inv_queued, rfl, test_witness_presentable x0 (by decide), test_witness_presentable x1 (by decide)⟩

/-- QuietSnapshotIsExact. -/
theorem test_witness_QuietSnapshotIsExact : twoLanes.cur = none ∧ twoLanes.reads = [] ∧
    twoLanes.stats[0]? = some [StatBlock.zero, StatBlock.zero] ∧ [StatBlock.zero, StatBlock.zero] ≠ [] :=
  ⟨rfl, rfl, rfl, by decide⟩

/-- SnapshotInAnyOrderIsExact: downwards (with `test_witness_QuietSnapshotIsExact`). -/
theorem test_witness_SnapshotInAnyOrderIsExact : List.Perm [1, 0] (List.range 2) := List.Perm.swap _ _ _

/-- ReaderDiscardsStaleCopies: a token that has moved on by two. -/
theorem test_witness_ReaderDiscardsStaleCopies : (⟨2, 2, 88, 88, 2⟩ : StatBlock).token ≠ 0 := by decide

/-- SnapshotWritesNothing: both ways. -/
theorem test_witness_SnapshotWritesNothing : (∃ t, beginRead 0 twoLanes = .next t) ∧ ∃ t, readerStep 0 none busy = .next t :=
  ⟨⟨_, rfl⟩, ⟨_, rfl⟩⟩

/-- ParametersThenReset: the least and larger parameters. -/
theorem test_witness_ParametersThenReset :
    1 ≤ (⟨1, 1, 0⟩ : Params).nIf ∧ 1 ≤ (⟨1, 1, 0⟩ : Params).workers ∧ 1 ≤ (⟨2, 3, 64⟩ : Params).nIf ∧
    1 ≤ (⟨2, 3, 64⟩ : Params).workers := by decide

theorem test_witness_IdleKeepsAllState : twoLanes.cur = none ∧ twoLanes.events = [] ∧ twoLanes.reads = [] := ⟨rfl, rfl, rfl⟩

/-- ArithmeticIsModular: both sides of its condition and the boundary. -/
theorem test_witness_ArithmeticIsModular :
    (3#32).toNat ≤ (7#32).toNat ∧ (3#32).toNat ≤ (3#32).toNat ∧ ¬ (7#32).toNat ≤ (3#32).toNat := by decide

end Sys2Proof.Tests
end

/-! SUPPORT. The IPv4 and UDP reflections on a whole frame (43_ipv4.md R170, 45_udp.md R200), assembled from the laws of
their steps, and the results of the mini-protocol's three requests (41_arith.md R142 to R144). -/

namespace Sys2Proof.Machine

/-! ### The IPv4 and UDP reflections on a frame of their format -/

/-- MAC swap and steps 1 to 6 of 43_ipv4.md R170 leave the frame with the reply's MAC and IPv4 headers to the transport
layer. -/
theorem ipv4Reflection_ipFrame (mac : MacHdr) (ip : IpHdr) (opts X : List Byte) (id : Half)
    (body : Memory → Except Fault Memory) (h : opts.length + 20 = ihlBytes ip) :
    ipv4Reflection ip body id (ofBytes (ipFrame mac ip opts X)) =
      body (ofBytes (ipFrame (swapMac mac) (replyIp id ip opts) opts X)) := by
  have hmac : macSwap (ofBytes (ipFrame mac ip opts X)) = .ok (ofBytes (ipFrame (swapMac mac) ip opts X)) :=
    macSwap_macBytes mac _ _
  simp only [ipv4Reflection, hmac, ok_bind, ipv4Steps_ipFrame _ ip opts X id h]

/-- An engine that turns the payload `p` of a UDP datagram in an IPv4 frame with header length as in `ip` into `q` and
leaves the rest of the frame alone, whatever the other header fields are (45_udp.md R200, step 3). -/
def EngineTurns (ip : IpHdr) (engine : Memory → Except Fault Memory) (p q : List Byte) : Prop :=
  ∀ (mac : MacHdr) (jp : IpHdr) (opts : List Byte) (u : UdpHdr) (X : List Byte), opts.length + 20 = ihlBytes ip →
    engine (ofBytes (ipFrame mac jp opts (udpBytes u ++ (p ++ X)))) =
      .ok (ofBytes (ipFrame mac jp opts (udpBytes u ++ (q ++ X))))

/-- The mini-protocol's writes turn any four words into the response with result `v` (41_arith.md R141). -/
theorem arithRespond_engineTurns (ip : IpHdr) (kind opA opB oper v : Word) :
    EngineTurns ip (arithRespond (transportOff ip) v) (arithBytes kind opA opB oper)
      (arithBytes Config.kindResponse v 0 0) := by
  intro mac jp opts u X h
  rw [ipFrame_eq_prefix, ipFrame_eq_prefix, arithRespond_concat (length_ipPrefix h)]

/-- The UDP reflector on a frame whose IPv4 header is the reply's already: ports swapped, payload as the engine leaves it,
checksum over the addresses as they stand (45_udp.md R200, R202, R204). -/
theorem udpRewrite_ipFrame {ip : IpHdr} {udp : UdpHdr} {opts p q : List Byte} {engine : Memory → Except Fault Memory}
    (he : EngineTurns ip engine p q) (ho : opts.length + 20 = ihlBytes ip) (hq : udpLen udp = 8 + q.length)
    (mac : MacHdr) (id : Half) (X : List Byte) :
    udpRewrite ip udp engine (ofBytes (ipFrame mac (replyIp id ip opts) opts (udpBytes udp ++ (p ++ X)))) =
      .ok (ofBytes (ipFrame mac (replyIp id ip opts) opts (udpBytes (replyUdp ip udp q) ++ (q ++ X)))) := by
  let swapped : UdpHdr := ⟨udp.dport, udp.sport, udp.ul, udp.ucs⟩
  have hports : portSwap (transportOff ip)
      (ofBytes (ipFrame mac (replyIp id ip opts) opts (udpBytes udp ++ (p ++ X)))) =
        .ok (ofBytes (ipFrame mac (replyIp id ip opts) opts (udpBytes swapped ++ (p ++ X)))) := by
    rw [ipFrame_eq_prefix, ipFrame_eq_prefix, portSwap_concat (length_ipPrefix ho)]
  have hsum := udpChecksum_ipFrame mac ip (replyIp id ip opts) opts swapped q X ho hq
  simp only [udpRewrite, hports, ok_bind, he mac _ opts swapped X ho]
  exact hsum

/-- A UDP operation on a loaded frame: everything but the payload is settled by the headers, and the payload is the
engine's (45_udp.md R200, 46_dispatcher.md R220). -/
theorem reflectUdp_of_engine {s : State} {i : Instr} {r : Reflection} {b : StatBlock} {mac : MacHdr} {ip : IpHdr}
    {udp : UdpHdr} {opts p q X : List Byte} {engine : Memory → Except Fault Memory} (hl : Loaded s i r b)
    (hi : encode i = ipFrame mac ip opts (udpBytes udp ++ (p ++ X))) (ho : opts.length + 20 = ihlBytes ip)
    (hq : udpLen udp = 8 + q.length) (he : EngineTurns ip engine p q) :
    reflectWithId (ipv4Reflection ip (udpRewrite ip udp engine)) s =
      .next (afterReflect s r b (s.idc + 1)
        (ipFrame (swapMac mac) (replyIp s.idc ip opts) opts (udpBytes (replyUdp ip udp q) ++ (q ++ X)))) := by
  apply reflectWithId_of_ok hl.cur hl.block
  rw [hl.frame, hi, ipv4Reflection_ipFrame _ _ _ _ _ _ ho]
  exact udpRewrite_ipFrame he ho hq _ _ _

/-! ### The mini-protocol's requests -/

/-- A mini-protocol request, whatever its operator, leaves as the response with the engine's result `v`
(41_arith.md R141). -/
theorem reflectUdp_arithRespond {s : State} {i : Instr} {r : Reflection} {b : StatBlock} {mac : MacHdr} {ip : IpHdr}
    {udp : UdpHdr} {opts extra pad : List Byte} {kind opA opB oper : Word} (v : Word) (hl : Loaded s i r b)
    (hi : encode i = ipFrame mac ip opts (udpBytes udp ++ (arithBytes kind opA opB oper ++ (extra ++ pad))))
    (hwf : arithWf ip opts udp extra = true) :
    reflectWithId (ipv4Reflection ip (udpRewrite ip udp (arithRespond (transportOff ip) v))) s =
      .next (afterReflect s r b (s.idc + 1) (encode (replyArith s.idc mac ip opts udp v extra pad))) := by
  obtain ⟨hip, -, hul⟩ := arithWf_iff.1 hwf
  obtain ⟨-, hopts, -⟩ := ipWf_iff.1 hip
  exact reflectUdp_of_engine hl hi hopts (by simp [hul]) (arithRespond_engineTurns ip kind opA opB oper v)

/-- Subtraction of words is the difference of their numbers modulo 2^32 (41_arith.md R143, R148). -/
theorem ofInt_toNat_sub_toNat (x y : Word) : BitVec.ofInt 32 ((x.toNat : Int) - y.toNat) = x - y := by
  rw [Int.sub_eq_add_neg, BitVec.ofInt_add, BitVec.ofInt_neg, BitVec.sub_eq_add_neg]
  simp

/-- Settles O21: the request reflects as the response with `opA + opB`, which is the sum of the numbers modulo 2^32. -/
theorem udpAddResult : Obligations.UdpAddResult := by
  intro s r b mac ip opts udp opA opB extra pad hl
  rw [← BitVec.add_def, exec_udpAdd]
  exact reflectUdp_arithRespond (opA + opB) hl rfl hl.wf

/-- Settles O22: the request reflects as the response with `opA - opB`, which is the difference of the numbers modulo
2^32. -/
theorem udpSubResult : Obligations.UdpSubResult := by
  intro s r b mac ip opts udp opA opB extra pad hl
  rw [ofInt_toNat_sub_toNat, exec_udpSub]
  exact reflectUdp_arithRespond (opA - opB) hl rfl hl.wf

/-- Settles O23: the request reflects as the response with `opA`; the operator matters to its class alone. -/
theorem udpKeepResult : Obligations.UdpKeepResult := by
  intro s r b mac ip opts udp opA opB oper extra pad hl
  obtain ⟨hwf, -, -⟩ := wf_udpKeep.1 hl.wf
  rw [exec_udpKeep]
  exact reflectUdp_arithRespond opA hl rfl hwf

end Sys2Proof.Machine

/-! SUPPORT. The ARP reflection on a whole frame (42_arp.md R160 to R163) and the result of its one operation. -/

namespace Sys2Proof.Machine

/-- The MAC swap, then the ARP rewrite, on a frame that carries an ARP header: opcode 2, the sender and target blocks
exchanged, the bytes after the header as they were (42_arp.md R160, R163). No condition on the incoming opcode or on the
declared address lengths is needed. -/
theorem arpReflection_arpBytes (mac : MacHdr) (et : Half) (a : ArpHdr) (trailer : List Byte) :
    arpReflection (ofBytes (macBytes mac et ++ (arpBytes a ++ trailer))) =
      .ok (ofBytes (macBytes (swapMac mac) et ++ (arpBytes (replyArp a) ++ trailer))) := by
  rw [arpReflection, macSwap_macBytes, ok_bind, arpRewrite_arpBytes]

/-- Settles O15: the reflected frame is that of the MAC swap and the ARP rewrite, and a reflection that draws no
identifier leaves `IDC` as it was. -/
theorem arpReplyResult : Obligations.ArpReplyResult := by
  intro s r b mac a trailer hl
  rw [exec_arpReply]
  apply reflectWith_of_ok hl.cur hl.block
  rw [hl.frame]
  exact arpReflection_arpBytes mac _ a trailer

end Sys2Proof.Machine

/-! SUPPORT. The IPv4 reflections without a transport-layer action (43_ipv4.md R178) and the result of IP.PASS. -/

namespace Sys2Proof.Machine

/-- An IPv4 frame whose transport bytes `X` no layer acts on leaves with the reply's MAC and IPv4 headers, and `X` as it
came (43_ipv4.md R170 and R178; 44_icmp.md R192 has the same shape). -/
theorem reflectIpv4_of_noTransportAction {s : State} {i : Instr} {r : Reflection} {b : StatBlock} {mac : MacHdr} {ip : IpHdr}
    {opts X : List Byte} (hl : Loaded s i r b) (hi : encode i = ipFrame mac ip opts X)
    (ho : opts.length + 20 = ihlBytes ip) :
    reflectWithId (ipv4Reflection ip .ok) s =
      .next (afterReflect s r b (s.idc + 1) (ipFrame (swapMac mac) (replyIp s.idc ip opts) opts X)) := by
  apply reflectWithId_of_ok hl.cur hl.block
  rw [hl.frame, hi]
  exact ipv4Reflection_ipFrame mac ip opts X s.idc .ok ho

/-- Settles O16: the headers are rewritten by the steps all IPv4 operations share, and nothing acts on the transport data
or the padding; of the class only the filled header is needed, not the protocol. -/
theorem ipPassResult : Obligations.IpPassResult := by
  intro s r b mac ip opts data pad hl
  obtain ⟨hip, -, -⟩ := wf_ipPass.1 hl.wf
  obtain ⟨-, hopts, -⟩ := ipWf_iff.1 hip
  rw [exec_ipPass]
  exact reflectIpv4_of_noTransportAction hl rfl hopts

end Sys2Proof.Machine

/-! SUPPORT. The ICMP reflections on a whole frame (44_icmp.md R190 to R192) and the results of the two ICMP operations. -/

namespace Sys2Proof.Machine

/-- Settles O17: the headers are rewritten first, and the echo rewrite then works on that frame; that `tl` covers the
header and the payload is what makes the checksum one over the whole message and leaves the padding out. -/
theorem icmpEchoResult : Obligations.IcmpEchoResult := by
  intro s r b mac ip opts code ics rest pad hl
  obtain ⟨hip, -⟩ := wf_icmpEcho.1 hl.wf
  obtain ⟨-, hopts, -⟩ := ipWf_iff.1 hip
  obtain ⟨htl, -, -⟩ := ipWf_bounds hip
  rw [exec_icmpEcho]
  apply reflectWithId_of_ok hl.cur hl.block
  rw [hl.frame, encode, ipv4Reflection_ipFrame _ _ _ _ _ _ hopts]
  exact icmpEchoRewrite_ipFrame _ ip _ opts _ code ics rest pad hopts htl

/-- Settles O18: nothing acts on the ICMP message, so it leaves with the checksum it came with; of the class only the
filled header is needed, not the type. -/
theorem icmpPassResult : Obligations.IcmpPassResult := by
  intro s r b mac ip opts itype code ics rest pad hl
  obtain ⟨hip, -, -⟩ := wf_icmpPass.1 hl.wf
  obtain ⟨-, hopts, -⟩ := ipWf_iff.1 hip
  rw [exec_icmpPass]
  exact reflectIpv4_of_noTransportAction hl rfl hopts

end Sys2Proof.Machine

/-! SUPPORT. The UDP reflections in which the mini-protocol's engine writes nothing (45_udp.md R206 and R207) and the
results of UDP.SWAP and UDP.SKIP. -/

namespace Sys2Proof.Machine

/-- Where the engine writes nothing the payload stays as it came (41_arith.md R146, R147). -/
theorem ok_engineTurns (ip : IpHdr) (p : List Byte) : EngineTurns ip .ok p p :=
  fun _ _ _ _ _ _ => rfl

/-- Settles O19: the UDP rewrite with the engine that writes nothing. Of the class only the filled header and a UDP length
that covers header and payload are needed: the latter keeps `extra` and the padding out of the checksum. -/
theorem udpSwapResult : Obligations.UdpSwapResult := by
  intro s r b mac ip opts udp payload extra pad hl
  obtain ⟨hip, -, hul, -⟩ := wf_udpSwap.1 hl.wf
  obtain ⟨-, hopts, -⟩ := ipWf_iff.1 hip
  rw [exec_udpSwap]
  exact reflectUdp_of_engine hl rfl hopts hul (ok_engineTurns ip payload)

/-- Settles O20: as UDP.SWAP, the payload being the four words; that `kind` is not a request's matters to the class
alone. -/
theorem udpSkipResult : Obligations.UdpSkipResult := by
  intro s r b mac ip opts udp kind opA opB oper extra pad hl
  obtain ⟨harith, -⟩ := wf_udpSkip.1 hl.wf
  obtain ⟨hip, -, hul⟩ := arithWf_iff.1 harith
  obtain ⟨-, hopts, -⟩ := ipWf_iff.1 hip
  have hcovers : udpLen udp = 8 + (arithBytes kind opA opB oper).length := by rw [hul, length_arithBytes]
  rw [exec_udpSkip]
  exact reflectUdp_of_engine hl rfl hopts hcovers (ok_engineTurns ip _)

end Sys2Proof.Machine

/-! SUPPORT. The result of ETH.PASS, the reflection that is the MAC swap and nothing more (46_dispatcher.md R225). -/

namespace Sys2Proof.Machine

/-- Settles O14: the MAC swap is the whole rewrite, so bytes 12 and on leave as they came, and a reflection that draws no
identifier leaves `IDC` as it was. That the EtherType is neither IPv4's nor ARP's matters to the class alone. -/
theorem ethPassResult : Obligations.EthPassResult := by
  intro s r b mac et payload hl
  rw [exec_ethPass]
  apply reflectWith_of_ok hl.cur hl.block
  rw [hl.frame]
  exact macSwap_macBytes mac et payload

end Sys2Proof.Machine

/-! SUPPORT. The classification in full: the class of an encoded instruction, the rows of the opcode table, the ordered checks of
validation, and the fields that select nothing (30_encoding.md R100 to R109, 60_exceptions.md R272). -/

namespace Sys2Proof

open Machine

/-- The frame of a well-formed instruction is of the instruction's class (30_encoding.md R100, R101). -/
theorem classify_encode {i : Instr} (h : i.wf = true) : classify (encode i) = classOf i := by
  cases i with
  | drop1 => exact Laws.SelectorStands.drop1 _ h
  | drop2 => exact Laws.SelectorStands.drop2 _ _ h
  | arpReply => exact Laws.SelectorStands.arpReply _ _ _ h
  | drop3 => exact Laws.SelectorStands.drop3 _ _ h
  | drop4 => exact Laws.SelectorStands.drop4 _ _ _ h
  | drop5 => exact Laws.SelectorStands.drop5 _ _ _ h
  | drop6 => exact Laws.SelectorStands.drop6 _ _ _ h
  | drop7 => exact Laws.SelectorStands.drop7 _ _ _ _ _ h
  | icmpEcho => exact Laws.SelectorStands.icmpEcho _ _ _ _ _ _ _ h
  | icmpPass => exact Laws.SelectorStands.icmpPass _ _ _ _ _ _ _ _ h
  | drop8 => exact Laws.SelectorStands.drop8 _ _ _ _ _ h
  | drop9 => exact Laws.SelectorStands.drop9 _ _ _ _ _ _ h
  | drop10 => exact Laws.SelectorStands.drop10 _ _ _ _ _ _ h
  | udpSwap => exact Laws.SelectorStands.udpSwap _ _ _ _ _ _ _ h
  | udpSkip => exact Laws.SelectorStands.udpSkip _ _ _ _ _ _ _ _ _ _ h
  | udpAdd => exact Laws.SelectorStands.udpAdd _ _ _ _ _ _ _ _ h
  | udpSub => exact Laws.SelectorStands.udpSub _ _ _ _ _ _ _ _ h
  | udpKeep => exact Laws.SelectorStands.udpKeep _ _ _ _ _ _ _ _ _ h
  | ipPass => exact Laws.SelectorStands.ipPass _ _ _ _ _ h
  | ethPass => exact Laws.SelectorStands.ethPass _ _ _ h

/-! ### The rows of the opcode table (30_encoding.md R109) -/

theorem ethertypeArp_toNat : Config.ethertypeArp.toNat = 0x0806 := rfl

theorem ethertypeIpv4_toNat : Config.ethertypeIpv4.toNat = 0x0800 := rfl

theorem rowIp_iff {F : List Byte} :
    rowIp F = true ↔ 34 ≤ F.length ∧ frameEt F = 0x0800 ∧ 20 ≤ frameIhl F ∧ frameIhl F ≤ frameTot F ∧
      14 + frameTot F ≤ F.length := by
  simp only [rowIp, Bool.and_eq_true, decide_eq_true_eq, and_assoc]
  rw [ethertypeIpv4_toNat]
  constructor
  · rintro ⟨hlen, het, hhdr, hihl, htot, hfit⟩
    exact ⟨by omega, het, hihl, htot, by omega⟩
  · rintro ⟨hlen, het, hihl, htot, hfit⟩
    exact ⟨by omega, het, by omega, hihl, htot, by omega⟩

theorem rowUdp_iff {F : List Byte} :
    rowUdp F = true ↔ rowIp F = true ∧ frameProto F = 17 ∧ 8 ≤ frameTl F := by
  simp only [rowUdp, Bool.and_eq_true, decide_eq_true_eq, and_assoc]

theorem rowArith_iff {F : List Byte} :
    rowArith F = true ↔ rowUdp F = true ∧ frameUl F = 24 ∧ 24 ≤ frameTl F := by
  simp only [rowArith, Bool.and_eq_true, decide_eq_true_eq, and_assoc]
  exact and_congr_right fun _ => and_congr_right fun h => by rw [h]

/-- The IPv4 classes below an accepted header. -/
theorem classify_of_rowIp {F : List Byte} (h : rowIp F = true) :
    classify F = if frameProto F = 1 then classifyIcmp F else if frameProto F = 17 then classifyUdp F else .ipPass := by
  obtain ⟨hlen, het, hihl, htot, hfit⟩ := rowIp_iff.1 h
  rw [classify, if_neg (by omega), ethertypeArp_toNat, if_neg (by omega), ethertypeIpv4_toNat, if_pos het, classifyIpv4,
    if_neg (by omega), if_neg (by omega), if_neg (by omega), if_neg (by omega)]

/-- The UDP classes below a whole UDP header. -/
theorem classify_of_rowUdp {F : List Byte} (h : rowUdp F = true) :
    classify F =
      if frameUl F < 8 then .drop .udpBadLength
      else if frameTl F < frameUl F then .drop .udpLengthExceedsDatagram
      else if frameUl F ≠ 24 then .udpSwap
      else if frameKind F ≠ 1 then .udpSkip
      else if frameOper F = 1 then .udpAdd
      else if frameOper F = 2 then .udpSub
      else .udpKeep := by
  obtain ⟨hip, hproto, htl⟩ := rowUdp_iff.1 h
  rw [classify_of_rowIp hip, if_neg (by omega), if_pos hproto, classifyUdp, if_neg (by omega)]

/-- The classes below a datagram that triggers the mini-protocol. -/
theorem classify_of_rowArith {F : List Byte} (h : rowArith F = true) :
    classify F =
      if frameKind F ≠ 1 then .udpSkip
      else if frameOper F = 1 then .udpAdd
      else if frameOper F = 2 then .udpSub
      else .udpKeep := by
  obtain ⟨hudp, hul, htl⟩ := rowArith_iff.1 h
  rw [classify_of_rowUdp hudp, if_neg (by omega), if_neg (by omega), if_neg (by omega)]

/-- A row that holds for a frame is the row of its class: the rows are disjoint. -/
theorem classify_eq_of_rowHolds {F : List Byte} {c : FrameClass} (h : rowHolds F c = true) : classify F = c := by
  cases c with
  | drop code =>
    cases code <;> simp only [rowHolds, Bool.and_eq_true, decide_eq_true_eq, and_assoc] at h
    case runtFrame => rw [classify, if_pos h]
    case arpTruncated =>
      obtain ⟨het, hlen, hshort⟩ := h
      rw [classify, if_neg (by omega), if_pos het, if_pos hshort]
    case ipTruncated =>
      obtain ⟨het, hlen, hshort⟩ := h
      rw [classify, if_neg (by omega), het, if_neg (by decide), if_pos rfl, classifyIpv4, if_pos hshort]
    case ipBadIhl =>
      obtain ⟨het, hlen, hihl⟩ := h
      rw [classify, if_neg (by omega), het, if_neg (by decide), if_pos rfl, classifyIpv4, if_neg (by omega), if_pos hihl]
    case ipBadTotalLength =>
      obtain ⟨het, hlen, hihl, htot⟩ := h
      rw [classify, if_neg (by omega), het, if_neg (by decide), if_pos rfl, classifyIpv4, if_neg (by omega),
        if_neg (by omega), if_pos htot]
    case ipLengthExceedsFrame =>
      obtain ⟨het, hlen, hihl, htot, hlong⟩ := h
      rw [classify, if_neg (by omega), het, if_neg (by decide), if_pos rfl, classifyIpv4, if_neg (by omega),
        if_neg (by omega), if_neg (by omega), if_pos hlong]
    case icmpTruncated =>
      obtain ⟨hip, hproto, htl⟩ := h
      rw [classify_of_rowIp hip, if_pos hproto, classifyIcmp, if_pos htl]
    case udpTruncated =>
      obtain ⟨hip, hproto, htl⟩ := h
      rw [classify_of_rowIp hip, if_neg (by omega), if_pos hproto, classifyUdp, if_pos htl]
    case udpBadLength =>
      obtain ⟨hudp, hul⟩ := h
      rw [classify_of_rowUdp hudp, if_pos hul]
    case udpLengthExceedsDatagram =>
      obtain ⟨hudp, hul, htl⟩ := h
      rw [classify_of_rowUdp hudp, if_neg (by omega), if_pos htl]
  | arpReply =>
    simp only [rowHolds, Bool.and_eq_true, decide_eq_true_eq] at h
    obtain ⟨het, hlen⟩ := h
    rw [classify, if_neg (by omega), if_pos het, if_neg (by omega)]
  | icmpEcho =>
    simp only [rowHolds, Bool.and_eq_true, decide_eq_true_eq, and_assoc] at h
    obtain ⟨hip, hproto, htl, ht⟩ := h
    rw [classify_of_rowIp hip, if_pos hproto, classifyIcmp, if_neg (by omega), if_pos ht]
  | icmpPass =>
    simp only [rowHolds, Bool.and_eq_true, decide_eq_true_eq, and_assoc] at h
    obtain ⟨hip, hproto, htl, ht⟩ := h
    rw [classify_of_rowIp hip, if_pos hproto, classifyIcmp, if_neg (by omega), if_neg ht]
  | udpSwap =>
    simp only [rowHolds, Bool.and_eq_true, decide_eq_true_eq, and_assoc] at h
    obtain ⟨hudp, hul, htl, hne⟩ := h
    rw [classify_of_rowUdp hudp, if_neg (by omega), if_neg (by omega), if_pos hne]
  | udpSkip =>
    simp only [rowHolds, Bool.and_eq_true, decide_eq_true_eq] at h
    obtain ⟨harith, hkind⟩ := h
    rw [classify_of_rowArith harith, if_pos hkind]
  | udpAdd =>
    simp only [rowHolds, Bool.and_eq_true, decide_eq_true_eq, and_assoc] at h
    obtain ⟨harith, hkind, hoper⟩ := h
    rw [classify_of_rowArith harith, if_neg (not_not.2 hkind), if_pos hoper]
  | udpSub =>
    simp only [rowHolds, Bool.and_eq_true, decide_eq_true_eq, and_assoc] at h
    obtain ⟨harith, hkind, hoper⟩ := h
    rw [classify_of_rowArith harith, if_neg (not_not.2 hkind), if_neg (by omega), if_pos hoper]
  | udpKeep =>
    simp only [rowHolds, Bool.and_eq_true, decide_eq_true_eq, and_assoc] at h
    obtain ⟨harith, hkind, hoper1, hoper2⟩ := h
    rw [classify_of_rowArith harith, if_neg (not_not.2 hkind), if_neg hoper1, if_neg hoper2]
  | ipPass =>
    simp only [rowHolds, Bool.and_eq_true, decide_eq_true_eq, and_assoc] at h
    obtain ⟨hip, hproto1, hproto17⟩ := h
    rw [classify_of_rowIp hip, if_neg hproto1, if_neg hproto17]
  | ethPass =>
    simp only [rowHolds, Bool.and_eq_true, decide_eq_true_eq, and_assoc] at h
    obtain ⟨hlen, hip, harp⟩ := h
    rw [classify, if_neg (by omega), if_neg harp, if_neg hip]

section RowOfClass
variable {F : List Byte}

theorem rowHolds_classifyIcmp (hip : rowIp F = true) (hproto : frameProto F = 1) : rowHolds F (classifyIcmp F) = true := by
  unfold classifyIcmp
  split
  · next htl => simp [rowHolds, hip, hproto, htl]
  · next htl =>
    have htl := Nat.le_of_not_lt htl
    split
    · next ht => simp [rowHolds, hip, hproto, htl, ht]
    · next ht => simp [rowHolds, hip, hproto, htl, ht]

theorem rowHolds_classifyUdp (hip : rowIp F = true) (hproto : frameProto F = 17) : rowHolds F (classifyUdp F) = true := by
  unfold classifyUdp
  by_cases htl : frameTl F < 8
  · simp [rowHolds, hip, hproto, htl]
  have hudp : rowUdp F = true := rowUdp_iff.2 ⟨hip, hproto, by omega⟩
  rw [if_neg htl]
  by_cases hul : frameUl F < 8
  · simp [rowHolds, hudp, hul]
  rw [if_neg hul]
  by_cases hlong : frameTl F < frameUl F
  · simp [rowHolds, hudp, hlong, Nat.le_of_not_lt hul]
  rw [if_neg hlong]
  by_cases hne : frameUl F ≠ 24
  · simp [rowHolds, hudp, hne, Nat.le_of_not_lt hul, Nat.le_of_not_lt hlong]
  have harith : rowArith F = true := rowArith_iff.2 ⟨hudp, by omega, by omega⟩
  rw [if_neg hne]
  by_cases hkind : frameKind F ≠ 1
  · simp [rowHolds, harith, hkind]
  rw [if_neg hkind]
  rw [not_not] at hkind
  by_cases hadd : frameOper F = 1
  · simp [rowHolds, harith, hkind, hadd]
  by_cases hsub : frameOper F = 2
  · simp [rowHolds, harith, hkind, hsub]
  · simp [rowHolds, harith, hkind, hadd, hsub]

theorem rowHolds_classifyIpv4 (hlen : 14 ≤ F.length) (het : frameEt F = Config.ethertypeIpv4.toNat) :
    rowHolds F (classifyIpv4 F) = true := by
  unfold classifyIpv4
  by_cases hshort : F.length - 14 < 20
  · simp [rowHolds, het, hlen, hshort]
  have hlong := Nat.le_of_not_lt hshort
  rw [if_neg hshort]
  by_cases hihl : frameIhl F < 20
  · simp [rowHolds, het, hlong, hihl]
  rw [if_neg hihl]
  have hihl := Nat.le_of_not_lt hihl
  by_cases htot : frameTot F < frameIhl F
  · simp [rowHolds, het, hlong, hihl, htot]
  rw [if_neg htot]
  have htot := Nat.le_of_not_lt htot
  by_cases hfit : F.length - 14 < frameTot F
  · simp [rowHolds, het, hlong, hihl, htot, hfit]
  have hip : rowIp F = true := rowIp_iff.2 ⟨by omega, het, hihl, htot, by omega⟩
  rw [if_neg hfit]
  by_cases hicmp : frameProto F = 1
  · rw [if_pos hicmp]; exact rowHolds_classifyIcmp hip hicmp
  rw [if_neg hicmp]
  by_cases hudp : frameProto F = 17
  · rw [if_pos hudp]; exact rowHolds_classifyUdp hip hudp
  · simp [rowHolds, hip, hicmp, hudp]

end RowOfClass

/-- The row of a frame's class holds: the rows are exhaustive. -/
theorem rowHolds_classify (F : List Byte) : rowHolds F (classify F) = true := by
  unfold classify
  by_cases hrunt : F.length < 14
  · simp [rowHolds, hrunt]
  rw [if_neg hrunt]
  have hlen := Nat.le_of_not_lt hrunt
  by_cases harp : frameEt F = Config.ethertypeArp.toNat
  · by_cases hshort : F.length - 14 < 28
    · simp [rowHolds, harp, hlen, hshort]
    · simp [rowHolds, harp, hshort, Nat.le_of_not_lt hshort]
  rw [if_neg harp]
  by_cases hip : frameEt F = Config.ethertypeIpv4.toNat
  · rw [if_pos hip]; exact rowHolds_classifyIpv4 hlen hip
  · simp [rowHolds, hlen, harp, hip]

/-- Settles O4: the row of the class holds, and a row that holds is the row of the class. -/
theorem rowsAreDisjointAndExhaustive : Obligations.RowsAreDisjointAndExhaustive :=
  fun F _ => ⟨classify_eq_of_rowHolds, fun h => h ▸ rowHolds_classify F⟩

end Sys2Proof

/-! SUPPORT. Validation is the classification: the ten ordered checks as one chain of conditions (60_exceptions.md R272, R275), and
the fields that select nothing (30_encoding.md R106). -/

namespace Sys2Proof

open Machine

/-- The drop code of a class, none for an operation (60_exceptions.md R272). -/
def codeOf : FrameClass → Option DropCode
  | .drop c => some c
  | _ => none

theorem codeOf_eq_some {k : FrameClass} {c : DropCode} : codeOf k = some c ↔ k = .drop c := by
  cases k <;> simp [codeOf]

/-- A check that applies and fails decides the code; any other leaves it to the checks behind it. -/
theorem firstFailing_cons (code : DropCode) (a f : Bool) (l : List Check) :
    (((⟨code, a, f⟩ : Check) :: l).find? (fun c => c.applies && c.fails)).map Check.code =
      if (a && f) = true then some code else (l.find? (fun c => c.applies && c.fails)).map Check.code := by
  rw [List.find?_cons]
  cases a && f <;> rfl

theorem validate_eq (F : List Byte) :
    validate F =
      if F.length < 14 then some .runtFrame
      else if frameEt F = 0x0806 ∧ F.length - 14 < 28 then some .arpTruncated
      else if frameEt F = 0x0800 ∧ F.length - 14 < 20 then some .ipTruncated
      else if frameEt F = 0x0800 ∧ frameIhl F < 20 then some .ipBadIhl
      else if frameEt F = 0x0800 ∧ frameTot F < frameIhl F then some .ipBadTotalLength
      else if frameEt F = 0x0800 ∧ F.length - 14 < frameTot F then some .ipLengthExceedsFrame
      else if (frameEt F = 0x0800 ∧ frameProto F = 1) ∧ frameTl F < 4 then some .icmpTruncated
      else if (frameEt F = 0x0800 ∧ frameProto F = 17) ∧ frameTl F < 8 then some .udpTruncated
      else if (frameEt F = 0x0800 ∧ frameProto F = 17) ∧ frameUl F < 8 then some .udpBadLength
      else if (frameEt F = 0x0800 ∧ frameProto F = 17) ∧ frameTl F < frameUl F then some .udpLengthExceedsDatagram
      else none := by
  simp only [validate, checks, firstFailing_cons, List.find?_nil, Option.map_none, Bool.true_and, Bool.and_eq_true,
    decide_eq_true_eq]
  rfl

/-- The checks that are left for an accepted IPv4 header. -/
theorem validate_of_rowIp {F : List Byte} (h : rowIp F = true) :
    validate F =
      if frameProto F = 1 ∧ frameTl F < 4 then some .icmpTruncated
      else if frameProto F = 17 ∧ frameTl F < 8 then some .udpTruncated
      else if frameProto F = 17 ∧ frameUl F < 8 then some .udpBadLength
      else if frameProto F = 17 ∧ frameTl F < frameUl F then some .udpLengthExceedsDatagram
      else none := by
  obtain ⟨hlen, het, hihl, htot, hfit⟩ := rowIp_iff.1 h
  rw [validate_eq, if_neg (by omega), if_neg (by omega), if_neg (by omega), if_neg (by omega), if_neg (by omega),
    if_neg (by omega)]
  simp only [het, true_and]

/-- A datagram whose length field fits is accepted. -/
theorem validate_of_rowUdp {F : List Byte} (h : rowUdp F = true) (hul : 8 ≤ frameUl F) (hfit : frameUl F ≤ frameTl F) :
    validate F = none := by
  obtain ⟨hip, hproto, htl⟩ := rowUdp_iff.1 h
  rw [validate_of_rowIp hip, if_neg (by omega), if_neg (by omega), if_neg (by omega), if_neg (by omega)]

theorem validate_of_rowArith {F : List Byte} (h : rowArith F = true) : validate F = none := by
  obtain ⟨hudp, hul, htl⟩ := rowArith_iff.1 h
  exact validate_of_rowUdp hudp (by omega) (by omega)

/-- The first failing check of a frame has the code of the row that holds for it. -/
theorem validate_of_rowHolds {F : List Byte} {c : FrameClass} (h : rowHolds F c = true) : validate F = codeOf c := by
  cases c with
  | drop code =>
    cases code <;> simp only [rowHolds, Bool.and_eq_true, decide_eq_true_eq, and_assoc] at h <;> rw [codeOf]
    case runtFrame => rw [validate_eq, if_pos h]
    case arpTruncated =>
      obtain ⟨het, hlen, hshort⟩ := h
      rw [validate_eq, if_neg (by omega), if_pos ⟨het, hshort⟩]
    case ipTruncated =>
      obtain ⟨het, hlen, hshort⟩ := h
      rw [ethertypeIpv4_toNat] at het
      rw [validate_eq, if_neg (by omega), if_neg (by omega), if_pos ⟨het, hshort⟩]
    case ipBadIhl =>
      obtain ⟨het, hlen, hihl⟩ := h
      rw [ethertypeIpv4_toNat] at het
      rw [validate_eq, if_neg (by omega), if_neg (by omega), if_neg (by omega), if_pos ⟨het, hihl⟩]
    case ipBadTotalLength =>
      obtain ⟨het, hlen, hihl, htot⟩ := h
      rw [ethertypeIpv4_toNat] at het
      rw [validate_eq, if_neg (by omega), if_neg (by omega), if_neg (by omega), if_neg (by omega), if_pos ⟨het, htot⟩]
    case ipLengthExceedsFrame =>
      obtain ⟨het, hlen, hihl, htot, hlong⟩ := h
      rw [ethertypeIpv4_toNat] at het
      rw [validate_eq, if_neg (by omega), if_neg (by omega), if_neg (by omega), if_neg (by omega), if_neg (by omega),
        if_pos ⟨het, hlong⟩]
    case icmpTruncated =>
      obtain ⟨hip, hproto, htl⟩ := h
      rw [validate_of_rowIp hip, if_pos ⟨hproto, htl⟩]
    case udpTruncated =>
      obtain ⟨hip, hproto, htl⟩ := h
      rw [validate_of_rowIp hip, if_neg (by omega), if_pos ⟨hproto, htl⟩]
    case udpBadLength =>
      obtain ⟨hudp, hul⟩ := h
      obtain ⟨hip, hproto, htl⟩ := rowUdp_iff.1 hudp
      rw [validate_of_rowIp hip, if_neg (by omega), if_neg (by omega), if_pos ⟨hproto, hul⟩]
    case udpLengthExceedsDatagram =>
      obtain ⟨hudp, hul, hlong⟩ := h
      obtain ⟨hip, hproto, htl⟩ := rowUdp_iff.1 hudp
      rw [validate_of_rowIp hip, if_neg (by omega), if_neg (by omega), if_neg (by omega), if_pos ⟨hproto, hlong⟩]
  | arpReply =>
    simp only [rowHolds, Bool.and_eq_true, decide_eq_true_eq] at h
    obtain ⟨het, hlen⟩ := h
    rw [ethertypeArp_toNat] at het
    rw [validate_eq, if_neg (by omega), if_neg (by omega)]
    simp [het, codeOf]
  | icmpEcho =>
    simp only [rowHolds, Bool.and_eq_true, decide_eq_true_eq, and_assoc] at h
    obtain ⟨hip, hproto, htl, -⟩ := h
    rw [validate_of_rowIp hip, if_neg (by omega), if_neg (by omega), if_neg (by omega), if_neg (by omega)]
    rfl
  | icmpPass =>
    simp only [rowHolds, Bool.and_eq_true, decide_eq_true_eq, and_assoc] at h
    obtain ⟨hip, hproto, htl, -⟩ := h
    rw [validate_of_rowIp hip, if_neg (by omega), if_neg (by omega), if_neg (by omega), if_neg (by omega)]
    rfl
  | udpSwap =>
    simp only [rowHolds, Bool.and_eq_true, decide_eq_true_eq, and_assoc] at h
    obtain ⟨hudp, hul, hfit, -⟩ := h
    exact validate_of_rowUdp hudp hul hfit
  | udpSkip =>
    simp only [rowHolds, Bool.and_eq_true] at h
    exact validate_of_rowArith h.1
  | udpAdd =>
    simp only [rowHolds, Bool.and_eq_true, and_assoc] at h
    exact validate_of_rowArith h.1
  | udpSub =>
    simp only [rowHolds, Bool.and_eq_true, and_assoc] at h
    exact validate_of_rowArith h.1
  | udpKeep =>
    simp only [rowHolds, Bool.and_eq_true, and_assoc] at h
    exact validate_of_rowArith h.1
  | ipPass =>
    simp only [rowHolds, Bool.and_eq_true, decide_eq_true_eq, and_assoc] at h
    obtain ⟨hip, hproto1, hproto17⟩ := h
    rw [validate_of_rowIp hip, if_neg (by omega), if_neg (by omega), if_neg (by omega), if_neg (by omega)]
    rfl
  | ethPass =>
    simp only [rowHolds, Bool.and_eq_true, decide_eq_true_eq, and_assoc] at h
    obtain ⟨hlen, hip, harp⟩ := h
    rw [ethertypeIpv4_toNat] at hip
    rw [ethertypeArp_toNat] at harp
    rw [validate_eq, if_neg (by omega), if_neg (by omega)]
    simp [hip, codeOf]

/-- Validation raises the code of the frame's class (60_exceptions.md R272, R275). -/
theorem validate_eq_codeOf (F : List Byte) : validate F = codeOf (classify F) :=
  validate_of_rowHolds (rowHolds_classify F)

/-- Settles O5: validation raises the code of the class, and only a drop class has one. -/
theorem validationIsTheDropClasses : Obligations.ValidationIsTheDropClasses := by
  intro F c
  rw [validate_eq_codeOf, codeOf_eq_some]

/-! ### Fields that select nothing (30_encoding.md R106) -/

@[simp] theorem length_blankBytes (l : List Byte) : (blankBytes l).length = l.length := List.length_replicate

theorem ipWf_blank (ip : IpHdr) (opts : List Byte) (n : Nat) : ipWf (blankIp ip) (blankBytes opts) n = ipWf ip opts n := by
  rw [ipWf, length_blankBytes]
  rfl

theorem arithWf_blank (ip : IpHdr) (opts extra : List Byte) (udp : UdpHdr) :
    arithWf (blankIp ip) (blankBytes opts) (blankUdp udp) (blankBytes extra) = arithWf ip opts udp extra := by
  rw [arithWf, ipWf_blank, length_blankBytes]
  rfl

/-- Well-formedness reads the selectors and the lengths alone, and blanking keeps those. -/
theorem wf_blank (i : Instr) : (blank i).wf = i.wf := by
  cases i <;> simp only [blank, Instr.wf, length_blankBytes, ipWf_blank, arithWf_blank] <;> rfl

theorem classOf_blank (i : Instr) : classOf (blank i) = classOf i := by
  cases i <;> rfl

/-- Settles O6: an instruction and its blanked form are well-formed together and of one class, and the class of a well-formed
instruction's frame is the instruction's. -/
theorem unexaminedFieldsDoNotSelect : Obligations.UnexaminedFieldsDoNotSelect := by
  intro i h
  rw [classify_encode h, classify_encode ((wf_blank i).trans h), classOf_blank]

/-- Settles O3: the four frames are classified and their fields assembled by evaluation. -/
theorem sampleFramesDecode : Obligations.SampleFramesDecode := by
  unfold Obligations.SampleFramesDecode
  decide +kernel

end Sys2Proof

/-! SUPPORT. The two round trips of decoder and encoder (30_encoding.md R100, R102). -/

namespace Sys2Proof

open Machine

/-! ### From an instruction to its frame and back -/

section
variable {mac : MacHdr} {ip : IpHdr} {opts X D pad : List Byte}

/-- `field_transport` at the transport offset itself. -/
theorem field_transport_zero {w : Nat} (h : opts.length + 20 = ihlBytes ip) :
    field w (ipFrame mac ip opts X) (transportOff ip) = field w X 0 := field_transport mac X h 0

/-- `getData_ip` at the transport offset itself. -/
theorem getData_ip_zero (h : ipWf ip opts D.length = true) :
    getData (ipFrame mac ip opts (D ++ pad)) (transportOff ip) = D := getData_ip mac h 0

/-- The data and the padding behind a transport header `H`. -/
theorem getData_getPad_header {H rest : List Byte} {k : Nat} (hk : H.length = k)
    (h : ipWf ip opts (k + rest.length) = true) :
    getData (ipFrame mac ip opts (H ++ (rest ++ pad))) (transportOff ip + k) = rest ∧
      getPad (ipFrame mac ip opts (H ++ (rest ++ pad))) = pad := by
  have hl : (H ++ rest).length = k + rest.length := by rw [List.length_append, hk]
  rw [← hl] at h
  rw [← List.append_assoc, getData_ip mac h, getPad_ip mac h, List.drop_left' hk]
  exact ⟨rfl, rfl⟩

/-- Every field that is assembled from the frame of a mini-protocol datagram, behind its IPv4 header's fixed part. -/
theorem arith_fields (mac : MacHdr) (pad : List Byte) (a b c d : Word) {u : UdpHdr} {extra F : List Byte}
    (h : arithWf ip opts u extra = true)
    (hF : F = ipFrame mac ip opts (udpBytes u ++ (arithBytes a b c d ++ (extra ++ pad)))) :
    getOpts F = opts ∧ getUdp F (frameT F) = u ∧ field 4 F (frameT F + 8) = a ∧ field 4 F (frameT F + 12) = b ∧
      field 4 F (frameT F + 16) = c ∧ field 4 F (frameT F + 20) = d ∧ getData F (frameT F + 24) = extra ∧
      getPad F = pad := by
  obtain ⟨-, hopts, -⟩ := ipWf_iff.1 (arithWf_iff.1 h).1
  obtain ⟨hdata, hpad⟩ := arith_layout mac ip (pad := pad) (a := a) (b := b) (c := c) (d := d) h
  obtain ⟨ha, hb, hc, hd⟩ := field_arithBytes u a b c d (extra ++ pad)
  simp only [hF, frameT_ip, getOpts_ip _ _ hopts, getUdp_ip _ _ _ hopts, field_transport _ _ hopts, ha, hb, hc, hd, hdata,
    hpad, and_self]

end

/-- The fields assembled from the frame of a well-formed instruction are the instruction's. -/
theorem assemble_encode {i : Instr} (h : i.wf = true) : assemble (classOf i) (encode i) = i := by
  cases i with
  | drop1 bytes => rfl
  | drop2 mac rest => simp only [classOf, encode, assemble, getMac_mac, drop_mac]
  | arpReply mac arp trailer =>
    have htrailer : (macBytes mac Config.ethertypeArp ++ (arpBytes arp ++ trailer)).drop 42 = trailer := by
      rw [← List.append_assoc, List.drop_left' (by simp)]
    simp only [classOf, encode, assemble, getMac_mac, getArp_arp, htrailer]
  | drop3 mac rest => simp only [classOf, encode, assemble, getMac_mac, drop_mac]
  | drop4 mac ip rest => simp only [classOf, encode, assemble, getMac_ip, getIp_ip, drop34_ip, List.nil_append]
  | drop5 mac ip rest => simp only [classOf, encode, assemble, getMac_ip, getIp_ip, drop34_ip, List.nil_append]
  | drop6 mac ip rest => simp only [classOf, encode, assemble, getMac_ip, getIp_ip, drop34_ip, List.nil_append]
  | drop7 mac ip opts data pad =>
    obtain ⟨hip, -, -⟩ := wf_drop7.1 h
    obtain ⟨-, hopts, -⟩ := ipWf_iff.1 hip
    simp only [classOf, encode, assemble, getMac_ip, getIp_ip, getOpts_ip _ _ hopts, frameT_ip, getData_ip_zero hip,
      getPad_ip _ hip]
  | icmpEcho mac ip opts code ics rest pad =>
    obtain ⟨hip, -⟩ := wf_icmpEcho.1 h
    obtain ⟨-, hopts, -⟩ := ipWf_iff.1 hip
    obtain ⟨-, hcode, hics⟩ := field_icmpBytes Config.icmpEchoRequest code ics (rest ++ pad)
    obtain ⟨hdata, hpad⟩ := getData_getPad_header (mac := mac) (pad := pad)
      (length_icmpBytes Config.icmpEchoRequest code ics) hip
    simp only [classOf, encode, assemble, getMac_ip, getIp_ip, getOpts_ip _ _ hopts, frameT_ip, field_transport _ _ hopts,
      hcode, hics, hdata, hpad]
  | icmpPass mac ip opts itype code ics rest pad =>
    obtain ⟨hip, -, -⟩ := wf_icmpPass.1 h
    obtain ⟨-, hopts, -⟩ := ipWf_iff.1 hip
    obtain ⟨htype, hcode, hics⟩ := field_icmpBytes itype code ics (rest ++ pad)
    obtain ⟨hdata, hpad⟩ := getData_getPad_header (mac := mac) (pad := pad) (length_icmpBytes itype code ics) hip
    simp only [classOf, encode, assemble, getMac_ip, getIp_ip, getOpts_ip _ _ hopts, frameT_ip, field_transport _ _ hopts,
      field_transport_zero hopts, htype, hcode, hics, hdata, hpad]
  | drop8 mac ip opts data pad =>
    obtain ⟨hip, -, -⟩ := wf_drop8.1 h
    obtain ⟨-, hopts, -⟩ := ipWf_iff.1 hip
    simp only [classOf, encode, assemble, getMac_ip, getIp_ip, getOpts_ip _ _ hopts, frameT_ip, getData_ip_zero hip,
      getPad_ip _ hip]
  | drop9 mac ip opts udp rest pad =>
    obtain ⟨hip, -, -⟩ := wf_drop9.1 h
    obtain ⟨-, hopts, -⟩ := ipWf_iff.1 hip
    obtain ⟨hdata, hpad⟩ := getData_getPad_header (mac := mac) (pad := pad) (length_udpBytes udp) hip
    simp only [classOf, encode, assemble, getMac_ip, getIp_ip, getOpts_ip _ _ hopts, frameT_ip, getUdp_ip _ _ _ hopts,
      hdata, hpad]
  | drop10 mac ip opts udp rest pad =>
    obtain ⟨hip, -, -, -⟩ := wf_drop10.1 h
    obtain ⟨-, hopts, -⟩ := ipWf_iff.1 hip
    obtain ⟨hdata, hpad⟩ := getData_getPad_header (mac := mac) (pad := pad) (length_udpBytes udp) hip
    simp only [classOf, encode, assemble, getMac_ip, getIp_ip, getOpts_ip _ _ hopts, frameT_ip, getUdp_ip _ _ _ hopts,
      hdata, hpad]
  | udpSwap mac ip opts udp payload extra pad =>
    obtain ⟨hip, -, hul, -⟩ := wf_udpSwap.1 h
    obtain ⟨-, hopts, -⟩ := ipWf_iff.1 hip
    have hlen : (udpBytes udp ++ payload).length = udpLen udp := by simp [hul]
    have hfront : udpBytes udp ++ (payload ++ (extra ++ pad)) = (udpBytes udp ++ payload) ++ (extra ++ pad) := by simp
    have hframeUl : frameUl (ipFrame mac ip opts (udpBytes udp ++ (payload ++ (extra ++ pad)))) = udpLen udp := by
      rw [frameUl_ip hopts, rd_udpBytes]
    have hpayload : slice (ipFrame mac ip opts (udpBytes udp ++ (payload ++ (extra ++ pad)))) (transportOff ip + 8)
        (udpLen udp - 8) = payload := by
      rw [slice_transport _ _ hopts, slice_right (length_udpBytes udp) le_rfl, Nat.sub_self, slice_left (by omega)]
    rw [← hul] at hip
    obtain ⟨hdata, hpad⟩ := getData_getPad_header (mac := mac) (pad := pad) hlen hip
    rw [← hfront] at hdata hpad
    simp only [classOf, encode, assemble, getMac_ip, getIp_ip, getOpts_ip _ _ hopts, frameT_ip, getUdp_ip _ _ _ hopts,
      hframeUl, hpayload, hdata, hpad]
  | udpSkip mac ip opts udp kind opA opB oper extra pad =>
    obtain ⟨hopts, hudp, hk, hA, hB, ho, hdata, hpad⟩ :=
      arith_fields mac pad kind opA opB oper (wf_udpSkip.1 h).1 rfl
    simp only [classOf, encode, assemble, getMac_ip, getIp_ip, hopts, hudp, Nat.add_assoc, Nat.reduceMul, Nat.reduceAdd,
      hk, hA, hB, ho, hdata, hpad]
  | udpAdd mac ip opts udp opA opB extra pad =>
    obtain ⟨hopts, hudp, -, hA, hB, -, hdata, hpad⟩ :=
      arith_fields mac pad Config.kindRequest opA opB Config.operAdd h rfl
    simp only [classOf, encode, assemble, getMac_ip, getIp_ip, hopts, hudp, Nat.add_assoc, Nat.reduceMul, Nat.reduceAdd,
      hA, hB, hdata, hpad]
  | udpSub mac ip opts udp opA opB extra pad =>
    obtain ⟨hopts, hudp, -, hA, hB, -, hdata, hpad⟩ :=
      arith_fields mac pad Config.kindRequest opA opB Config.operSub h rfl
    simp only [classOf, encode, assemble, getMac_ip, getIp_ip, hopts, hudp, Nat.add_assoc, Nat.reduceMul, Nat.reduceAdd,
      hA, hB, hdata, hpad]
  | udpKeep mac ip opts udp opA opB oper extra pad =>
    obtain ⟨hopts, hudp, -, hA, hB, ho, hdata, hpad⟩ :=
      arith_fields mac pad Config.kindRequest opA opB oper (wf_udpKeep.1 h).1 rfl
    simp only [classOf, encode, assemble, getMac_ip, getIp_ip, hopts, hudp, Nat.add_assoc, Nat.reduceMul, Nat.reduceAdd,
      hA, hB, ho, hdata, hpad]
  | ipPass mac ip opts data pad =>
    obtain ⟨hip, -, -⟩ := wf_ipPass.1 h
    obtain ⟨-, hopts, -⟩ := ipWf_iff.1 hip
    simp only [classOf, encode, assemble, getMac_ip, getIp_ip, getOpts_ip _ _ hopts, frameT_ip, getData_ip_zero hip,
      getPad_ip _ hip]
  | ethPass mac et payload => simp only [classOf, encode, assemble, getMac_mac, fieldEt_mac, drop_mac]

/-- Settles O1: the frame is of the instruction's class, and the fields assembled for that class are the instruction's. -/
theorem decodeInvertsEncode : Obligations.DecodeInvertsEncode := by
  intro i h
  rw [decode, classify_encode h, assemble_encode h]

end Sys2Proof

namespace Sys2Proof

open Machine

/-! ### From a frame to its instruction and back -/

section
variable {F : List Byte}

/-- The MAC header and everything behind it are the frame. -/
theorem macBytes_getMac_append {et : Half} (h : 14 ≤ F.length) (het : frameEt F = et.toNat) :
    macBytes (getMac F) et ++ F.drop 14 = F := by
  rw [macBytes_getMac h het]
  exact slice_append_drop F 14

/-- MAC and IPv4 headers and everything behind them are the frame. -/
theorem ipFrame_fixed (h : 34 ≤ F.length) (het : frameEt F = 0x0800) : ipFrame (getMac F) (getIp F) [] (F.drop 34) = F := by
  rw [ipFrame, ipBytes_getIp h, List.nil_append, slice_append_drop_from F 14 20, macBytes_getMac_append (by omega) het]

@[simp] theorem ihlBytes_getIp (F : List Byte) : ihlBytes (getIp F) = frameIhl F := by
  simp only [ihlBytes, getIp, frameIhl, BitVec.toNat_ofNat]
  omega

@[simp] theorem totLen_getIp (F : List Byte) : totLen (getIp F) = frameTot F := toNat_field_eq 2 16 F

@[simp] theorem proto_getIp (F : List Byte) : (getIp F).proto.toNat = frameProto F := toNat_field_eq 1 23 F

@[simp] theorem udpLen_getUdp (F : List Byte) : udpLen (getUdp F (frameT F)) = frameUl F := toNat_field_eq 2 _ F

theorem length_getOpts (h : rowIp F = true) : (getOpts F).length + 20 = frameIhl F := by
  obtain ⟨hlen, het, hihl, htot, hfit⟩ := rowIp_iff.1 h
  rw [getOpts, length_slice_of_le (by omega)]
  omega

/-- The lengths of an accepted header, with `n` bytes of transport data. -/
theorem ipWf_getIp {n : Nat} (h : rowIp F = true) (hn : frameTl F = n) : ipWf (getIp F) (getOpts F) n = true := by
  obtain ⟨hlen, het, hihl, htot, hfit⟩ := rowIp_iff.1 h
  rw [frameTl] at hn
  rw [ipWf_iff, ihlBytes_getIp, totLen_getIp]
  exact ⟨hihl, length_getOpts h, by omega⟩

/-- The length of the data from a point of the packet behind the IPv4 header on. -/
theorem length_getData {k : Nat} (h : rowIp F = true) : (getData F (frameT F + k)).length = frameTl F - k := by
  obtain ⟨hlen, het, hihl, htot, hfit⟩ := rowIp_iff.1 h
  simp only [getData, length_slice, frameT, frameTl]
  omega

/-- Data and padding are the rest of the frame. -/
theorem getData_append_getPad {k : Nat} (h : rowIp F = true) (hk : k ≤ frameTl F) :
    getData F (frameT F + k) ++ getPad F = F.drop (frameT F + k) := by
  obtain ⟨hlen, het, hihl, htot, hfit⟩ := rowIp_iff.1 h
  have hend : 14 + frameTot F = frameT F + k + (14 + frameTot F - (frameT F + k)) := by
    simp only [frameT, frameTl] at hk ⊢
    omega
  rw [getData, getPad]
  conv_lhs => enter [2, 1]; rw [hend]
  exact slice_append_drop_from F _ _

/-- The headers of an accepted IPv4 frame with what stands behind them are the frame. -/
theorem ipFrame_getIp {X : List Byte} (h : rowIp F = true) (hX : X = F.drop (frameT F)) :
    ipFrame (getMac F) (getIp F) (getOpts F) X = F := by
  obtain ⟨hlen, het, hihl, htot, hfit⟩ := rowIp_iff.1 h
  have hoff : frameT F = 34 + (frameIhl F - 20) := by rw [frameT]; omega
  have hopts : getOpts F ++ F.drop (frameT F) = F.drop 34 := by rw [hoff, getOpts, slice_append_drop_from]
  have := ipFrame_fixed hlen het
  rwa [ipFrame, List.nil_append, ← hopts, ← hX] at this

/-- The headers of an accepted UDP frame with what stands behind them are the frame. -/
theorem ipFrame_getUdp {X : List Byte} (h : rowUdp F = true) (hX : X = F.drop (frameT F + 8)) :
    ipFrame (getMac F) (getIp F) (getOpts F) (udpBytes (getUdp F (frameT F)) ++ X) = F := by
  obtain ⟨hip, hproto, htl⟩ := rowUdp_iff.1 h
  obtain ⟨hlen, het, hihl, htot, hfit⟩ := rowIp_iff.1 hip
  refine ipFrame_getIp hip ?_
  rw [udpBytes_getUdp (by simp only [frameT, frameTl] at htl ⊢; omega), hX, slice_append_drop_from]

/-- The headers and the four words of a mini-protocol datagram with what stands behind them are the frame. -/
theorem ipFrame_getArith {a b c d : Word} (h : rowArith F = true) (ha : a = field 4 F (frameT F + 8))
    (hb : b = field 4 F (frameT F + 12)) (hc : c = field 4 F (frameT F + 16)) (hd : d = field 4 F (frameT F + 20)) :
    ipFrame (getMac F) (getIp F) (getOpts F)
      (udpBytes (getUdp F (frameT F)) ++ (arithBytes a b c d ++ (getData F (frameT F + 24) ++ getPad F))) = F := by
  obtain ⟨hudp, hul, htl⟩ := rowArith_iff.1 h
  obtain ⟨hip, -, -⟩ := rowUdp_iff.1 hudp
  obtain ⟨hlen, het, hihl, htot, hfit⟩ := rowIp_iff.1 hip
  have hroom : frameT F + 24 ≤ F.length := by simp only [frameT, frameTl] at htl ⊢; omega
  have hwords : arithBytes a b c d = slice F (frameT F + 8) 16 := by
    rw [ha, hb, hc, hd, arithBytes, fieldBytes_field (by omega), fieldBytes_field (by omega), fieldBytes_field (by omega),
      fieldBytes_field (by omega), ← slice_add F _ 4 4, ← slice_add F _ 8 4, ← slice_add F _ 12 4]
  refine ipFrame_getUdp hudp ?_
  rw [hwords, getData_append_getPad hip (by omega), slice_append_drop_from F (frameT F + 8) 16]

theorem arithWf_getUdp (h : rowArith F = true) :
    arithWf (getIp F) (getOpts F) (getUdp F (frameT F)) (getData F (frameT F + 24)) = true := by
  obtain ⟨hudp, hul, htl⟩ := rowArith_iff.1 h
  obtain ⟨hip, hproto, -⟩ := rowUdp_iff.1 hudp
  refine arithWf_iff.2 ⟨ipWf_getIp hip ?_, ?_, by rw [udpLen_getUdp, hul]⟩
  · rw [length_getData hip]; omega
  · exact (eq_iff_toNat (n := 17) rfl).2 ((proto_getIp F).trans hproto)

theorem icmpEchoRequest_eq_field (h : frameItype F = 8) : Config.icmpEchoRequest = field 1 F (frameT F) :=
  BitVec.eq_of_toNat_eq ((toNat_field_eq 1 _ F).trans h).symm

theorem kindRequest_eq_field (h : frameKind F = 1) : Config.kindRequest = field 4 F (frameT F + 8) :=
  BitVec.eq_of_toNat_eq ((toNat_field_eq 4 _ F).trans h).symm

theorem oper_eq_field {c : Word} (h : frameOper F = c.toNat) : c = field 4 F (frameT F + 20) :=
  BitVec.eq_of_toNat_eq ((toNat_field_eq 4 _ F).trans h).symm

end

/-- The row of a class says that the fields assembled for the class are those of a well-formed instruction, and that the
layout of the class writes them back where they were read. -/
theorem assemble_of_rowHolds {F : List Byte} {c : FrameClass} (h : rowHolds F c = true) :
    (assemble c F).wf = true ∧ encode (assemble c F) = F := by
  cases c with
  | drop code =>
    cases code <;> simp only [rowHolds, Bool.and_eq_true, decide_eq_true_eq, and_assoc] at h
    case runtFrame => exact ⟨wf_drop1.2 h, rfl⟩
    case arpTruncated =>
      obtain ⟨het, hlen, hshort⟩ := h
      exact ⟨wf_drop2.2 (by rw [List.length_drop]; omega), macBytes_getMac_append hlen het⟩
    case ipTruncated =>
      obtain ⟨het, hlen, hshort⟩ := h
      exact ⟨wf_drop3.2 (by rw [List.length_drop]; omega), macBytes_getMac_append hlen het⟩
    case ipBadIhl =>
      obtain ⟨het, hlen, hihl⟩ := h
      exact ⟨wf_drop4.2 (by rwa [ihlBytes_getIp]), ipFrame_fixed (by omega) het⟩
    case ipBadTotalLength =>
      obtain ⟨het, hlen, hihl, htot⟩ := h
      exact ⟨wf_drop5.2 (by rw [ihlBytes_getIp, totLen_getIp]; exact ⟨hihl, htot⟩), ipFrame_fixed (by omega) het⟩
    case ipLengthExceedsFrame =>
      obtain ⟨het, hlen, hihl, htot, hlong⟩ := h
      refine ⟨wf_drop6.2 ?_, ipFrame_fixed (by omega) het⟩
      rw [ihlBytes_getIp, totLen_getIp, List.length_drop]
      exact ⟨hihl, htot, by omega⟩
    case icmpTruncated =>
      obtain ⟨hip, hproto, htl⟩ := h
      have hlen := length_getData (k := 0) hip
      exact ⟨wf_drop7.2 ⟨ipWf_getIp hip hlen.symm, (proto_getIp F).trans hproto, lt_of_eq_of_lt hlen htl⟩,
        ipFrame_getIp hip (getData_append_getPad hip (Nat.zero_le _))⟩
    case udpTruncated =>
      obtain ⟨hip, hproto, htl⟩ := h
      have hlen := length_getData (k := 0) hip
      exact ⟨wf_drop8.2 ⟨ipWf_getIp hip hlen.symm, (proto_getIp F).trans hproto, lt_of_eq_of_lt hlen htl⟩,
        ipFrame_getIp hip (getData_append_getPad hip (Nat.zero_le _))⟩
    case udpBadLength =>
      obtain ⟨hudp, hul⟩ := h
      obtain ⟨hip, hproto, htl⟩ := rowUdp_iff.1 hudp
      have hlen := length_getData (k := 8) hip
      exact ⟨wf_drop9.2 ⟨ipWf_getIp hip (by omega), (proto_getIp F).trans hproto, by rwa [udpLen_getUdp]⟩,
        ipFrame_getUdp hudp (getData_append_getPad hip htl)⟩
    case udpLengthExceedsDatagram =>
      obtain ⟨hudp, hul, hlong⟩ := h
      obtain ⟨hip, hproto, htl⟩ := rowUdp_iff.1 hudp
      have hlen := length_getData (k := 8) hip
      refine ⟨wf_drop10.2 ⟨ipWf_getIp hip (by omega), (proto_getIp F).trans hproto, ?_⟩,
        ipFrame_getUdp hudp (getData_append_getPad hip htl)⟩
      rw [udpLen_getUdp]
      omega
  | arpReply =>
    simp only [rowHolds, Bool.and_eq_true, decide_eq_true_eq] at h
    obtain ⟨het, hlen⟩ := h
    refine ⟨rfl, ?_⟩
    simp only [assemble, encode]
    rw [arpBytes_getArp (by omega), slice_append_drop_from F 14 28, macBytes_getMac_append (by omega) het]
  | icmpEcho =>
    simp only [rowHolds, Bool.and_eq_true, decide_eq_true_eq, and_assoc] at h
    obtain ⟨hip, hproto, htl, htype⟩ := h
    obtain ⟨hlen, het, hihl, htot, hfit⟩ := rowIp_iff.1 hip
    have hroom : frameT F + 4 ≤ F.length := by simp only [frameT, frameTl] at htl ⊢; omega
    have hdata := length_getData (k := 4) hip
    refine ⟨wf_icmpEcho.2 ⟨ipWf_getIp hip (by omega), (proto_getIp F).trans hproto⟩, ipFrame_getIp hip ?_⟩
    rw [getData_append_getPad hip htl, icmpBytes, icmpEchoRequest_eq_field htype,
      fieldBytes_field (by omega), fieldBytes_field (by omega), fieldBytes_field (by omega), ← slice_add F _ 1 1,
      ← slice_add F _ 2 2, slice_append_drop_from]
  | icmpPass =>
    simp only [rowHolds, Bool.and_eq_true, decide_eq_true_eq, and_assoc] at h
    obtain ⟨hip, hproto, htl, htype⟩ := h
    obtain ⟨hlen, het, hihl, htot, hfit⟩ := rowIp_iff.1 hip
    have hroom : frameT F + 4 ≤ F.length := by simp only [frameT, frameTl] at htl ⊢; omega
    have hdata := length_getData (k := 4) hip
    refine ⟨wf_icmpPass.2 ⟨ipWf_getIp hip (by omega), (proto_getIp F).trans hproto, ?_⟩, ipFrame_getIp hip ?_⟩
    · rwa [toNat_field_eq]
    · rw [getData_append_getPad hip htl, icmpBytes, fieldBytes_field (by omega), fieldBytes_field (by omega),
        fieldBytes_field (by omega), ← slice_add F _ 1 1, ← slice_add F _ 2 2, slice_append_drop_from]
  | udpSwap =>
    simp only [rowHolds, Bool.and_eq_true, decide_eq_true_eq, and_assoc] at h
    obtain ⟨hudp, hul, hfit, hne⟩ := h
    obtain ⟨hip, hproto, htl⟩ := rowUdp_iff.1 hudp
    obtain ⟨hlen, het, hihl, htot, hend⟩ := rowIp_iff.1 hip
    have hroom : frameT F + 8 + (frameUl F - 8) ≤ F.length := by simp only [frameT, frameTl] at hfit ⊢; omega
    have hpayload := length_slice_of_le hroom
    have hextra := length_getData (k := frameUl F) hip
    have hbehind : frameT F + frameUl F = frameT F + 8 + (frameUl F - 8) := by omega
    refine ⟨wf_udpSwap.2 ⟨ipWf_getIp hip (by omega), (proto_getIp F).trans hproto, ?_⟩, ipFrame_getUdp hudp ?_⟩
    · rw [udpLen_getUdp]
      omega
    · rw [getData_append_getPad hip hfit, hbehind, slice_append_drop_from]
  | udpSkip =>
    simp only [rowHolds, Bool.and_eq_true, decide_eq_true_eq] at h
    obtain ⟨harith, hkind⟩ := h
    exact ⟨wf_udpSkip.2 ⟨arithWf_getUdp harith, by rwa [toNat_field_eq]⟩, ipFrame_getArith harith rfl rfl rfl rfl⟩
  | udpAdd =>
    simp only [rowHolds, Bool.and_eq_true, decide_eq_true_eq, and_assoc] at h
    obtain ⟨harith, hkind, hoper⟩ := h
    exact ⟨arithWf_getUdp harith, ipFrame_getArith harith (kindRequest_eq_field hkind) rfl rfl (oper_eq_field hoper)⟩
  | udpSub =>
    simp only [rowHolds, Bool.and_eq_true, decide_eq_true_eq, and_assoc] at h
    obtain ⟨harith, hkind, hoper⟩ := h
    exact ⟨arithWf_getUdp harith, ipFrame_getArith harith (kindRequest_eq_field hkind) rfl rfl (oper_eq_field hoper)⟩
  | udpKeep =>
    simp only [rowHolds, Bool.and_eq_true, decide_eq_true_eq, and_assoc] at h
    obtain ⟨harith, hkind, hoper1, hoper2⟩ := h
    refine ⟨wf_udpKeep.2 ⟨arithWf_getUdp harith, ?_⟩, ipFrame_getArith harith (kindRequest_eq_field hkind) rfl rfl rfl⟩
    rw [toNat_field_eq]
    exact ⟨hoper1, hoper2⟩
  | ipPass =>
    simp only [rowHolds, Bool.and_eq_true, decide_eq_true_eq, and_assoc] at h
    obtain ⟨hip, hproto1, hproto17⟩ := h
    have hlen := length_getData (k := 0) hip
    refine ⟨wf_ipPass.2 ⟨ipWf_getIp hip hlen.symm, ?_⟩, ipFrame_getIp hip (getData_append_getPad hip (Nat.zero_le _))⟩
    rw [proto_getIp]
    exact ⟨hproto1, hproto17⟩
  | ethPass =>
    simp only [rowHolds, Bool.and_eq_true, decide_eq_true_eq, and_assoc] at h
    obtain ⟨hlen, hip, harp⟩ := h
    have het : (field 2 F 12).toNat = frameEt F := toNat_field_eq 2 12 F
    refine ⟨wf_ethPass.2 ?_, macBytes_getMac_append hlen het.symm⟩
    rw [het]
    exact ⟨hip, harp⟩

theorem wf_decode (F : List Byte) : (decode F).wf = true := (assemble_of_rowHolds (rowHolds_classify F)).1

theorem encode_decode (F : List Byte) : encode (decode F) = F := (assemble_of_rowHolds (rowHolds_classify F)).2

/-- Settles O2: the row of every frame's class holds, and with it both halves. -/
theorem encodeInvertsDecode : Obligations.EncodeInvertsDecode :=
  fun F => ⟨wf_decode F, encode_decode F⟩

end Sys2Proof

/-! SUPPORT. What any instruction can do to a machine: which shared operation it calls with which rewrite of the frame, what a
next state of it looks like, and which bytes its rewrite leaves alone (46_dispatcher.md R220, 20_memory.md R57). -/

namespace Sys2Proof.Machine

/-! ### The one shape of all meanings -/

/-- The rewrite of the frame that an operation makes when the identifier it may draw is `id`; no rewrite for a drop. The
lemmas `exec_of_ipOf` and `exec_of_no_identifier` tie it to `exec`. -/
def rewriteOf : Instr → Half → Memory → Except Fault Memory
  | .ethPass .. => fun _ => macSwap
  | .arpReply .. => fun _ => arpReflection
  | .ipPass _ ip .. => ipv4Reflection ip .ok
  | .icmpEcho _ ip .. => ipv4Reflection ip (icmpEchoRewrite ip)
  | .icmpPass _ ip .. => ipv4Reflection ip .ok
  | .udpSwap _ ip _ udp .. => ipv4Reflection ip (udpRewrite ip udp .ok)
  | .udpSkip _ ip _ udp .. => ipv4Reflection ip (udpRewrite ip udp .ok)
  | .udpAdd _ ip _ udp opA opB .. => ipv4Reflection ip (udpRewrite ip udp (arithRespond (transportOff ip) (opA + opB)))
  | .udpSub _ ip _ udp opA opB .. => ipv4Reflection ip (udpRewrite ip udp (arithRespond (transportOff ip) (opA - opB)))
  | .udpKeep _ ip _ udp opA .. => ipv4Reflection ip (udpRewrite ip udp (arithRespond (transportOff ip) opA))
  | _ => fun _ => .ok

theorem exec_of_dropOf {i : Instr} {c : DropCode} (h : dropOf i = some c) (s : State) : exec i s = raiseDrop c s := by
  cases i <;> cases h <;> rfl

theorem exec_of_ipOf {i : Instr} (h : (ipOf i).isSome) (s : State) : exec i s = reflectWithId (rewriteOf i) s := by
  cases i with
  | ipPass | icmpEcho | icmpPass | udpSwap | udpSkip | udpAdd | udpSub | udpKeep => rfl
  | _ => cases h

/-- The operations without an IPv4 header draw no identifier, so their rewrite is the same for every `id`. -/
theorem exec_of_no_identifier {i : Instr} (hd : dropOf i = none) (hi : ipOf i = none) (id : Half) (s : State) :
    exec i s = reflectWith (rewriteOf i id) s := by
  cases i with
  | ethPass | arpReply => rfl
  | ipPass | icmpEcho | icmpPass | udpSwap | udpSkip | udpAdd | udpSub | udpKeep => cases hi
  | _ => cases hd

theorem ipOf_of_dropOf {i : Instr} {c : DropCode} (h : dropOf i = some c) : ipOf i = none := by
  cases i <;> cases h <;> rfl

theorem idcAfter_of_none {i : Instr} (h : ipOf i = none) (id : Half) : idcAfter i id = id := by
  rw [idcAfter, h]; rfl

theorem idcAfter_of_isSome {i : Instr} (h : (ipOf i).isSome) (id : Half) : idcAfter i id = id + 1 := if_pos h

/-- A reflection that ends in a next state has bumped the lane's block by the frame's length and delivered the frame. -/
theorem finishReflect_next_afterReflect {r : Reflection} {m : Memory} {s t : State} (h : finishReflect r m s = .next t) :
    ∃ b, statAt s.stats r.iface r.worker = some b ∧ t = afterReflect s r b s.idc (bytesOf m) := by
  obtain ⟨b, hb, rfl⟩ := finishReflect_next h
  refine ⟨b, hb, ?_⟩
  rw [afterReflect, length_bytesOf]

/-- Every next state of an instruction: after a drop, or after a reflection of the frame as `rewriteOf` leaves it. -/
theorem exec_next {i : Instr} {s t : State} (h : exec i s = .next t) :
    ∃ r, s.cur = some r ∧
      ((∃ c, dropOf i = some c ∧ t = afterDrop s c) ∨
        (dropOf i = none ∧ ∃ m b, rewriteOf i s.idc r.frame = .ok m ∧ statAt s.stats r.iface r.worker = some b ∧
          t = afterReflect s r b (idcAfter i s.idc) (bytesOf m))) := by
  cases hd : dropOf i with
  | some c =>
    rw [exec_of_dropOf hd] at h
    obtain ⟨⟨r, hr⟩, ht⟩ := raiseDrop_next h
    exact ⟨r, hr, .inl ⟨c, rfl, ht⟩⟩
  | none =>
    cases hi : ipOf i with
    | none =>
      rw [exec_of_no_identifier hd hi s.idc] at h
      obtain ⟨r, m, hr, hm, hf⟩ := reflectWith_next h
      obtain ⟨b, hb, ht⟩ := finishReflect_next_afterReflect hf
      rw [idcAfter_of_none hi]
      exact ⟨r, hr, .inr ⟨rfl, m, b, hm, hb, ht⟩⟩
    | some p =>
      have hsome : (ipOf i).isSome := by rw [hi]; rfl
      rw [exec_of_ipOf hsome] at h
      obtain ⟨r, m, hr, hm, hf⟩ := reflectWithId_next h
      obtain ⟨b, hb, ht⟩ := finishReflect_next_afterReflect hf
      rw [idcAfter_of_isSome hsome]
      exact ⟨r, hr, .inr ⟨rfl, m, b, hm, hb, ht⟩⟩

/-- Settles O24: a drop class raises its code, and the state after is the one with the code delivered. -/
theorem dropsTakeTheException : Obligations.DropsTakeTheException := by
  intro s r i c hr hc
  rw [exec_of_dropOf hc, raiseDrop_of_cur hr]
  rfl

/-! ### No refusal -/

theorem raiseDrop_ne_refused (c : DropCode) (s : State) (why : Refusal) : raiseDrop c s ≠ .refused why := by
  unfold raiseDrop
  split <;> exact nofun

theorem finishReflect_ne_refused (r : Reflection) (m : Memory) (s : State) (why : Refusal) :
    finishReflect r m s ≠ .refused why := by
  unfold finishReflect
  split <;> exact nofun

theorem reflectWith_ne_refused (body : Memory → Except Fault Memory) (s : State) (why : Refusal) :
    reflectWith body s ≠ .refused why := by
  unfold reflectWith
  split
  · exact nofun
  · split
    · exact nofun
    · exact finishReflect_ne_refused _ _ s why

theorem reflectWithId_ne_refused (body : Half → Memory → Except Fault Memory) (s : State) (why : Refusal) :
    reflectWithId body s ≠ .refused why := by
  unfold reflectWithId
  split
  · exact nofun
  · dsimp only
    split
    · exact nofun
    · exact finishReflect_ne_refused _ _ _ why

/-- Settles O25: neither the drop nor an end of a reflection refuses. -/
theorem noInstructionIsRefused : Obligations.NoInstructionIsRefused := by
  intro i s why
  cases hd : dropOf i with
  | some c =>
    rw [exec_of_dropOf hd]
    exact raiseDrop_ne_refused c s why
  | none =>
    cases hi : ipOf i with
    | none =>
      rw [exec_of_no_identifier hd hi s.idc]
      exact reflectWith_ne_refused _ s why
    | some p =>
      rw [exec_of_ipOf (by rw [hi]; rfl)]
      exact reflectWithId_ne_refused _ s why

/-! ### What an instruction leaves alone in State -/

/-- Settles O27: each field of the state after a drop or a reflection; the counter blocks of other lanes by the read of a
block after the write of another. -/
theorem otherStateStaysAsItWas : Obligations.OtherStateStaysAsItWas := by
  intro s t i r hr h
  obtain ⟨r', hr', hdrop | hreflect⟩ := exec_next h <;> cases hr.symm.trans hr'
  · obtain ⟨c, hc, rfl⟩ := hdrop
    exact ⟨rfl, rfl, rfl, rfl, rfl, (idcAfter_of_none (ipOf_of_dropOf hc) _).symm, ⟨_, rfl⟩, fun _ _ _ => rfl,
      fun _ => rfl⟩
  · obtain ⟨hd, m, b, -, -, rfl⟩ := hreflect
    refine ⟨rfl, rfl, rfl, rfl, rfl, rfl, ⟨_, rfl⟩, fun j v hne => statAt_setStat_ne hne, fun hsome => ?_⟩
    rw [hd] at hsome
    cases hsome

/-! ### What a rewrite leaves alone in the frame -/

/-- Offset `a` lies in none of the fields `ws`, each an offset and a length. -/
def Outside (ws : List (Nat × Nat)) (a : Nat) : Prop := ∀ p ∈ ws, a < p.1 ∨ p.1 + p.2 ≤ a

/-- What `f` answers from a frame is a frame of the same length with the same bytes outside the fields `ws`. -/
def Confined (ws : List (Nat × Nat)) (f : Memory → Except Fault Memory) : Prop :=
  ∀ F m, f (ofBytes F) = .ok m → ∃ G, m = ofBytes G ∧ G.length = F.length ∧ ∀ a, Outside ws a → G[a]? = F[a]?

theorem Confined.ok (ws : List (Nat × Nat)) : Confined ws .ok := by
  intro F m h
  cases h
  exact ⟨F, rfl, rfl, fun _ _ => rfl⟩

theorem Confined.bind {ws : List (Nat × Nat)} {f g : Memory → Except Fault Memory} (hf : Confined ws f)
    (hg : Confined ws g) : Confined ws (fun m => f m >>= g) := by
  intro F m h
  obtain ⟨m', hm', h⟩ := bind_eq_ok h
  obtain ⟨G, rfl, hlen, hkeep⟩ := hf F m' hm'
  obtain ⟨H, rfl, hlen', hkeep'⟩ := hg G m h
  exact ⟨H, rfl, hlen'.trans hlen, fun a ha => (hkeep' a ha).trans (hkeep a ha)⟩

/-- Bytes that are read first do not matter for what is written. -/
theorem Confined.loadBytes_bind {ws : List (Nat × Nat)} {a n : Nat} {g : List Byte → Memory → Except Fault Memory}
    (hg : ∀ l, Confined ws (g l)) : Confined ws (fun m => loadBytes m a n >>= fun l => g l m) := by
  intro F m h
  obtain ⟨l, -, h⟩ := bind_eq_ok h
  exact hg l F m h

/-- `n` bytes from `a` on lie in a field of `ws`. -/
def Covers (ws : List (Nat × Nat)) (a n : Nat) : Prop := ∃ p ∈ ws, p.1 ≤ a ∧ a + n ≤ p.1 + p.2

theorem Covers.disjoint {ws : List (Nat × Nat)} {a n k : Nat} (h : Covers ws a n) (hk : Outside ws k) :
    ¬(a ≤ k ∧ k < a + n) := by
  obtain ⟨p, hp, hlo, hhi⟩ := h
  have := hk p hp
  omega

theorem Confined.memWrite {ws : List (Nat × Nat)} {a n : Nat} (v : Nat) (hn : 0 < n) (h : Covers ws a n) :
    Confined ws (fun m => memWrite m a n v) := by
  intro F m hm
  obtain ⟨rfl, hle⟩ := memWrite_ofBytes_ok hn hm
  have hfit : a + (beBytes n v).length ≤ F.length := by rwa [length_beBytes]
  refine ⟨_, rfl, length_splice hfit, fun k hk => ?_⟩
  rw [getElem?_splice hfit, length_beBytes, if_neg (h.disjoint hk)]

theorem Confined.memSwap {ws : List (Nat × Nat)} {a b n : Nat} (hn : 0 < n) (ha : Covers ws a n) (hb : Covers ws b n) :
    Confined ws (fun m => memSwap m a b n) := by
  intro F m hm
  obtain ⟨rfl, hla, hlb⟩ := memSwap_ofBytes_ok hn hm
  have hA := length_slice_of_le hla
  have hB := length_slice_of_le hlb
  have hfit : a + (slice F b n).length ≤ F.length := by rwa [hB]
  have hfit' : b + (slice F a n).length ≤ (splice F a (slice F b n)).length := by rwa [hA, length_splice hfit]
  refine ⟨_, rfl, (length_splice hfit').trans (length_splice hfit), fun k hk => ?_⟩
  rw [getElem?_splice hfit', hA, if_neg (hb.disjoint hk), getElem?_splice hfit, hB, if_neg (ha.disjoint hk)]

theorem Confined.stampChecksum {ws : List (Nat × Nat)} (pre : List Byte) (a n : Nat) {k : Nat} (h : Covers ws k 2) :
    Confined ws (stampChecksum pre a n k) := by
  have hsteps : Machine.stampChecksum pre a n k = fun m => Machine.memWrite m k 2 0 >>= fun m0 =>
      loadBytes m0 a n >>= fun l => Machine.memWrite m0 k 2 (cksum (pre ++ l)).toNat := by
    funext m
    rw [Machine.stampChecksum]
    cases Machine.memWrite m k 2 0 with
    | error f => rfl
    | ok m0 =>
      simp only [ok_bind]
      cases loadBytes m0 a n <;> rfl
  rw [hsteps]
  exact (Confined.memWrite 0 (by omega) h).bind (Confined.loadBytes_bind fun l => Confined.memWrite _ (by omega) h)

theorem macSwap_confined {ws : List (Nat × Nat)} (h : (0, 12) ∈ ws) : Confined ws macSwap :=
  Confined.memSwap (by omega) ⟨_, h, by simp⟩ ⟨_, h, by simp⟩

theorem arpReflection_confined : Confined [(0, 12), (20, 2), (22, 20)] arpReflection :=
  (macSwap_confined (by simp)).bind
    ((Confined.memWrite _ (by omega) ⟨(20, 2), by simp⟩).bind
      (Confined.memSwap (by omega) ⟨(22, 20), by simp⟩ ⟨(22, 20), by simp⟩))

theorem ipv4Reflection_confined {ws : List (Nat × Nat)} (hws : ipWrites ⊆ ws) (ip : IpHdr) (id : Half)
    {body : Memory → Except Fault Memory} (hbody : Confined ws body) : Confined ws (ipv4Reflection ip body id) := by
  have hcov {p : Nat × Nat} (hp : p ∈ ipWrites) {a n : Nat} (hlo : p.1 ≤ a) (hhi : a + n ≤ p.1 + p.2) : Covers ws a n :=
    ⟨p, hws hp, hlo, hhi⟩
  have hsteps : Confined ws (ipv4Steps ip id) :=
    (Confined.memSwap (by omega) (hcov (p := (26, 8)) (by decide) (by decide) (by decide))
      (hcov (p := (26, 8)) (by decide) (by decide) (by decide))).bind
    ((Confined.memWrite _ (by omega) (hcov (p := (18, 2)) (by decide) (by decide) (by decide))).bind
    ((Confined.memWrite _ (by omega) (hcov (p := (20, 1)) (by decide) (by decide) (by decide))).bind
    (Confined.stampChecksum _ _ _ (hcov (p := (24, 2)) (by decide) (by decide) (by decide)))))
  exact (macSwap_confined (hws (by decide))).bind (hsteps.bind hbody)

theorem icmpEchoRewrite_confined (ip : IpHdr) :
    Confined (ipWrites ++ [(transportOff ip, 1), (transportOff ip + 2, 2)]) (icmpEchoRewrite ip) :=
  (Confined.memWrite _ (by omega) ⟨(transportOff ip, 1), by simp⟩).bind
    (Confined.stampChecksum _ _ _ ⟨(transportOff ip + 2, 2), by simp⟩)

theorem udpRewrite_confined {ws : List (Nat × Nat)} {ip : IpHdr} (hws : udpWrites ip ⊆ ws) (udp : UdpHdr)
    {engine : Memory → Except Fault Memory} (hengine : Confined ws engine) : Confined ws (udpRewrite ip udp engine) := by
  have hports : (transportOff ip, 4) ∈ ws := hws (by simp [udpWrites])
  have hsum : (transportOff ip + 6, 2) ∈ ws := hws (by simp [udpWrites])
  exact (Confined.memSwap (by omega) ⟨_, hports, by simp⟩ ⟨_, hports, by simp⟩).bind
    (hengine.bind (Confined.loadBytes_bind fun src => Confined.loadBytes_bind fun dst =>
      Confined.stampChecksum _ _ _ ⟨_, hsum, by simp⟩))

theorem arithRespond_confined {ws : List (Nat × Nat)} {t : Nat} (h : (t + 8, 16) ∈ ws) (v : Word) :
    Confined ws (arithRespond t v) :=
  (Confined.memWrite _ (by omega) ⟨_, h, by simp⟩).bind
    ((Confined.memWrite _ (by omega) ⟨_, h, by simp⟩).bind
      ((Confined.memWrite _ (by omega) ⟨_, h, by simp⟩).bind (Confined.memWrite _ (by omega) ⟨_, h, by simp⟩)))

/-- The rewrite of a mini-protocol request with result `v` writes the fields of the UDP reflector and the four words. -/
theorem arithReflection_confined (ip : IpHdr) (udp : UdpHdr) (v : Word) (id : Half) :
    Confined (udpWrites ip ++ [(transportOff ip + 8, 16)])
      (ipv4Reflection ip (udpRewrite ip udp (arithRespond (transportOff ip) v)) id) :=
  ipv4Reflection_confined (fun _ h => by simp [udpWrites, h]) ip id
    (udpRewrite_confined (List.subset_append_left _ _) udp (arithRespond_confined (by simp) v))

theorem udpReflection_confined (ip : IpHdr) (udp : UdpHdr) (id : Half) :
    Confined (udpWrites ip) (ipv4Reflection ip (udpRewrite ip udp .ok) id) :=
  ipv4Reflection_confined (List.subset_append_left _ _) ip id
    (udpRewrite_confined (List.Subset.refl _) udp (Confined.ok _))

/-- The rewrite of every instruction stays within the fields that `writes` lists for it. -/
theorem rewriteOf_confined (i : Instr) (id : Half) : Confined (writes i) (rewriteOf i id) := by
  cases i with
  | ethPass => exact macSwap_confined (by simp [writes])
  | arpReply => exact arpReflection_confined
  | ipPass _ ip => exact ipv4Reflection_confined (List.Subset.refl _) ip id (Confined.ok _)
  | icmpPass _ ip => exact ipv4Reflection_confined (List.Subset.refl _) ip id (Confined.ok _)
  | icmpEcho _ ip =>
    exact ipv4Reflection_confined (List.subset_append_left _ _) ip id (icmpEchoRewrite_confined ip)
  | udpSwap _ ip _ udp => exact udpReflection_confined ip udp id
  | udpSkip _ ip _ udp => exact udpReflection_confined ip udp id
  | udpAdd _ ip _ udp => exact arithReflection_confined ip udp _ id
  | udpSub _ ip _ udp => exact arithReflection_confined ip udp _ id
  | udpKeep _ ip _ udp => exact arithReflection_confined ip udp _ id
  | drop1 | drop2 | drop3 | drop4 | drop5 | drop6 | drop7 | drop8 | drop9 | drop10 => exact Confined.ok _

/-- Settles O26: an outcome that delivers a frame is a reflection's, and its rewrite is confined to the fields written. -/
theorem otherBytesLeaveAsTheyCame : Obligations.OtherBytesLeaveAsTheyCame := by
  intro s t i r F F' j rest hr hF h hdel
  obtain ⟨r', hr', hdrop | hreflect⟩ := exec_next h <;> cases hr.symm.trans hr'
  · obtain ⟨c, -, rfl⟩ := hdrop
    cases hdel
  · obtain ⟨-, m, b, hm, -, rfl⟩ := hreflect
    rw [hF] at hm
    obtain ⟨G, rfl, hlen, hkeep⟩ := rewriteOf_confined i s.idc F m hm
    rw [afterReflect_delivered, bytesOf_ofBytes] at hdel
    cases hdel
    exact ⟨rfl, rfl, hlen, hkeep⟩

/-! ### The statistics update and the mini-protocol's arithmetic -/

/-- Settles O35: the update replaces the lane's block by the bumped one. -/
theorem statsUpdateExact : Obligations.StatsUpdateExact := by
  intro s i w L b hb
  refine ⟨{ s with stats := setStat s.stats i w (bumpBlock b L) }, bumpBlock b L, by simp only [statsUpdate, hb],
    statAt_setStat_self hb, ?_, ?_, ?_, ?_, ?_, fun j v hne => statAt_setStat_ne hne, rfl⟩
  all_goals simp [BitVec.toNat_add]

/-- Settles O37: sums and differences of words are those of their numbers, unsigned or signed, modulo 2^32. -/
theorem arithmeticIsModular : Obligations.ArithmeticIsModular := by
  intro a b
  have ha := a.isLt
  have hb := b.isLt
  refine ⟨BitVec.toNat_add a b, ?_, ?_, ?_, rfl⟩
  · rw [arithSub, BitVec.toNat_sub]
    split <;> omega
  · rw [arithAdd, BitVec.ofInt_add, BitVec.ofInt_toInt, BitVec.ofInt_toInt]
  · rw [arithSub, Int.sub_eq_add_neg, BitVec.ofInt_add, BitVec.ofInt_neg, BitVec.ofInt_toInt, BitVec.ofInt_toInt,
      BitVec.sub_eq_add_neg]

end Sys2Proof.Machine

/-! SUPPORT. The laws of the checksum engine (40_checksum.md R122 to R131). -/

namespace Sys2Proof.Machine

/-! ### Folding (40_checksum.md R122) -/

/-- As many passes as the sum is large leave at most 16 bits: a pass over a larger sum makes it smaller. -/
theorem foldCarry_le {fuel s : Nat} (h : s ≤ fuel) : foldCarry fuel s ≤ 65535 := by
  induction fuel generalizing s with
  | zero => rw [foldCarry]; omega
  | succ n ih =>
    rw [foldCarry]
    split
    · omega
    · exact ih (by omega)

theorem foldCarry_eq_zero (fuel s : Nat) : foldCarry fuel s = 0 ↔ s = 0 := by
  induction fuel generalizing s with
  | zero => rfl
  | succ n ih =>
    rw [foldCarry]
    split
    · rfl
    · rw [ih]; omega

theorem foldSum_le (s : Nat) : foldSum s ≤ 65535 := foldCarry_le le_rfl

theorem foldSum_mod (s : Nat) : foldSum s % 65535 = s % 65535 := foldCarry_mod s s

theorem foldSum_eq_zero (s : Nat) : foldSum s = 0 ↔ s = 0 := foldCarry_eq_zero s s

/-- A non-zero multiple of 65535 folds to 0xFFFF. -/
theorem foldSum_eq_max {s : Nat} (hne : s ≠ 0) (hmod : s % 65535 = 0) : foldSum s = 65535 := by
  have hle := foldSum_le s
  have hmod' := foldSum_mod s
  have hzero := (foldSum_eq_zero s).not.2 hne
  omega

/-- Below 2^32 the first pass leaves at most 0x1FFFE, so the second one leaves 16 bits. -/
theorem foldCarry_two_le {s : Nat} (h : s < 2 ^ 32) : foldCarry 2 s ≤ 65535 := by
  simp only [foldCarry]
  split
  · omega
  · split <;> omega

/-- Two folds of one sum that both leave at most 16 bits are equal: they have the residue in common, and are zero together. -/
theorem foldCarry_two {s : Nat} (h : s < 2 ^ 32) : foldCarry 2 s = foldSum s := by
  have hle := foldCarry_two_le h
  have hle' := foldSum_le s
  have hmod := (foldCarry_mod 2 s).trans (foldSum_mod s).symm
  have hzero := (foldCarry_eq_zero 2 s).trans (foldSum_eq_zero s).symm
  omega

theorem wordSum_eq_zero (B : List Byte) : wordSum B = 0 ↔ ∀ b ∈ B, b = 0 := by
  have hbyte (b : Byte) : b.toNat = 0 ↔ b = 0 := (eq_iff_toNat (c := (0 : Byte)) rfl).symm
  induction B using wordSum.induct with
  | case1 => simp [wordSum]
  | case2 b => simp [wordSum, hbyte]
  | case3 a b l ih => simp [wordSum, ih, hbyte, and_assoc]

/-- Settles O7: the bound, the residue and the zero of a fold determine it. -/
theorem foldedSumIsResidue : Obligations.FoldedSumIsResidue := by
  intro s
  refine ⟨foldSum_le s, fun h => ⟨by omega, foldCarry_two h⟩, fun h => ?_, foldSum_eq_max, foldSum_eq_zero s,
    wordSum_eq_zero⟩
  have hle := foldSum_le s
  have hmod := foldSum_mod s
  omega

/-! ### Zeros, odd lengths and stored checksums (40_checksum.md R123, R128) -/

theorem wordSum_replicate_zero (n : Nat) : wordSum (List.replicate n 0) = 0 :=
  (wordSum_eq_zero _).2 fun _ hb => List.eq_of_mem_replicate hb

/-- Settles O8: behind an even number of bytes the last byte is a word of its own, and so is it with a zero byte behind it. -/
theorem oddByteIsHighByte : Obligations.OddByteIsHighByte := by
  intro B b h
  have hodd : wordSum (B ++ [b]) = wordSum B + b.toNat * 256 := wordSum_append B [b] h
  have heven : wordSum (B ++ [b, 0]) = wordSum B + b.toNat * 256 := by
    rw [wordSum_append B [b, 0] h]
    simp [wordSum]
  exact ⟨hodd, by rw [cksum, cksum, hodd, heven]⟩

theorem cksum_toNat (B : List Byte) : (cksum B).toNat = 65535 - foldSum (wordSum B) := by
  rw [cksum, BitVec.toNat_ofNat]
  exact Nat.mod_eq_of_lt (by simp only [Nat.reducePow]; omega)

theorem cksum_eq_zero {B : List Byte} (hne : wordSum B ≠ 0) (hmod : wordSum B % 65535 = 0) : cksum B = 0 := by
  rw [cksum, foldSum_eq_max hne hmod]
  rfl

/-- A field at an even offset is a word of the sum. -/
theorem wordSum_field {pre : List Byte} (h : pre.length % 2 = 0) (v : Half) (post : List Byte) :
    wordSum (pre ++ (fieldBytes 2 v ++ post)) = wordSum pre + (v.toNat + wordSum post) := by
  rw [wordSum_append _ _ h, wordSum_append _ _ (by simp), wordSum_fieldBytes]

/-- A stored checksum makes the whole buffer validate: the sum with it is a non-zero multiple of 65535. -/
theorem cksum_stored {pre : List Byte} (h : pre.length % 2 = 0) (post : List Byte) :
    cksum (pre ++ (fieldBytes 2 (cksum (pre ++ (fieldBytes 2 0 ++ post))) ++ post)) = 0 := by
  have hzero := wordSum_field h 0 post
  have hstored := wordSum_field h (cksum (pre ++ (fieldBytes 2 0 ++ post))) post
  have hle := foldSum_le (wordSum (pre ++ (fieldBytes 2 0 ++ post)))
  have hmod := foldSum_mod (wordSum (pre ++ (fieldBytes 2 0 ++ post)))
  have hpos := foldSum_eq_zero (wordSum (pre ++ (fieldBytes 2 0 ++ post)))
  rw [cksum_toNat] at hstored
  rw [show (0 : Half).toNat = 0 from rfl] at hzero
  exact cksum_eq_zero (by omega) (by omega)

/-- Settles O9: zeros sum to zero, and a stored checksum completes the sum to a multiple of 65535. -/
theorem checksumZeroFieldLaw : Obligations.ChecksumZeroFieldLaw := by
  refine ⟨fun n => ?_, fun pre post h => cksum_stored h post⟩
  rw [cksum, wordSum_replicate_zero]
  rfl

/-! ### Order and samples (40_checksum.md R124, R126, R131) -/

theorem wordSum_flatMap (ws : List Half) (tail : List Byte) :
    wordSum (ws.flatMap (fieldBytes 2) ++ tail) = (ws.map BitVec.toNat).sum + wordSum tail := by
  induction ws with
  | nil => simp
  | cons v ws ih =>
    rw [List.flatMap_cons, List.append_assoc, wordSum_append _ _ (by simp), wordSum_fieldBytes, ih, List.map_cons,
      List.sum_cons, Nat.add_assoc]

/-- Settles O10: the sum of the words does not depend on their order. -/
theorem checksumOrderIndependent : Obligations.ChecksumOrderIndependent := by
  intro ws vs tail h
  rw [cksum, cksum, wordSum_flatMap, wordSum_flatMap, (h.map BitVec.toNat).sum_eq]

/-- Settles O11: six evaluations of the engine. -/
theorem checksumCornerCases : Obligations.ChecksumCornerCases := by
  unfold Obligations.ChecksumCornerCases
  decide +kernel

end Sys2Proof.Machine

/-! SUPPORT. Reads after writes in any frame space, and the swap on a frame (20_memory.md R51, 00_scope.md R14). -/

namespace Sys2Proof.Machine

/-- A read after a store: the stored byte inside the field, the byte from before outside. -/
theorem readByte_storeBytes {m m' : Memory} {a : Nat} {bs : List Byte} (h : storeBytes m a bs = .ok m') (k : Nat) :
    readByte m' k = if a ≤ k ∧ k < a + bs.length then bs[k - a]? else readByte m k := by
  induction bs generalizing m a with
  | nil =>
    cases h
    rw [if_neg (by simp only [List.length_nil]; omega)]
  | cons b l ih =>
    rw [storeBytes] at h
    split at h
    · cases h
    · rw [ih h, readByte_writeByte, List.length_cons]
      by_cases hk : k = a
      · rw [if_neg (by omega), if_pos hk, if_pos (by omega), hk, Nat.sub_self, List.getElem?_cons_zero]
      · rw [if_neg hk]
        by_cases hin : a + 1 ≤ k ∧ k < a + 1 + l.length
        · rw [if_pos hin, if_pos (by omega), show k - a = (k - (a + 1)) + 1 by omega, List.getElem?_cons_succ]
        · rw [if_neg hin, if_neg (by omega)]

/-- The bytes that stand from `a` on are the ones loaded from there. -/
theorem loadBytes_of_readByte {m : Memory} {a : Nat} {bs : List Byte}
    (h : ∀ k, k < bs.length → readByte m (a + k) = bs[k]?) : loadBytes m a bs.length = .ok bs := by
  induction bs generalizing a with
  | nil => rfl
  | cons b l ih =>
    have hfirst : readByte m a = some b := h 0 (Nat.succ_pos _)
    have hrest : loadBytes m (a + 1) l.length = .ok l := by
      refine ih fun k hk => ?_
      rw [Nat.add_assoc, Nat.add_comm 1 k]
      exact h (k + 1) (Nat.succ_lt_succ hk)
    simp only [List.length_cons, loadBytes, hfirst, hrest]

/-- Settles O12: the read of each address after the store of the value's bytes. -/
theorem writeIsReadBack : Obligations.WriteIsReadBack := by
  intro m m' a n v h
  have hread := readByte_storeBytes h
  rw [length_beBytes] at hread
  constructor
  · have hall : ∀ k, k < (beBytes n v).length → readByte m' (a + k) = (beBytes n v)[k]? := by
      intro k hk
      rw [length_beBytes] at hk
      rw [hread, if_pos (by omega), Nat.add_sub_cancel_left]
    simpa only [length_beBytes] using loadBytes_of_readByte hall
  · intro k hk
    rw [hread, if_neg (by omega)]

/-- Settles O13: the swap writes each field over the other, and each address lies in one of the fields or in none. -/
theorem swapExchangesTwoFields : Obligations.SwapExchangesTwoFields := by
  intro F a b n hab hb
  have hA := length_slice_of_le (show a + n ≤ F.length by omega)
  have hB := length_slice_of_le hb
  have hfitA : a + (slice F b n).length ≤ F.length := by omega
  have hlen := length_splice hfitA
  have hfitB : b + (slice F a n).length ≤ (splice F a (slice F b n)).length := by omega
  have hat (k : Nat) : (splice (splice F a (slice F b n)) b (slice F a n))[k]? =
      if b ≤ k ∧ k < b + n then (slice F a n)[k - b]?
      else if a ≤ k ∧ k < a + n then (slice F b n)[k - a]? else F[k]? := by
    rw [getElem?_splice hfitB, hA, getElem?_splice hfitA, hB]
  refine ⟨_, memSwap_ofBytes (by omega) hb, (length_splice hfitB).trans hlen, ?_, ?_, fun k hk hk' => ?_⟩
  · refine List.ext_getElem? fun k => ?_
    rw [getElem?_slice, getElem?_slice]
    split
    · rw [hat, if_neg (by omega), if_pos (by omega), Nat.add_sub_cancel_left, getElem?_slice, if_pos ‹_›]
    · rfl
  · refine List.ext_getElem? fun k => ?_
    rw [getElem?_slice, getElem?_slice]
    split
    · rw [hat, if_pos (by omega), Nat.add_sub_cancel_left, getElem?_slice, if_pos ‹_›]
    · rfl
  · rw [hat, if_neg (by omega), if_neg (by omega)]

end Sys2Proof.Machine

/-! SUPPORT. The reply of an accepted frame, as a frame (46_dispatcher.md R220, R228): its class, its shape by format, and what
its fields and its checksums are (43_ipv4.md R170 to R179, 44_icmp.md R191, 45_udp.md R204). -/

namespace Sys2Proof.Machine

/-! ### The reply is well-formed and as long as the frame (46_dispatcher.md R228) -/

/-- The response to a mini-protocol request is a datagram of the class UDP.SKIP. -/
theorem wf_replyArith {ip : IpHdr} {opts : List Byte} {udp : UdpHdr} {extra : List Byte}
    (h : arithWf ip opts udp extra = true) (id : Half) (mac : MacHdr) (v : Word) (pad : List Byte) :
    (replyArith id mac ip opts udp v extra pad).wf = true :=
  wf_udpSkip.2 ⟨h, by decide⟩

theorem wf_reply {i : Instr} (h : i.wf = true) (id : Half) : (reply id i).wf = true := by
  cases i with
  | icmpEcho _ ip opts =>
    obtain ⟨hip, hproto⟩ := wf_icmpEcho.1 h
    exact wf_icmpPass.2 ⟨hip, hproto, by decide⟩
  | udpAdd => exact wf_replyArith h ..
  | udpSub => exact wf_replyArith h ..
  | udpKeep => exact wf_replyArith (wf_udpKeep.1 h).1 ..
  | _ => exact h

theorem length_reply (i : Instr) (id : Half) : (encode (reply id i)).length = (encode i).length := by
  cases i with
  | arpReply => simp [reply, encode]
  | ethPass => simp [reply, encode]
  | ipPass | icmpEcho | icmpPass | udpSwap | udpSkip | udpAdd | udpSub | udpKeep =>
    simp [reply, replyArith, encode, ipFrame_length]
  | _ => rfl

/-- Settles O33: each class of reply has the lengths and the selectors of the frame it answers, or those of its answer's class. -/
theorem replyIsWellFormed : Obligations.ReplyIsWellFormed :=
  fun id i h => ⟨wf_reply h id, length_reply i id⟩

/-- The frame of a reply decodes to the reply. -/
theorem decode_reply {i : Instr} (h : i.wf = true) (id : Half) : decode (encode (reply id i)) = reply id i :=
  decodeInvertsEncode _ (wf_reply h id)

/-! ### An operation on its loaded frame -/

/-- The ten results as one: an operation on its loaded frame answers with the frame of its reply. -/
theorem exec_of_loaded {s : State} {i : Instr} {r : Reflection} {b : StatBlock} (hl : Loaded s i r b)
    (hd : dropOf i = none) :
    exec i s = .next (afterReflect s r b (idcAfter i s.idc) (encode (reply s.idc i))) := by
  cases i with
  | ethPass => exact ethPassResult _ _ _ _ _ _ hl
  | arpReply => exact arpReplyResult _ _ _ _ _ _ hl
  | ipPass => exact ipPassResult _ _ _ _ _ _ _ _ hl
  | icmpEcho => exact icmpEchoResult _ _ _ _ _ _ _ _ _ _ hl
  | icmpPass => exact icmpPassResult _ _ _ _ _ _ _ _ _ _ _ hl
  | udpSwap => exact udpSwapResult _ _ _ _ _ _ _ _ _ _ hl
  | udpSkip => exact udpSkipResult _ _ _ _ _ _ _ _ _ _ _ _ _ hl
  | udpAdd => exact udpAddResult _ _ _ _ _ _ _ _ _ _ _ hl
  | udpSub mac ip opts udp opA opB extra pad =>
    have h := udpSubResult _ _ _ _ _ _ _ _ _ _ _ hl
    rwa [ofInt_toNat_sub_toNat] at h
  | udpKeep => exact udpKeepResult _ _ _ _ _ _ _ _ _ _ _ _ hl
  | _ => cases hd

theorem dropOf_of_ipOf {i : Instr} (h : (ipOf i).isSome) : dropOf i = none := by
  cases hd : dropOf i with
  | none => rfl
  | some c => rw [ipOf_of_dropOf hd] at h; cases h

/-- What an IPv4 operation on its loaded frame does. -/
theorem exec_of_loaded_ip {s : State} {i : Instr} {r : Reflection} {b : StatBlock} (hl : Loaded s i r b)
    (h : (ipOf i).isSome) : exec i s = .next (afterReflect s r b (s.idc + 1) (encode (reply s.idc i))) := by
  rw [exec_of_loaded hl (dropOf_of_ipOf h), idcAfter_of_isSome h]

/-! ### The shape of a reply -/

/-- The frames of an instruction and of its replies begin with a MAC header, which the reply has swapped. -/
theorem macBytes_reply {i : Instr} (h : dropOf i = none) :
    ∃ mac et X, encode i = macBytes mac et ++ X ∧ ∀ id, ∃ Y, encode (reply id i) = macBytes (swapMac mac) et ++ Y := by
  cases i with
  | ethPass | arpReply | ipPass | icmpEcho | icmpPass | udpSwap | udpSkip | udpAdd | udpSub | udpKeep =>
    exact ⟨_, _, _, rfl, fun id => ⟨_, rfl⟩⟩
  | _ => cases h

/-- The frames of an IPv4 operation and of its replies: the reply's headers, and transport bytes that do not depend on the
identifier. -/
theorem ipFrame_reply {i : Instr} {ip : IpHdr} {opts : List Byte} (hwf : i.wf = true) (h : ipOf i = some (ip, opts)) :
    opts.length + 20 = ihlBytes ip ∧ ∃ mac X Y, encode i = ipFrame mac ip opts X ∧
      ∀ id, encode (reply id i) = ipFrame (swapMac mac) (replyIp id ip opts) opts Y := by
  suffices hopts : opts.length + 20 = ihlBytes ip by
    refine ⟨hopts, ?_⟩
    cases i <;> cases h <;> exact ⟨_, _, _, rfl, fun id => rfl⟩
  cases i with
  | ipPass => cases h; exact (ipWf_iff.1 (wf_ipPass.1 hwf).1).2.1
  | icmpEcho => cases h; exact (ipWf_iff.1 (wf_icmpEcho.1 hwf).1).2.1
  | icmpPass => cases h; exact (ipWf_iff.1 (wf_icmpPass.1 hwf).1).2.1
  | udpSwap => cases h; exact (ipWf_iff.1 (wf_udpSwap.1 hwf).1).2.1
  | udpSkip => cases h; exact (ipWf_iff.1 (arithWf_iff.1 (wf_udpSkip.1 hwf).1).1).2.1
  | udpAdd => cases h; exact (ipWf_iff.1 (arithWf_iff.1 hwf).1).2.1
  | udpSub => cases h; exact (ipWf_iff.1 (arithWf_iff.1 hwf).1).2.1
  | udpKeep => cases h; exact (ipWf_iff.1 (arithWf_iff.1 (wf_udpKeep.1 hwf).1).1).2.1
  | _ => cases h

/-- The frames of a UDP operation and of its replies: ports swapped, a payload `q` that the length field covers, its
checksum. -/
theorem udpFrame_reply {i : Instr} {ip : IpHdr} {udp : UdpHdr} (hwf : i.wf = true) (h : udpOf i = some (ip, udp)) :
    ∃ mac opts p q X, ipOf i = some (ip, opts) ∧ udpLen udp = 8 + q.length ∧
      encode i = ipFrame mac ip opts (udpBytes udp ++ (p ++ X)) ∧
      ∀ id, encode (reply id i) =
        ipFrame (swapMac mac) (replyIp id ip opts) opts (udpBytes (replyUdp ip udp q) ++ (q ++ X)) := by
  have harith {opts extra : List Byte} {a b c d : Word} (h : arithWf ip opts udp extra = true) :
      udpLen udp = 8 + (arithBytes a b c d).length := by
    rw [(arithWf_iff.1 h).2.2, length_arithBytes]
  cases i with
  | udpSwap => cases h; exact ⟨_, _, _, _, _, rfl, (wf_udpSwap.1 hwf).2.2.1, rfl, fun id => rfl⟩
  | udpSkip => cases h; exact ⟨_, _, _, _, _, rfl, harith (wf_udpSkip.1 hwf).1, rfl, fun id => rfl⟩
  | udpAdd => cases h; exact ⟨_, _, _, _, _, rfl, harith hwf, rfl, fun id => rfl⟩
  | udpSub => cases h; exact ⟨_, _, _, _, _, rfl, harith hwf, rfl, fun id => rfl⟩
  | udpKeep => cases h; exact ⟨_, _, _, _, _, rfl, harith (wf_udpKeep.1 hwf).1, rfl, fun id => rfl⟩
  | _ => cases h

/-! ### Parts of an IPv4 frame -/

section
variable (mac : MacHdr) (ip : IpHdr) (opts X : List Byte)

/-- A field of a frame as the bytes that stand there. -/
theorem slice_of_field {w a : Nat} {F : List Byte} {v : BitVec (8 * w)} (h : a + w ≤ F.length) (hv : field w F a = v) :
    slice F a w = fieldBytes w v := by
  rw [← hv, fieldBytes_field h]

theorem slice_ident : slice (ipFrame mac ip opts X) 18 2 = fieldBytes 2 ip.ident :=
  slice_of_field (by rw [ipFrame_length]; omega) (congrArg IpHdr.ident (getIp_ip mac ip opts X))

theorem slice_fragFlags : slice (ipFrame mac ip opts X) 20 1 = fieldBytes 1 ip.fragFlags :=
  slice_of_field (by rw [ipFrame_length]; omega) (congrArg IpHdr.fragFlags (getIp_ip mac ip opts X))

theorem slice_addresses : slice (ipFrame mac ip opts X) 26 8 = fieldBytes 4 ip.src ++ fieldBytes 4 ip.dst := by
  have hsrc : slice (ipFrame mac ip opts X) 26 4 = fieldBytes 4 ip.src :=
    slice_of_field (by rw [ipFrame_length]; omega) (congrArg IpHdr.src (getIp_ip mac ip opts X))
  have hdst : slice (ipFrame mac ip opts X) 30 4 = fieldBytes 4 ip.dst :=
    slice_of_field (by rw [ipFrame_length]; omega) (congrArg IpHdr.dst (getIp_ip mac ip opts X))
  rw [slice_add _ 26 4 4, hsrc, hdst]

/-- The whole header, options included. -/
theorem slice_header : slice (ipFrame mac ip opts X) 14 (20 + opts.length) = ipBytes ip ++ opts := by
  rw [ipFrame, slice_right (length_macBytes _ _) le_rfl, ← List.append_assoc, slice_left (by simp)]

/-- A header is its first ten bytes, its checksum, and the rest. -/
theorem ipBytes_around_hcs :
    ∃ P R, P.length = 10 ∧ ∀ h, ipBytes { ip with hcs := h } ++ opts = P ++ (fieldBytes 2 h ++ R) :=
  ⟨beBytes 1 (ip.version.toNat * 16 + ip.ihl.toNat) ++ (fieldBytes 1 ip.tos ++ (fieldBytes 2 ip.tot ++
      (fieldBytes 2 ip.ident ++ (fieldBytes 1 ip.fragFlags ++ (fieldBytes 1 ip.fragLow ++ (fieldBytes 1 ip.ttl ++
      fieldBytes 1 ip.proto)))))), fieldBytes 4 ip.src ++ (fieldBytes 4 ip.dst ++ opts), by simp,
    fun h => by simp [ipBytes]⟩


/-- The frame of a reply is the same for every identifier but for the identifier field and the header checksum. -/
theorem ipFrame_replyIp_around (Y : List Byte) :
    ∃ P Q R, P.length = 18 ∧ Q.length = 4 ∧ ∀ id, ipFrame mac (replyIp id ip opts) opts Y =
      P ++ (fieldBytes 2 id ++ (Q ++ (fieldBytes 2 (replyIp id ip opts).hcs ++ R))) :=
  ⟨macBytes mac Config.ethertypeIpv4 ++ (beBytes 1 (ip.version.toNat * 16 + ip.ihl.toNat) ++ (fieldBytes 1 ip.tos ++
      fieldBytes 2 ip.tot)), fieldBytes 1 (0 : Byte) ++ (fieldBytes 1 ip.fragLow ++ (fieldBytes 1 ip.ttl ++
      fieldBytes 1 ip.proto)), fieldBytes 4 ip.dst ++ (fieldBytes 4 ip.src ++ (opts ++ Y)), by simp, by simp,
    fun id => by simp [ipFrame, ipBytes, replyIp, rewrittenIp]⟩

variable {mac ip opts X}

theorem slice_transport_zero {jp : IpHdr} {n : Nat} (h : opts.length + 20 = ihlBytes ip) :
    slice (ipFrame mac jp opts X) (transportOff ip) n = slice X 0 n := by
  rw [ipFrame_eq_prefix, slice_right (length_ipPrefix h) le_rfl, Nat.sub_self]

end

theorem slice_ports {mac : MacHdr} {ip jp : IpHdr} {opts : List Byte} (h : opts.length + 20 = ihlBytes ip) (u : UdpHdr)
    (Y : List Byte) :
    slice (ipFrame mac jp opts (udpBytes u ++ Y)) (transportOff ip) 4 = fieldBytes 2 u.sport ++ fieldBytes 2 u.dport := by
  have e : udpBytes u ++ Y = (fieldBytes 2 u.sport ++ fieldBytes 2 u.dport) ++ (fieldBytes 2 u.ul ++
      (fieldBytes 2 u.ucs ++ Y)) := by simp [udpBytes]
  rw [slice_transport_zero h, e, slice_left (by simp)]

theorem slice_macAddresses (mac : MacHdr) (et : Half) (X : List Byte) :
    slice (macBytes mac et ++ X) 0 12 = fieldBytes 6 mac.dmac ++ fieldBytes 6 mac.smac := by
  rw [macBytes, List.append_assoc, slice_left (by simp)]

/-! ### The outcome's fields (43_ipv4.md R174 to R179) -/

/-- What an IPv4 operation writes are the fields that all of them write, and fields behind the IPv4 header. -/
theorem writes_of_ipOf {i : Instr} {ip : IpHdr} {opts : List Byte} (h : ipOf i = some (ip, opts)) :
    ∃ ws, writes i = ipWrites ++ ws ∧ ∀ p ∈ ws, transportOff ip ≤ p.1 := by
  cases i <;> cases h
  case ipPass | icmpPass => exact ⟨[], (List.append_nil _).symm, by simp⟩
  case icmpEcho | udpSwap | udpSkip => exact ⟨_, rfl, by simp⟩
  case udpAdd | udpSub | udpKeep => exact ⟨_, List.append_assoc _ _ _, by simp⟩

theorem untouched_of_ipOf {i : Instr} {ip : IpHdr} {opts : List Byte} (h : ipOf i = some (ip, opts)) {a : Nat}
    (ha : Outside ipWrites a) (hT : a < transportOff ip) : untouched i a := by
  obtain ⟨ws, hwrites, hbehind⟩ := writes_of_ipOf h
  intro p hp
  rw [hwrites, List.mem_append] at hp
  rcases hp with hp | hp
  · exact ha p hp
  · exact .inl (lt_of_lt_of_le hT (hbehind p hp))

/-- Settles O28: the bytes named are outside every field written, and the flags byte of a reply is zero. -/
theorem ipv4FieldsLeftAlone : Obligations.Ipv4FieldsLeftAlone := by
  intro s i r b ip opts hl hi
  have hexec := exec_of_loaded_ip hl (by rw [hi]; rfl)
  obtain ⟨hopts, mac, X, Y, -, hreply⟩ := ipFrame_reply hl.wf hi
  obtain ⟨-, -, -, hkeep⟩ := otherBytesLeaveAsTheyCame _ _ i r _ _ _ _ hl.cur hl.frame hexec rfl
  refine ⟨_, _, hexec, rfl, ?_, fun a ha => hkeep a (untouched_of_ipOf hi ?_ ?_)⟩
  · have hbyte := getElem?_slice (encode (reply s.idc i)) 20 1 0
    rw [hreply, slice_fragFlags, if_pos Nat.zero_lt_one] at hbyte
    rw [hreply, ← hbyte]
    simp [replyIp, rewrittenIp, fieldBytes, beBytes]
  · intro p hp
    simp only [ipWrites, List.mem_cons, List.not_mem_nil, or_false] at hp
    rcases hp with rfl | rfl | rfl | rfl | rfl <;> simp only <;> omega
  · simp only [transportOff, Config.macHdrLen]
    omega

/-- Settles O29: the reply carries the identifier, and the state after the operation has the next one. -/
theorem identifierIsDrawnOnce : Obligations.IdentifierIsDrawnOnce := by
  constructor
  · intro s i r b hl hi
    obtain ⟨⟨ip, opts⟩, hip⟩ := Option.isSome_iff_exists.1 hi
    obtain ⟨-, mac, X, Y, -, hreply⟩ := ipFrame_reply hl.wf hip
    refine ⟨_, _, exec_of_loaded_ip hl hi, rfl, ?_, BitVec.toNat_add _ _⟩
    rw [hreply, slice_ident]
    rfl
  · intro s t i h hi
    obtain ⟨r, hr, ⟨c, -, rfl⟩ | ⟨-, m, b, -, -, rfl⟩⟩ := exec_next h
    · rfl
    · exact idcAfter_of_none hi s.idc

/-! ### The outcome's checksums (43_ipv4.md R176, 44_icmp.md R191, 45_udp.md R204) -/

/-- The header of every reply validates: its checksum is taken with the field zero and stored at offset 10. -/
theorem cksum_replyIp (id : Half) (ip : IpHdr) (opts : List Byte) : cksum (ipBytes (replyIp id ip opts) ++ opts) = 0 := by
  obtain ⟨P, R, hP, haround⟩ := ipBytes_around_hcs (rewrittenIp id ip) opts
  have hzero : ipBytes (rewrittenIp id ip) ++ opts = P ++ (fieldBytes 2 0 ++ R) := haround 0
  rw [replyIp, haround, hzero]
  exact cksum_stored (by omega) R

/-- Settles O30: the `ihl` bytes from offset 14 on are the reply's header with its options. -/
theorem headerChecksumValidates : Obligations.HeaderChecksumValidates := by
  intro s i r b ip opts hl hi
  obtain ⟨hopts, mac, X, Y, -, hreply⟩ := ipFrame_reply hl.wf hi
  refine ⟨_, _, exec_of_loaded_ip hl (by rw [hi]; rfl), rfl, ?_⟩
  rw [hreply, ← hopts, Nat.add_comm, slice_header, cksum_replyIp]

/-- The message of every echo reply validates. -/
theorem cksum_replyIcs (code : Byte) (rest : List Byte) :
    cksum (icmpBytes Config.icmpEchoReply code (replyIcs code rest) ++ rest) = 0 := by
  have haround (k : Half) : icmpBytes Config.icmpEchoReply code k ++ rest =
      (fieldBytes 1 Config.icmpEchoReply ++ fieldBytes 1 code) ++ (fieldBytes 2 k ++ rest) := by simp [icmpBytes]
  rw [replyIcs, haround, haround]
  exact cksum_stored (by simp) rest

/-- Settles O31: the `tl` bytes from the transport offset on are the reply's message. -/
theorem echoChecksumValidates : Obligations.EchoChecksumValidates := by
  intro s r b mac ip opts code ics rest pad hl
  obtain ⟨hip, -⟩ := wf_icmpEcho.1 hl.wf
  obtain ⟨-, hopts, -⟩ := ipWf_iff.1 hip
  obtain ⟨htl, -, -⟩ := ipWf_bounds hip
  refine ⟨_, _, exec_of_loaded_ip hl rfl, rfl, ?_⟩
  rw [reply, encode, slice_transport_zero hopts, ← List.append_assoc, htl, slice_left (by simp), cksum_replyIcs]

/-- The pseudo-header and the datagram of every UDP reply validate. -/
theorem cksum_replyUdp (ip : IpHdr) (udp : UdpHdr) (q : List Byte) :
    cksum (pseudoHeader ip.dst ip.src udp.ul ++ (udpBytes (replyUdp ip udp q) ++ q)) = 0 := by
  have haround (k : Half) : pseudoHeader ip.dst ip.src udp.ul ++ (udpBytes ⟨udp.dport, udp.sport, udp.ul, k⟩ ++ q) =
      (pseudoHeader ip.dst ip.src udp.ul ++ (fieldBytes 2 udp.dport ++ (fieldBytes 2 udp.sport ++ fieldBytes 2 udp.ul))) ++
        (fieldBytes 2 k ++ q) := by simp [udpBytes]
  have hlen : (pseudoHeader ip.dst ip.src udp.ul ++ (fieldBytes 2 udp.dport ++ (fieldBytes 2 udp.sport ++
      fieldBytes 2 udp.ul))).length % 2 = 0 := by simp [pseudoHeader]
  simp only [replyUdp, rewrittenUdp]
  rw [haround, haround]
  exact cksum_stored hlen q

/-- Settles O32: the addresses and the `ul` bytes of the reply are those its checksum was taken over. -/
theorem udpChecksumValidates : Obligations.UdpChecksumValidates := by
  intro s i r b ip udp hl hi
  obtain ⟨mac, opts, p, q, X, hip, hul, -, hreply⟩ := udpFrame_reply hl.wf hi
  obtain ⟨hopts, -⟩ := ipFrame_reply hl.wf hip
  refine ⟨_, _, exec_of_loaded_ip hl (by rw [hip]; rfl), rfl, ?_⟩
  have hdatagram : slice (encode (reply s.idc i)) (transportOff ip) (udpLen udp) = udpBytes (replyUdp ip udp q) ++ q := by
    rw [hreply, slice_transport_zero hopts, ← List.append_assoc, slice_left (by simp [hul])]
  have hpseudo : slice (encode (reply s.idc i)) 26 8 ++ pseudoTail (udpLen udp) = pseudoHeader ip.dst ip.src udp.ul := by
    rw [hreply, slice_addresses]
    simp [pseudoHeader, pseudoTail, udpLen, fieldBytes, replyIp, rewrittenIp]
  rw [hpseudo, hdatagram, cksum_replyUdp]

/-! ### What the outcome depends on (46_dispatcher.md R235) -/

/-- Two replies of an IPv4 frame under different identifiers differ in the identifier and the header checksum alone. -/
theorem getElem?_replyIp (mac : MacHdr) (ip : IpHdr) (opts Y : List Byte) (id id' : Half) {a : Nat} (h18 : a ≠ 18)
    (h19 : a ≠ 19) (h24 : a ≠ 24) (h25 : a ≠ 25) :
    (ipFrame mac (replyIp id ip opts) opts Y)[a]? = (ipFrame mac (replyIp id' ip opts) opts Y)[a]? := by
  obtain ⟨P, Q, R, hP, hQ, haround⟩ := ipFrame_replyIp_around mac ip opts Y
  rw [haround, haround]
  simp only [List.getElem?_append, hP, hQ, length_fieldBytes]
  by_cases hbefore : a < 18
  · simp only [if_pos hbefore]
  have hident : ¬ a - 18 < 2 := by omega
  simp only [if_neg hbefore, if_neg hident]
  by_cases hbetween : a - 18 - 2 < 4
  · simp only [if_pos hbetween]
  have hhcs : ¬ a - 18 - 2 - 4 < 2 := by omega
  simp only [if_neg hbetween, if_neg hhcs]

/-- The replies of an operation without an IPv4 header do not depend on the identifier. -/
theorem reply_of_no_identifier {i : Instr} (h : ipOf i = none) (id id' : Half) : reply id i = reply id' i := by
  cases i with
  | ipPass | icmpEcho | icmpPass | udpSwap | udpSkip | udpAdd | udpSub | udpKeep => cases h
  | _ => rfl

/-- Settles O36: both machines deliver the same code, or the frames of two replies of one instruction. -/
theorem outcomeDependsOnFrameAndIdc : Obligations.OutcomeDependsOnFrameAndIdc := by
  intro s₁ s₂ i r₁ r₂ b₁ b₂ h₁ h₂
  cases hd : dropOf i with
  | some c =>
    exact ⟨_, _, dropsTakeTheException _ _ _ _ h₁.cur hd, dropsTakeTheException _ _ _ _ h₂.cur hd, .inl ⟨c, rfl, rfl⟩⟩
  | none =>
    refine ⟨_, _, exec_of_loaded h₁ hd, exec_of_loaded h₂ hd, .inr ⟨_, _, rfl, rfl, ?_, fun h => by rw [h],
      fun h => by rw [reply_of_no_identifier h], ?_⟩⟩
    · rw [length_reply, length_reply]
    · intro a h18 h19 h24 h25
      cases hi : ipOf i with
      | none => rw [reply_of_no_identifier hi]
      | some p =>
        obtain ⟨-, mac, X, Y, -, hreply⟩ := ipFrame_reply (ip := p.1) (opts := p.2) h₁.wf hi
        rw [hreply, hreply]
        exact getElem?_replyIp _ _ _ _ _ _ h18 h19 h24 h25

/-! ### Replies reflected again (70_reset_and_hazards.md R318) -/

theorem dropOf_reply (id : Half) (i : Instr) : dropOf (reply id i) = dropOf i := by
  cases i <;> rfl

theorem ipOf_reply {i : Instr} {ip : IpHdr} {opts : List Byte} (h : ipOf i = some (ip, opts)) (id : Half) :
    ipOf (reply id i) = some (replyIp id ip opts, opts) := by
  cases i <;> cases h <;> rfl

theorem udpOf_reply {i : Instr} {ip : IpHdr} {opts : List Byte} {udp : UdpHdr} (hi : ipOf i = some (ip, opts))
    (h : udpOf i = some (ip, udp)) (id : Half) :
    ∃ q, udpOf (reply id i) = some (replyIp id ip opts, replyUdp ip udp q) := by
  cases i <;> cases h <;> cases hi <;> exact ⟨_, rfl⟩

/-- The reply to a reply has the MAC addresses of the first frame. -/
theorem slice_mac_reply_reply {i : Instr} (hd : dropOf i = none) (id id' : Half) :
    slice (encode (reply id' (reply id i))) 0 12 = slice (encode i) 0 12 := by
  obtain ⟨mac, et, X, hframe, hreply⟩ := macBytes_reply hd
  obtain ⟨mac', et', X', hframe', hreply'⟩ := macBytes_reply ((dropOf_reply id i).trans hd)
  obtain ⟨Y, hY⟩ := hreply id
  obtain ⟨Y', hY'⟩ := hreply' id'
  have hmac : mac' = swapMac mac := by
    rw [← getMac_mac mac' et' X', ← hframe', hY, getMac_mac]
  rw [hY', hframe, slice_macAddresses, slice_macAddresses, hmac]
  rfl

/-- The reply to a reply has the IPv4 addresses of the first frame, and its own identifier. -/
theorem slice_ip_reply_reply {i : Instr} (hwf : i.wf = true) (hi : (ipOf i).isSome) (id id' : Half) :
    slice (encode (reply id' (reply id i))) 26 8 = slice (encode i) 26 8 ∧
      slice (encode (reply id' (reply id i))) 18 2 = beBytes 2 id'.toNat := by
  obtain ⟨⟨ip, opts⟩, hip⟩ := Option.isSome_iff_exists.1 hi
  obtain ⟨-, mac, X, Y, hframe, -⟩ := ipFrame_reply hwf hip
  obtain ⟨-, mac', X', Y', -, hreply'⟩ := ipFrame_reply (wf_reply hwf id) (ipOf_reply hip id)
  rw [hreply', hframe, slice_addresses, slice_addresses, slice_ident]
  exact ⟨rfl, rfl⟩

/-- The reply to a reply has the ports of the first frame. -/
theorem slice_ports_reply_reply {i : Instr} {ip : IpHdr} {udp : UdpHdr} (hwf : i.wf = true)
    (hudp : udpOf i = some (ip, udp)) (id id' : Half) :
    slice (encode (reply id' (reply id i))) (transportOff ip) 4 = slice (encode i) (transportOff ip) 4 := by
  obtain ⟨mac, opts, p, q, X, hip, -, hframe, -⟩ := udpFrame_reply hwf hudp
  obtain ⟨hopts, -⟩ := ipFrame_reply hwf hip
  obtain ⟨q', hudp'⟩ := udpOf_reply hip hudp id
  obtain ⟨mac', opts', p', q'', X', hip', -, -, hreply'⟩ := udpFrame_reply (wf_reply hwf id) hudp'
  cases (ipOf_reply hip id).symm.trans hip'
  rw [hreply', hframe, slice_ports hopts, slice_ports hopts]
  simp only [replyUdp, rewrittenUdp]

/-- Settles O34: a reply decodes to itself, so each part is about the reply to a reply. -/
theorem repliesAreReflectedAgain : Obligations.RepliesAreReflectedAgain := by
  refine ⟨fun id i h => ?_, fun id id' i h hd => ?_, fun id id' i h hi => ?_, fun id id' i ip udp h hudp => ?_,
    fun id id' mac a trailer => ?_⟩
  · rw [classify_encode (wf_reply h id), classify_encode h]
    cases i <;> rfl
  · rw [decode_reply h, slice_mac_reply_reply hd]
  · rw [decode_reply h]
    exact slice_ip_reply_reply h hi id id'
  · rw [decode_reply h, slice_ports_reply_reply h hudp]
  · rw [decode_reply rfl]
    rfl

end Sys2Proof.Machine

/-! SUPPORT. Steps: what a step of the machine can be, that it keeps the invariant and does not fault, and how it moves `IDC` and
the counter blocks (46_dispatcher.md R220, 10_state.md R26 to R30, 60_exceptions.md R270, R276). -/

namespace Sys2Proof.Machine

/-! ### The operations that are no reflection -/

/-- Settles O52: both beginning and a reader's step write the snapshots in progress and the deliveries alone. -/
theorem snapshotWritesNothing : Obligations.SnapshotWritesNothing := by
  rintro s t i k w (h | h)
  · obtain ⟨row, -, rfl⟩ := beginRead_next h
    exact ⟨rfl, rfl, rfl, rfl, rfl, rfl⟩
  · obtain ⟨-, hs⟩ | ⟨r, -, ⟨-, hs⟩ | ⟨-, hs⟩⟩ := readerStep_next k w s <;>
      · rw [hs] at h
        cases h
        exact ⟨rfl, rfl, rfl, rfl, rfl, rfl⟩

/-- Settles O46: a frame that is taken meets every duty, and one that meets every duty is taken. -/
theorem refusalIsAHostBreach : Obligations.RefusalIsAHostBreach := by
  intro s i w len F
  constructor
  · rintro ⟨why, herr⟩ ⟨rfl, hp⟩
    rw [acceptFrame_of_presentable hp] at herr
    cases herr
  · intro h
    cases ha : acceptFrame i w len F s with
    | error why => exact ⟨why, rfl⟩
    | ok t =>
      obtain ⟨hlen, hp, -⟩ := acceptFrame_ok ha
      exact absurd ⟨hlen, hp⟩ h

/-- `s` with the frame `F` of lane `(i, w)` in the buffer, where `rest` are the actions left. -/
def State.taking (s : State) (i w : Nat) (F : List Byte) (rest : List Event) : State :=
  { s with cur := some ⟨i, w, ofBytes F⟩, events := rest }

/-- A presented frame is taken and run in the same step (46_dispatcher.md R221). -/
theorem step_of_frameIn {s : State} {i w : Nat} {F : List Byte} {rest : List Event} (hc : s.cur = none)
    (he : s.events = .frameIn i w F.length F :: rest) (hp : Presentable s i w F) :
    step s = exec (decode F) (s.taking i w F rest) := by
  have hp' : Presentable { s with events := rest } i w F := ⟨hp.ready, hp.iface, hp.worker, hp.len⟩
  rw [step_of_event hc he]
  simp only [runEvent, acceptFrame_of_presentable hp']
  rfl

/-- Settles O38: the buffer comes first, and a presented frame is put there before it is run. -/
theorem stepRunsTheDecodedFrame : Obligations.StepRunsTheDecodedFrame := by
  constructor
  · rintro s r i hr rfl
    exact step_of_cur hr
  · rintro s i w F rest ins hc he hp rfl
    exact step_of_frameIn hc he hp

/-! ### Validation and the decoded frame -/

/-- Validation of a frame raises the code of the instruction it decodes to. -/
theorem validate_eq_dropOf (F : List Byte) : validate F = dropOf (decode F) := by
  have hclass (i : Instr) : codeOf (classOf i) = dropOf i := by cases i <;> rfl
  rw [validate_eq_codeOf, ← hclass, ← classify_encode (wf_decode F), encode_decode]

/-- The IPv4 EtherType of a frame that is accepted is that of an IPv4 operation. -/
theorem frameEt_of_ipOf {i : Instr} (h : (ipOf i).isSome) : frameEt (encode i) = 0x0800 := by
  cases i with
  | ipPass | icmpEcho | icmpPass | udpSwap | udpSkip | udpAdd | udpSub | udpKeep => exact frameEt_ip _ _ _ _
  | _ => cases h

theorem ipOf_isSome_of_frameEt {i : Instr} (hwf : i.wf = true) (hd : dropOf i = none) (het : frameEt (encode i) = 0x0800) :
    (ipOf i).isSome := by
  cases i with
  | ipPass | icmpEcho | icmpPass | udpSwap | udpSkip | udpAdd | udpSub | udpKeep => rfl
  | arpReply => rw [encode, frameEt_mac] at het; cases het
  | ethPass => rw [encode, frameEt_mac] at het; exact absurd het (wf_ethPass.1 hwf).1
  | _ => cases hd

/-- Settles O39: the class is a drop class, and the state after the drop has the buffer empty again. -/
theorem droppedFrameLeavesNoTrace : Obligations.DroppedFrameLeavesNoTrace := by
  intro s i w F rest c hc he hp hv
  rw [validate_eq_dropOf] at hv
  rw [step_of_frameIn hc he hp, dropsTakeTheException _ _ _ _ rfl hv, ← hc]
  rfl

/-! ### The invariant -/

/-- Settles O41: one block for one interface and one worker, nothing in progress. -/
theorem invHoldsAtReset : Obligations.InvHoldsAtReset where
  nIf_pos := by decide
  workers_pos := by decide
  rows := fun _ => rfl
  cols := by decide
  reflection := fun _ h => nomatch h
  snapshots := fun _ h => nomatch h

section
variable {s : State}

/-- Every lane of a machine that takes frames has a counter block. -/
theorem Inv.block (h : Inv s) (hready : s.ready = true) {i w : Nat} (hi : i < s.params.nIf) (hw : w < s.params.workers) :
    ∃ b, statAt s.stats i w = some b :=
  statAt_isSome (h.rows hready) (h.cols hready) hi hw

/-- A frame in the buffer under the invariant is one of a well-formed instruction, and its lane has a block. -/
theorem Inv.loaded (h : Inv s) {r : Reflection} (hr : s.cur = some r) :
    ∃ b, Loaded s (decode (bytesOf r.frame)) r b := by
  obtain ⟨hready, hi, hw, hdense⟩ := h.reflection r hr
  obtain ⟨b, hb⟩ := h.block hready hi hw
  exact ⟨b, hr, by rw [encode_decode]; exact hdense, hb, wf_decode _⟩

/-- The invariant does not speak of what the host does next. -/
theorem Inv.withEvents (h : Inv s) (rest : List Event) : Inv { s with events := rest } := by
  obtain ⟨hn, hw, hrows, hcols, hrefl, hsnap⟩ := h
  exact ⟨hn, hw, hrows, hcols, hrefl, hsnap⟩

/-- Taking a presented frame keeps the invariant. -/
theorem Inv.taking (h : Inv s) {i w : Nat} {F : List Byte} (hp : Presentable s i w F) (rest : List Event) :
    Inv (s.taking i w F rest) := by
  obtain ⟨hn, hw, hrows, hcols, -, hsnap⟩ := h
  refine ⟨hn, hw, hrows, hcols, ?_, hsnap⟩
  rintro r ⟨⟩
  exact ⟨hp.ready, hp.iface, hp.worker, ofBytes_dense F⟩

/-- The end of a reflection keeps the invariant: the buffer is empty, and no block comes or goes. -/
theorem Inv.exec (h : Inv s) {i : Instr} {t : State} (hexec : exec i s = .next t) : Inv t := by
  obtain ⟨hn, hw, hrows, hcols, -, hsnap⟩ := h
  obtain ⟨r, hr, ⟨c, -, rfl⟩ | ⟨-, m, b, -, -, rfl⟩⟩ := exec_next hexec
  · exact ⟨hn, hw, hrows, hcols, (fun _ h => nomatch h), hsnap⟩
  · exact ⟨hn, hw, fun hready => (length_setStat ..).trans (hrows hready), fun hready => length_row_setStat (hcols hready),
      (fun _ h => nomatch h), hsnap⟩

theorem Inv.beginRead (h : Inv s) {i : Nat} {t : State} (hnext : beginRead i s = .next t) : Inv t := by
  obtain ⟨hn, hw, hrows, hcols, hrefl, hsnap⟩ := h
  obtain ⟨row, -, rfl⟩ := beginRead_next hnext
  refine ⟨hn, hw, hrows, hcols, hrefl, fun r hr => ?_⟩
  rcases List.mem_append.1 hr with hr | hr
  · exact hsnap r hr
  · rw [List.mem_singleton.1 hr]
    exact List.nodup_range

/-- A turn of the reader keeps what is left of a snapshot free of repetition. -/
theorem nodup_readerTurn (stats : List (List StatBlock)) (w : Option Nat) {r : SnapRead} (h : r.todo.Nodup) :
    (readerTurn stats (readerChoose w r)).todo.Nodup := by
  obtain ⟨l, hperm, hchoose⟩ := readerChoose_spec w r
  have hl : (readerChoose w r).todo.Nodup := by rw [hchoose]; exact hperm.nodup_iff.2 h
  rcases readerTurn_todo stats (readerChoose w r) with hsame | htail
  · rw [hsame]; exact hl
  · rw [htail]; exact hl.sublist (List.tail_sublist _)

theorem Inv.readerStep (h : Inv s) {k : Nat} {w : Option Nat} {t : State} (hnext : readerStep k w s = .next t) : Inv t := by
  obtain ⟨hn, hw, hrows, hcols, hrefl, hsnap⟩ := h
  obtain ⟨-, hs⟩ | ⟨r, hr, ⟨-, hs⟩ | ⟨-, hs⟩⟩ := readerStep_next k w s <;> rw [hs] at hnext <;> cases hnext
  · exact ⟨hn, hw, hrows, hcols, hrefl, hsnap⟩
  · exact ⟨hn, hw, hrows, hcols, hrefl, fun x hx => hsnap x (List.mem_of_mem_eraseIdx hx)⟩
  · refine ⟨hn, hw, hrows, hcols, hrefl, fun x hx => ?_⟩
    rcases List.mem_or_eq_of_mem_set hx with hx | rfl
    · exact hsnap x hx
    · exact nodup_readerTurn _ _ (hsnap r (List.mem_of_getElem? hr))

theorem Inv.applyReset (h : Inv s) : Inv (applyReset s) := by
  obtain ⟨hn, hw, -, -, -, hsnap⟩ := h
  refine ⟨hn, hw, fun _ => List.length_replicate, fun _ row hrow => ?_, (fun _ h => nomatch h), hsnap⟩
  rw [List.eq_of_mem_replicate hrow]
  exact List.length_replicate

theorem Inv.setParams (h : Inv s) (hcur : s.cur = none) {p : Params} {t : State} (hnext : setParams p s = .next t) :
    Inv t := by
  obtain ⟨-, -, -, -, -, hsnap⟩ := h
  obtain ⟨hn, hw, rfl⟩ := setParams_next hnext
  refine ⟨hn, hw, nofun, nofun, fun r hr => ?_, hsnap⟩
  rw [show s.cur = some r from hr] at hcur
  cases hcur

end

/-! ### What a step can be -/

/-- What the step of a state that meets the invariant can be when it answers a next state. -/
inductive StepKind (s t : State) : Prop where
  /-- A reflection: of the frame in the buffer, or of a presented one, which is taken first. -/
  | reflection (s' : State) (r : Reflection) (b : StatBlock) (idc : s'.idc = s.idc) (stats : s'.stats = s.stats)
      (delivered : s'.delivered = s.delivered) (inv : Inv s') (loaded : Loaded s' (decode (bytesOf r.frame)) r b)
      (exec : exec (decode (bytesOf r.frame)) s' = .next t)
  /-- A snapshot begins or goes on, parameters are set, or nothing happens: `IDC` and the counter blocks stay. -/
  | quiet (idc : t.idc = s.idc) (stats : t.stats = s.stats) (inv : Inv t)
  /-- `RESET`. -/
  | reset (rest : List Event) (event : s.events = .reset :: rest) (next : t = applyReset { s with events := rest })

/-- Every next state of a step comes about in one of the ways of `StepKind`. -/
theorem step_next {s t : State} (h : Inv s) (hstep : step s = .next t) : StepKind s t := by
  cases hc : s.cur with
  | some r =>
    obtain ⟨b, hl⟩ := h.loaded hc
    rw [step_of_cur hc] at hstep
    exact .reflection s r b rfl rfl rfl h hl hstep
  | none =>
    cases he : s.events with
    | nil =>
      cases hr : s.reads with
      | nil =>
        simp only [step, hc, he, hr] at hstep
        cases hstep
        exact .quiet rfl rfl h
      | cons r l =>
        simp only [step, hc, he, hr] at hstep
        obtain ⟨hidc, hstats, -⟩ := snapshotWritesNothing s t 0 0 none (.inr hstep)
        exact .quiet hidc hstats (h.readerStep hstep)
    | cons e rest =>
      rw [step_of_event hc he] at hstep
      have hrest := h.withEvents rest
      cases e with
      | frameIn i w len F =>
        simp only [runEvent] at hstep
        split at hstep
        · cases hstep
        · next s' hacc =>
          obtain ⟨-, hp, rfl⟩ := acceptFrame_ok hacc
          have hinv : Inv (s.taking i w F rest) := hrest.taking hp rest
          obtain ⟨b, hl⟩ := hinv.loaded rfl
          exact .reflection (s.taking i w F rest) _ b rfl rfl rfl hinv hl (by rw [bytesOf_ofBytes]; exact hstep)
      | statsRead i =>
        obtain ⟨hidc, hstats, -⟩ := snapshotWritesNothing _ t i 0 none (.inl hstep)
        exact .quiet hidc hstats (hrest.beginRead hstep)
      | readerStep k w =>
        obtain ⟨hidc, hstats, -⟩ := snapshotWritesNothing _ t 0 k w (.inr hstep)
        exact .quiet hidc hstats (hrest.readerStep hstep)
      | reset =>
        cases hstep
        exact .reset rest he rfl
      | setParams p =>
        have hinv := hrest.setParams hc hstep
        obtain ⟨-, -, rfl⟩ := setParams_next hstep
        exact .quiet rfl rfl hinv

/-- Settles O42: each kind of step keeps the invariant. -/
theorem stepKeepsInv : Obligations.StepKeepsInv := by
  intro s t h hstep
  cases step_next h hstep with
  | reflection s' r b hidc hstats hdel hinv hl hexec => exact hinv.exec hexec
  | quiet hidc hstats hinv => exact hinv
  | reset rest he ht => rw [ht]; exact (h.withEvents rest).applyReset

/-- What a loaded instruction does: the drop of its class, or the reflection of its frame. -/
theorem exec_of_loaded_cases {s : State} {i : Instr} {r : Reflection} {b : StatBlock} (hl : Loaded s i r b) :
    (∃ c, dropOf i = some c ∧ exec i s = .next (afterDrop s c)) ∨
      (dropOf i = none ∧ exec i s = .next (afterReflect s r b (idcAfter i s.idc) (encode (reply s.idc i)))) := by
  cases hd : dropOf i with
  | some c => exact .inl ⟨c, rfl, dropsTakeTheException _ _ _ _ hl.cur hd⟩
  | none => exact .inr ⟨rfl, exec_of_loaded hl hd⟩

theorem Inv.exec_ne_fault {s : State} (h : Inv s) {r : Reflection} (hr : s.cur = some r) (f : Fault) :
    Machine.exec (decode (bytesOf r.frame)) s ≠ .fault f := by
  obtain ⟨b, hl⟩ := h.loaded hr
  rcases exec_of_loaded_cases hl with ⟨c, -, hexec⟩ | ⟨-, hexec⟩ <;> rw [hexec] <;> exact nofun

theorem beginRead_ne_fault (i : Nat) (s : State) (f : Fault) : beginRead i s ≠ .fault f := by
  unfold beginRead
  split <;> exact nofun

theorem readerStep_ne_fault (k : Nat) (w : Option Nat) (s : State) (f : Fault) : readerStep k w s ≠ .fault f := by
  obtain ⟨-, hs⟩ | ⟨r, -, ⟨-, hs⟩ | ⟨-, hs⟩⟩ := readerStep_next k w s <;> rw [hs] <;> exact nofun

theorem setParams_ne_fault (p : Params) (s : State) (f : Fault) : setParams p s ≠ .fault f := by
  unfold setParams
  split <;> exact nofun

/-- Settles O43: a reflection under the invariant is of a loaded instruction, and no other action has a fault. -/
theorem noStepFaults : Obligations.NoStepFaults := by
  intro s f h
  cases hc : s.cur with
  | some r =>
    rw [step_of_cur hc]
    exact h.exec_ne_fault hc f
  | none =>
    cases he : s.events with
    | nil =>
      simp only [step, hc, he]
      split
      · exact nofun
      · exact readerStep_ne_fault 0 none s f
    | cons e rest =>
      rw [step_of_event hc he]
      cases e with
      | frameIn i w len F =>
        simp only [runEvent]
        split
        · exact nofun
        · next s' hacc =>
          obtain ⟨-, hp, rfl⟩ := acceptFrame_ok hacc
          have hne := ((h.withEvents rest).taking hp rest).exec_ne_fault rfl f
          rwa [bytesOf_ofBytes] at hne
      | statsRead i => exact beginRead_ne_fault i _ f
      | readerStep k w => exact readerStep_ne_fault k w _ f
      | reset => exact nofun
      | setParams p => exact setParams_ne_fault p _ f

/-! ### `IDC` and the counter blocks -/

/-- Settles O44: a reflection moves `IDC` by its identifier step alone, and every other step but `RESET` leaves it. -/
theorem identifierCounterMovesOnlyAsSpecified : Obligations.IdentifierCounterMovesOnlyAsSpecified := by
  intro s t h hstep
  cases step_next h hstep with
  | quiet hidc hstats hinv => exact .inl hidc
  | reset rest he ht => exact .inr (.inr ⟨⟨rest, he⟩, by rw [ht]; rfl⟩)
  | reflection s' r b hidc hstats hdel hinv hl hexec =>
    cases hi : ipOf (decode (bytesOf r.frame)) with
    | none => exact .inl ((identifierIsDrawnOnce.2 s' t _ hexec hi).trans hidc)
    | some p =>
      have hsome : (ipOf (decode (bytesOf r.frame))).isSome := by rw [hi]; rfl
      have hsome' : (ipOf (reply s'.idc (decode (bytesOf r.frame)))).isSome := by
        rw [ipOf_reply (ip := p.1) (opts := p.2) hi]; rfl
      obtain ⟨-, mac, X, Y, -, hreply⟩ := ipFrame_reply (ip := p.1) (opts := p.2) hl.wf hi
      rw [exec_of_loaded_ip hl hsome] at hexec
      cases hexec
      refine .inr (.inl ⟨r.iface, _, by rw [afterReflect_delivered, hdel], frameEt_of_ipOf hsome', ?_, ?_⟩)
      · rw [hreply, slice_ident, ← hidc]
        rfl
      · rw [afterReflect_idc, hidc]
        exact BitVec.toNat_add _ _

/-- The block of any lane after a reflection: bumped by the frame's length on the reflection's lane, the same elsewhere. -/
theorem statAt_afterReflect {s : State} {r : Reflection} {b : StatBlock} (hb : statAt s.stats r.iface r.worker = some b)
    (id : Half) (out : List Byte) (i w : Nat) :
    statAt (afterReflect s r b id out).stats i w =
      if i = r.iface ∧ w = r.worker then some (bumpBlock b out.length) else statAt s.stats i w := by
  split
  · next h =>
    obtain ⟨rfl, rfl⟩ := h
    exact statAt_setStat_self hb
  · next h => exact statAt_setStat_ne h

/-- The blocks after `RESET`: zeros on every lane and none elsewhere (10_state.md R35). -/
theorem statAt_freshStats (p : Params) (i w : Nat) :
    statAt (freshStats p) i w = if i < p.nIf ∧ w < p.workers then some ⟨0, 0, 0, 0, 0⟩ else none := by
  simp only [statAt, freshStats, List.getElem?_replicate]
  by_cases hi : i < p.nIf
  · by_cases hw : w < p.workers
    · simp [hi, hw, StatBlock.zero]
    · simp [hi, hw]
  · simp [hi]

/-- Settles O45: a reflection bumps its lane's block alone, and every other step but `RESET` leaves all blocks. -/
theorem countersMoveOnlyAsSpecified : Obligations.CountersMoveOnlyAsSpecified := by
  intro s t i w b c h hstep hb hc
  cases step_next h hstep with
  | quiet hidc hstats hinv =>
    rw [hstats, hb] at hc
    cases hc
    exact .inl rfl
  | reset rest he ht =>
    rw [ht, applyReset_stats, statAt_freshStats] at hc
    split at hc <;> cases hc
    exact .inr (.inr ⟨⟨rest, he⟩, rfl⟩)
  | reflection s' r b' hidc hstats hdel hinv hl hexec =>
    rcases exec_of_loaded_cases hl with ⟨code, -, hnext⟩ | ⟨-, hnext⟩ <;> rw [hnext] at hexec <;> cases hexec
    · rw [afterDrop_stats, hstats, hb] at hc
      cases hc
      exact .inl rfl
    · rw [statAt_afterReflect hl.block, hstats] at hc
      split at hc
      · next hlane =>
        obtain ⟨rfl, rfl⟩ := hlane
        have hblock := hl.block
        rw [hstats, hb] at hblock
        cases hblock
        cases hc
        exact .inr (.inl ⟨_, by rw [afterReflect_delivered, hdel], rfl⟩)
      · rw [hb] at hc
        cases hc
        exact .inl rfl

/-! ### The reflection of a presented frame -/

/-- Settles O40: the lane has a block under the invariant, the frame is loaded, and the reply is as long as the frame. -/
theorem acceptedFrameIsReflected : Obligations.AcceptedFrameIsReflected := by
  intro s i w F rest h hc he hp hv
  obtain ⟨b, hl⟩ := (h.taking hp rest).loaded rfl
  rw [bytesOf_ofBytes] at hl
  rw [validate_eq_dropOf] at hv
  have hlen : (encode (reply s.idc (decode F))).length = F.length := by rw [length_reply, encode_decode]
  refine ⟨b, hl.block, ?_⟩
  rw [step_of_frameIn hc he hp, exec_of_loaded hl hv, ← hlen]
  simp only [afterReflect, State.taking, hc]

end Sys2Proof.Machine

/-! SUPPORT. Runs over presented frames: what one presented frame does to the machine, and what a sequence of them adds up to
(60_exceptions.md R290, 47_statistics.md R251, R257, 00_scope.md R11). -/

namespace Sys2Proof.Machine

theorem run_zero (s : State) : Host.Core.run Sys2Proof.core 0 s = .next s := rfl

theorem run_succ_of_step {k : Nat} {s t : State} (h : step s = .next t) :
    Host.Core.run Sys2Proof.core (k + 1) s = Host.Core.run Sys2Proof.core k t := run_succ Sys2Proof.core k s t h

/-! ### Sums of counters -/

theorem addSnapshot_zero (x : Snapshot) : addSnapshot x Snapshot.zero = x := by
  simp [addSnapshot, Snapshot.zero]

theorem addSnapshot_assoc (x y z : Snapshot) : addSnapshot (addSnapshot x y) z = addSnapshot x (addSnapshot y z) := by
  simp only [addSnapshot, BitVec.add_assoc]

theorem addSnapshot_comm (x y : Snapshot) : addSnapshot x y = addSnapshot y x := by
  simp only [addSnapshot, BitVec.add_comm]

/-- What one reflected frame of `L` bytes adds to the aggregate of its interface (47_statistics.md R251). -/
def oneFrame (L : Nat) : Snapshot := ⟨1, 1, BitVec.ofNat 64 L, BitVec.ofNat 64 L⟩

theorem copyBlock_bumpBlock (b : StatBlock) (L : Nat) :
    copyBlock (bumpBlock b L) = addSnapshot (copyBlock b) (oneFrame L) := rfl

/-- Two updates of one block may come in either order. -/
theorem bumpBlock_comm (b : StatBlock) (L L' : Nat) : bumpBlock (bumpBlock b L) L' = bumpBlock (bumpBlock b L') L := by
  simp only [bumpBlock, BitVec.add_assoc, BitVec.add_comm (BitVec.ofNat 64 L)]

/-! ### The update of a lane as a function of the counter blocks -/

/-- The counter blocks after one frame of `L` bytes was reflected on lane `(i, w)`; `setStat_eq_bumpLane` ties it to the
update of the model. -/
def bumpLane (i w L : Nat) (stats : List (List StatBlock)) : List (List StatBlock) :=
  stats.modify i fun row => row.modify w fun b => bumpBlock b L

theorem setStat_eq_bumpLane {stats : List (List StatBlock)} {i w : Nat} {b : StatBlock} (L : Nat)
    (h : statAt stats i w = some b) : setStat stats i w (bumpBlock b L) = bumpLane i w L stats := by
  simp only [statAt] at h
  split at h
  · cases h
  · next row hrow =>
    have hupdate : row.modify w (fun b => bumpBlock b L) = row.set w (bumpBlock b L) := by
      rw [List.modify_eq_set_getElem?, h]
      rfl
    rw [bumpLane, List.modify_eq_set_getElem?]
    simp only [setStat, hrow, Option.map_eq_map, Option.map_some, Option.getD_some, hupdate]

/-- Updates of two lanes, equal or not, may come in either order. -/
theorem bumpLane_comm (i w L j v L' : Nat) (stats : List (List StatBlock)) :
    bumpLane i w L (bumpLane j v L' stats) = bumpLane j v L' (bumpLane i w L stats) := by
  unfold bumpLane
  by_cases hrow : i = j
  · subst hrow
    rw [List.modify_modify_eq, List.modify_modify_eq]
    congr 1
    funext row
    by_cases hlane : w = v
    · subst hlane
      simp only [Function.comp_apply, List.modify_modify_eq]
      congr 1
      funext b
      exact bumpBlock_comm b L' L
    · exact List.modify_modify_ne _ _ row (Ne.symm hlane)
  · exact List.modify_modify_ne _ _ stats (Ne.symm hrow)

/-- An update of one of a row's blocks adds one frame to the row's aggregate. -/
theorem sumBlocks_modify {row : List StatBlock} {w : Nat} (L : Nat) (h : w < row.length) :
    sumBlocks (row.modify w fun b => bumpBlock b L) = addSnapshot (sumBlocks row) (oneFrame L) := by
  induction row generalizing w with
  | nil => exact absurd h (Nat.not_lt_zero w)
  | cons b row ih =>
    cases w with
    | zero =>
      rw [List.modify_zero_cons, sumBlocks, sumBlocks, copyBlock_bumpBlock, addSnapshot_assoc, addSnapshot_assoc,
        addSnapshot_comm (oneFrame L)]
    | succ w => rw [List.modify_succ_cons, sumBlocks, sumBlocks, ih (Nat.lt_of_succ_lt_succ h), addSnapshot_assoc]

/-! ### One presented frame -/

/-- The counter blocks after the frame `x` was presented: its lane's block is updated if the frame is accepted. -/
def statsAfter (x : Presented) (stats : List (List StatBlock)) : List (List StatBlock) :=
  if validate x.bytes = none then bumpLane x.iface x.worker x.bytes.length stats else stats

/-- `t` is `s` after the presented frame `x` has been dropped or reflected, where `rest` are the actions left. -/
structure AfterFrame (s : State) (x : Presented) (rest : List Event) (t : State) : Prop where
  /-- The buffer is empty again. -/
  cur : t.cur = none
  /-- The parameters are the same. -/
  params : t.params = s.params
  /-- The machine takes frames as before. -/
  ready : t.ready = s.ready
  /-- The action is used up. -/
  events : t.events = rest
  /-- `IDC` has moved for an IPv4 operation. -/
  idc : t.idc = idcAfter (decode x.bytes) s.idc
  /-- The counters have moved for an accepted frame. -/
  stats : t.stats = statsAfter x s.stats
  /-- The outcome is delivered; for an accepted frame it is its reply. -/
  delivered : ∃ d, t.delivered = d :: s.delivered ∧
    (validate x.bytes = none → d = .reflect x.iface (encode (reply s.idc (decode x.bytes))))
  /-- The invariant is kept. -/
  inv : Inv t

/-- The step that a presented frame takes. -/
theorem step_frameEvent {s : State} {x : Presented} {rest : List Event} (h : Inv s) (hc : s.cur = none)
    (he : s.events = frameEvent x :: rest) (hp : Presentable s x.iface x.worker x.bytes) :
    ∃ t, step s = .next t ∧ AfterFrame s x rest t := by
  cases hv : validate x.bytes with
  | some c =>
    have hstep := droppedFrameLeavesNoTrace s _ _ _ rest c hc he hp hv
    have hdrop : dropOf (decode x.bytes) = some c := by rw [← validate_eq_dropOf, hv]
    exact ⟨_, hstep, hc, rfl, rfl, rfl, (idcAfter_of_none (ipOf_of_dropOf hdrop) _).symm,
      by rw [statsAfter, if_neg (by rw [hv]; exact nofun)], ⟨_, rfl, by rw [hv]; exact nofun⟩, stepKeepsInv _ _ h hstep⟩
  | none =>
    obtain ⟨b, hb, hstep⟩ := acceptedFrameIsReflected s _ _ _ rest h hc he hp hv
    exact ⟨_, hstep, hc, rfl, rfl, rfl, rfl, by rw [statsAfter, if_pos hv, ← setStat_eq_bumpLane _ hb],
      ⟨_, rfl, fun _ => rfl⟩, stepKeepsInv _ _ h hstep⟩

/-- The host's duties for another frame are as before. -/
theorem AfterFrame.presentable {s t : State} {x y : Presented} {rest : List Event} (h : AfterFrame s x rest t)
    (hp : Presentable s y.iface y.worker y.bytes) : Presentable t y.iface y.worker y.bytes := by
  obtain ⟨hready, hi, hw, hlen⟩ := hp
  rw [← h.params] at hi hw hlen
  exact ⟨h.ready.trans hready, hi, hw, hlen⟩

/-! ### Identifiers (60_exceptions.md R290) -/

/-- An accepted frame of the IPv4 EtherType is an IPv4 operation. -/
theorem ipOf_isSome_decode {F : List Byte} (hv : validate F = none) (het : frameEt F = 0x0800) : (ipOf (decode F)).isSome :=
  ipOf_isSome_of_frameEt (wf_decode F) (by rw [← validate_eq_dropOf, hv]) (by rw [encode_decode, het])

/-- The identifier field of a reply is the identifier that was drawn. -/
theorem rd_ident_reply {i : Instr} (hwf : i.wf = true) (h : (ipOf i).isSome) (id : Half) :
    rd (encode (reply id i)) 18 2 = id.toNat := by
  obtain ⟨⟨ip, opts⟩, hip⟩ := Option.isSome_iff_exists.1 h
  obtain ⟨-, mac, X, Y, -, hreply⟩ := ipFrame_reply hwf hip
  rw [hreply, rd, slice_ident, beNat_fieldBytes]
  rfl

/-- Settles O47, by induction on the frames: each one leaves with the identifier the ones before have left. -/
theorem identifiersAreConsecutive : Obligations.IdentifiersAreConsecutive := by
  intro s fs
  induction fs generalizing s with
  | nil =>
    intro rest h hc he hfs
    exact ⟨s, [], rfl, (BitVec.add_zero _).symm, he, rfl, rfl, nofun⟩
  | cons x fs ih =>
    intro rest h hc he hfs
    obtain ⟨hp, hv, het⟩ := hfs x List.mem_cons_self
    have hip := ipOf_isSome_decode hv het
    obtain ⟨t, hstep, hafter⟩ := step_frameEvent h hc he hp
    have hidc : t.idc = s.idc + 1 := by rw [hafter.idc, idcAfter_of_isSome hip]
    obtain ⟨d, hdel, hd⟩ := hafter.delivered
    obtain ⟨u, outs, hrun, huidc, huevents, hlen, hudel, houts⟩ := ih t rest hafter.inv hafter.cur hafter.events
      fun y hy => ⟨hafter.presentable (hfs y (List.mem_cons_of_mem x hy)).1, (hfs y (List.mem_cons_of_mem x hy)).2⟩
    refine ⟨u, d :: outs, (run_succ_of_step hstep).trans hrun, ?_, huevents, by simp [hlen], by simp [hudel, hdel], ?_⟩
    · rw [huidc, hidc, List.length_cons, Nat.add_comm fs.length 1, BitVec.ofNat_add, BitVec.add_assoc]
      rfl
    · rintro (_ | k) y hy
      · cases hy
        refine ⟨_, by rw [List.getElem?_cons_zero, hd hv], ?_⟩
        rw [rd_ident_reply (wf_decode _) hip, Nat.add_zero]
        exact (Nat.mod_eq_of_lt s.idc.isLt).symm
      · obtain ⟨F', hF', hident⟩ := houts k y hy
        refine ⟨F', hF', ?_⟩
        rw [hident, hidc, BitVec.toNat_add, show (1 : Half).toNat = 1 from rfl]
        omega

/-! ### Totals (47_statistics.md R257) -/

/-- What a presented frame adds to the aggregate of each interface. -/
theorem sumBlocks_statsAfter {s : State} {x : Presented} (h : Inv s) (hp : Presentable s x.iface x.worker x.bytes) {j : Nat}
    {row : List StatBlock} (hrow : s.stats[j]? = some row) :
    ∃ row', (statsAfter x s.stats)[j]? = some row' ∧ ∀ fs,
      addSnapshot (sumBlocks row') (tally fs j) = addSnapshot (sumBlocks row) (tally (x :: fs) j) := by
  by_cases hcounted : x.iface = j ∧ validate x.bytes = none
  · obtain ⟨hj, hv⟩ := hcounted
    have hworker : x.worker < row.length := by
      rw [h.cols hp.ready row (List.mem_of_getElem? hrow)]
      exact hp.worker
    refine ⟨row.modify x.worker fun b => bumpBlock b x.bytes.length, ?_, fun fs => ?_⟩
    · rw [statsAfter, if_pos hv, bumpLane, List.getElem?_modify, hrow, Option.map_eq_map, Option.map_some, if_pos hj]
    rw [sumBlocks_modify _ hworker, tally, if_pos ⟨hj, hv⟩, addSnapshot_assoc]
    rfl
  · refine ⟨row, ?_, fun fs => by rw [tally, if_neg hcounted]⟩
    rw [statsAfter]
    split
    · next hv =>
      have hj : ¬ x.iface = j := fun hj => hcounted ⟨hj, hv⟩
      rw [bumpLane, List.getElem?_modify, hrow, Option.map_eq_map, Option.map_some, if_neg hj]
    · exact hrow

/-- Settles O48, by induction on the frames. -/
theorem totalsCountReflectedFrames : Obligations.TotalsCountReflectedFrames := by
  intro s fs
  induction fs generalizing s with
  | nil =>
    intro rest h hc he hfs
    exact ⟨s, rfl, he, fun j row hrow => ⟨row, hrow, (addSnapshot_zero _).symm⟩⟩
  | cons x fs ih =>
    intro rest h hc he hfs
    have hp := hfs x List.mem_cons_self
    obtain ⟨t, hstep, hafter⟩ := step_frameEvent h hc he hp
    obtain ⟨u, hrun, hevents, htotal⟩ := ih t rest hafter.inv hafter.cur hafter.events
      fun y hy => hafter.presentable (hfs y (List.mem_cons_of_mem x hy))
    refine ⟨u, (run_succ_of_step hstep).trans hrun, hevents, fun j row hrow => ?_⟩
    obtain ⟨row', hrow', hsum⟩ := sumBlocks_statsAfter h hp hrow
    rw [← hafter.stats] at hrow'
    obtain ⟨row'', hrow'', hsum'⟩ := htotal j row' hrow'
    exact ⟨row'', hrow'', hsum'.trans (hsum fs)⟩

/-! ### The order of two frames (00_scope.md R11) -/

theorem idcAfter_comm (i j : Instr) (id : Half) : idcAfter i (idcAfter j id) = idcAfter j (idcAfter i id) := by
  simp only [idcAfter]
  split <;> split <;> rfl

theorem statsAfter_comm (x y : Presented) (stats : List (List StatBlock)) :
    statsAfter x (statsAfter y stats) = statsAfter y (statsAfter x stats) := by
  simp only [statsAfter]
  split
  · split
    · exact bumpLane_comm ..
    · rfl
  · rfl

/-- Two frames presented one after the other. -/
theorem run_two_frames {s : State} {x y : Presented} (h : Inv s) (hc : s.cur = none)
    (hx : Presentable s x.iface x.worker x.bytes) (hy : Presentable s y.iface y.worker y.bytes) :
    ∃ t, Host.Core.run Sys2Proof.core 2 { s with events := [frameEvent x, frameEvent y] } = .next t ∧
      t.idc = idcAfter (decode y.bytes) (idcAfter (decode x.bytes) s.idc) ∧
      t.stats = statsAfter y (statsAfter x s.stats) := by
  obtain ⟨t, hstep, ht⟩ := step_frameEvent (x := x) (h.withEvents [frameEvent x, frameEvent y]) hc rfl
    ⟨hx.ready, hx.iface, hx.worker, hx.len⟩
  obtain ⟨u, hstep', hu⟩ := step_frameEvent (x := y) ht.inv ht.cur ht.events
    (ht.presentable ⟨hy.ready, hy.iface, hy.worker, hy.len⟩)
  refine ⟨u, ?_, by rw [hu.idc, ht.idc], by rw [hu.stats, ht.stats]⟩
  rw [run_succ_of_step hstep, run_succ_of_step hstep', run_zero]

/-- Settles O49: the moves of `IDC` commute, and so do the updates of the counter blocks. -/
theorem frameOrderLeavesIdcAndCountersEqual : Obligations.FrameOrderLeavesIdcAndCountersEqual := by
  intro s x y h hc hx hy
  obtain ⟨t, hrun, hidc, hstats⟩ := run_two_frames h hc hx hy
  obtain ⟨u, hrun', hidc', hstats'⟩ := run_two_frames h hc hy hx
  exact ⟨t, u, hrun, hrun', by rw [hidc, hidc', idcAfter_comm], by rw [hstats, hstats', statsAfter_comm]⟩

end Sys2Proof.Machine

/-! SUPPORT. Snapshots: the retry protocol's phases, and a whole snapshot of a quiet machine in any order of the blocks
(47_statistics.md R252, R253, 20_memory.md R61, R63). -/

namespace Sys2Proof.Machine

/-! ### The retry protocol (47_statistics.md R253) -/

theorem token_bumpBlock_ne (b : StatBlock) (L : Nat) : (bumpBlock b L).token ≠ b.token := by
  rw [bumpBlock_token]
  bv_omega

theorem readerAdvance_stale {b : StatBlock} {t : Word} (h : b.token ≠ t) (r : SnapRead) (c : Snapshot) :
    readerAdvance b { r with phase := .copied t c } = { r with phase := .start } := if_neg h

/-- Settles O51: the three phases by evaluation; an update in between is one that leaves another token. -/
theorem readerDiscardsStaleCopies : Obligations.ReaderDiscardsStaleCopies := by
  intro b L r t c
  exact ⟨rfl, rfl, if_pos rfl, fun h => readerAdvance_stale h r c, token_bumpBlock_ne b L,
    readerAdvance_stale (token_bumpBlock_ne b L) r c⟩

/-! ### Sums over workers -/

/-- The sum of the counters of the workers `ws` of a row, one after another. -/
def sumOver (row : List StatBlock) : List Nat → Snapshot
  | [] => Snapshot.zero
  | w :: ws => addSnapshot ((row[w]?).elim Snapshot.zero copyBlock) (sumOver row ws)

/-- The sum does not depend on the order of the workers. -/
theorem sumOver_perm (row : List StatBlock) {ws vs : List Nat} (h : ws.Perm vs) : sumOver row ws = sumOver row vs := by
  induction h with
  | nil => rfl
  | cons w _ ih => rw [sumOver, sumOver, ih]
  | swap w v l => simp only [sumOver]; rw [← addSnapshot_assoc, ← addSnapshot_assoc, addSnapshot_comm (Option.elim row[v]? _ _)]
  | trans _ _ ih ih' => rw [ih, ih']

theorem sumOver_map_succ (b : StatBlock) (row : List StatBlock) (ws : List Nat) :
    sumOver (b :: row) (ws.map Nat.succ) = sumOver row ws := by
  induction ws with
  | nil => rfl
  | cons w ws ih => rw [List.map_cons, sumOver, sumOver, ih, List.getElem?_cons_succ]

/-- The sum over all workers of a row is its aggregate (47_statistics.md R252). -/
theorem sumOver_range (row : List StatBlock) : sumOver row (List.range row.length) = sumBlocks row := by
  induction row with
  | nil => rfl
  | cons b row ih =>
    rw [List.length_cons, List.range_succ_eq_map, sumOver, sumOver_map_succ, ih]
    rfl

/-! ### One block of a snapshot -/

/-- `s` with the snapshot `r` in progress, where `e` are the actions left. -/
def State.reading (s : State) (r : SnapRead) (e : List Event) : State := { s with reads := [r], events := e }

/-- `s` with the snapshot `r` in progress if blocks are left for it, and delivered if not. -/
def State.settled (s : State) (r : SnapRead) (e : List Event) : State :=
  if r.todo = [] then { s with reads := [], events := e, delivered := .snapshot r.iface r.sum :: s.delivered }
  else s.reading r e

theorem settled_of_done {r : SnapRead} (h : r.todo = []) (s : State) (e : List Event) :
    s.settled r e = { s with reads := [], events := e, delivered := .snapshot r.iface r.sum :: s.delivered } := if_pos h

theorem settled_of_ne {r : SnapRead} (h : r.todo ≠ []) (s : State) (e : List Event) : s.settled r e = s.reading r e :=
  if_neg h

theorem iface_readerTurn (stats : List (List StatBlock)) (w : Option Nat) (r : SnapRead) :
    (readerTurn stats (readerChoose w r)).iface = r.iface := by
  obtain ⟨l, -, hchoose⟩ := readerChoose_spec w r
  rw [hchoose, readerTurn]
  split
  · rfl
  · split
    · rfl
    · exact readerAdvance_iface ..

theorem readerStep_reading (s : State) (r : SnapRead) (e : List Event) (w : Option Nat) :
    readerStep 0 w (s.reading r e) = .next (s.settled (readerTurn s.stats (readerChoose w r)) e) := by
  obtain ⟨hnone, -⟩ | ⟨r', hr', ⟨hdone, hs⟩ | ⟨hleft, hs⟩⟩ := readerStep_next 0 w (s.reading r e)
  · cases hnone
  · cases hr'
    rw [hs, settled_of_done (r := readerTurn s.stats (readerChoose w r)) hdone, iface_readerTurn]
    rfl
  · cases hr'
    rw [hs, settled_of_ne (r := readerTurn s.stats (readerChoose w r)) hleft]
    rfl

/-- The next step is the reader's, with the choice `w`, and leaves the actions `e'` of `e`: it is asked for, or nothing is. -/
def TurnOf (w : Option Nat) (e e' : List Event) : Prop := e = .readerStep 0 w :: e' ∨ w = none ∧ e = [] ∧ e' = []

theorem step_reading {s : State} (hc : s.cur = none) {w : Option Nat} {e e' : List Event} (h : TurnOf w e e')
    (r : SnapRead) : step (s.reading r e) = readerStep 0 w (s.reading r e') := by
  rcases h with rfl | ⟨rfl, rfl, rfl⟩
  · exact step_of_event (s := s.reading r _) hc rfl
  · simp only [step, State.reading, hc]

/-- Where a copy has begun the choice of a worker does nothing. -/
theorem readerChoose_of_ne_start {r : SnapRead} (h : r.phase ≠ .start) (w : Option Nat) : readerChoose w r = r := by
  unfold readerChoose
  split
  · next h' => exact absurd h' h
  · rfl

/-- Three turns with the same choice record the token of a block, copy its counters, and add the copy to the sum, where
nothing comes in between. -/
theorem run_block {s : State} (hc : s.cur = none) {i v k : Nat} {b : StatBlock} (hb : statAt s.stats i v = some b)
    {w : Option Nat} {todo rest : List Nat} {sum : Snapshot} {e e₁ e₂ e₃ : List Event}
    (hchoose : readerChoose w ⟨i, todo, sum, .start⟩ = ⟨i, v :: rest, sum, .start⟩) (h₁ : TurnOf w e e₁)
    (h₂ : TurnOf w e₁ e₂) (h₃ : TurnOf w e₂ e₃) :
    Host.Core.run Sys2Proof.core (k + 3) (s.reading ⟨i, todo, sum, .start⟩ e) =
      Host.Core.run Sys2Proof.core k (s.settled ⟨i, rest, addSnapshot sum (copyBlock b), .start⟩ e₃) := by
  have hturn (phase : ReadPhase) : readerTurn s.stats ⟨i, v :: rest, sum, phase⟩ =
      readerAdvance b ⟨i, v :: rest, sum, phase⟩ := by simp only [readerTurn, hb]
  have hrecord : step (s.reading ⟨i, todo, sum, .start⟩ e) =
      .next (s.reading ⟨i, v :: rest, sum, .recorded b.token⟩ e₁) := by
    rw [step_reading hc h₁, readerStep_reading, hchoose, hturn]
    rfl
  have hcopy : step (s.reading ⟨i, v :: rest, sum, .recorded b.token⟩ e₁) =
      .next (s.reading ⟨i, v :: rest, sum, .copied b.token (copyBlock b)⟩ e₂) := by
    have hkeep := readerChoose_of_ne_start (r := ⟨i, v :: rest, sum, .recorded b.token⟩) nofun w
    rw [step_reading hc h₂, readerStep_reading, hkeep, hturn]
    rfl
  have hadd : step (s.reading ⟨i, v :: rest, sum, .copied b.token (copyBlock b)⟩ e₂) =
      .next (s.settled ⟨i, rest, addSnapshot sum (copyBlock b), .start⟩ e₃) := by
    have hkeep := readerChoose_of_ne_start (r := ⟨i, v :: rest, sum, .copied b.token (copyBlock b)⟩) nofun w
    have hsum : readerAdvance b ⟨i, v :: rest, sum, .copied b.token (copyBlock b)⟩ =
      ⟨i, rest, addSnapshot sum (copyBlock b), .start⟩ := if_pos rfl
    rw [step_reading hc h₃, readerStep_reading, hkeep, hturn, hsum]
  rw [run_succ_of_step hrecord, run_succ_of_step hcopy, run_succ_of_step hadd]

/-! ### A whole snapshot of a quiet machine -/

/-- The reader's actions that ask for the blocks of the workers `order`, three steps to a block. -/
def askFor (order : List Nat) : List Event := order.flatMap fun w => List.replicate 3 (.readerStep 0 (some w))

/-- The actions `e` make the reader take the blocks of `todo` in the order `order`: they ask for it, or they leave the reader
to itself, and it takes them as they come. -/
def TakesInOrder (order todo : List Nat) (e : List Event) : Prop :=
  order.Perm todo ∧ e = askFor order ∨ order = todo ∧ e = []

/-- The first block of an order: the choice that takes it, and what is left. -/
theorem TakesInOrder.first {v : Nat} {order todo : List Nat} {e : List Event} (h : TakesInOrder (v :: order) todo e)
    (i : Nat) (sum : Snapshot) :
    ∃ w rest e₁ e₂ e₃, readerChoose w ⟨i, todo, sum, .start⟩ = ⟨i, v :: rest, sum, .start⟩ ∧ TurnOf w e e₁ ∧
      TurnOf w e₁ e₂ ∧ TurnOf w e₂ e₃ ∧ TakesInOrder order rest e₃ := by
  rcases h with ⟨hperm, rfl⟩ | ⟨rfl, rfl⟩
  · have hv : v ∈ todo := hperm.subset List.mem_cons_self
    exact ⟨some v, todo.erase v, _, _, askFor order, if_pos hv, .inl rfl, .inl rfl, .inl rfl,
      .inl ⟨(List.cons_perm_iff_perm_erase.1 hperm).2, rfl⟩⟩
  · have hidle : TurnOf none [] [] := .inr ⟨rfl, rfl, rfl⟩
    exact ⟨none, order, [], [], [], rfl, hidle, hidle, hidle, .inr ⟨rfl, rfl⟩⟩

/-- A snapshot that takes its blocks in some order ends with their sum delivered and the block as it was. -/
theorem run_settled {s : State} (hc : s.cur = none) {i : Nat} {row : List StatBlock} (hrow : s.stats[i]? = some row)
    {order todo : List Nat} {sum : Snapshot} {e : List Event} (h : TakesInOrder order todo e)
    (hbound : ∀ v ∈ order, v < row.length) :
    Host.Core.run Sys2Proof.core (3 * order.length) (s.settled ⟨i, todo, sum, .start⟩ e) =
      .next { s with reads := [], events := [], delivered := .snapshot i (addSnapshot sum (sumOver row order)) ::
        s.delivered } := by
  induction order generalizing todo sum e with
  | nil =>
    have hdone : todo = [] ∧ e = [] := by
      rcases h with ⟨hperm, rfl⟩ | ⟨rfl, rfl⟩
      · exact ⟨hperm.nil_eq.symm, rfl⟩
      · exact ⟨rfl, rfl⟩
    obtain ⟨rfl, rfl⟩ := hdone
    rw [sumOver, addSnapshot_zero]
    rfl
  | cons v order ih =>
    have hne : todo ≠ [] := by
      rintro rfl
      rcases h with ⟨hperm, -⟩ | ⟨heq, -⟩
      · exact List.cons_ne_nil v order hperm.eq_nil
      · cases heq
    have hv : v < row.length := hbound v List.mem_cons_self
    have hb : statAt s.stats i v = some row[v] := by
      simp only [statAt, hrow]
      exact List.getElem?_eq_getElem hv
    obtain ⟨w, rest, e₁, e₂, e₃, hchoose, h₁, h₂, h₃, hrest⟩ := h.first i sum
    rw [settled_of_ne hne, List.length_cons, Nat.mul_succ, run_block hc hb hchoose h₁ h₂ h₃,
      ih hrest fun u hu => hbound u (List.mem_cons_of_mem v hu), sumOver, List.getElem?_eq_getElem hv, addSnapshot_assoc]
    rfl

/-- A snapshot of a quiet machine from its beginning, with the actions `e` to follow: the exact sums, whatever the order. -/
theorem run_statsRead {s : State} (hc : s.cur = none) (hreads : s.reads = []) {i : Nat} {row : List StatBlock}
    (hrow : s.stats[i]? = some row) (hne : row ≠ []) {order : List Nat} {e : List Event}
    (hperm : order.Perm (List.range row.length)) (h : TakesInOrder order (List.range row.length) e) :
    Host.Core.run Sys2Proof.core (1 + 3 * row.length) { s with events := .statsRead i :: e } =
      .next { s with events := [], delivered := .snapshot i (sumBlocks row) :: s.delivered } := by
  have hrange : List.range row.length ≠ [] := by simpa using hne
  have hbegin : step { s with events := .statsRead i :: e } =
      .next (s.settled ⟨i, List.range row.length, Snapshot.zero, .start⟩ e) := by
    rw [step_of_event (s := { s with events := .statsRead i :: e }) hc rfl, settled_of_ne hrange]
    simp only [runEvent, beginRead, hrow, hreads, State.reading, List.nil_append]
  have hlen : order.length = row.length := by rw [hperm.length_eq, List.length_range]
  have hrun := run_settled hc hrow (sum := Snapshot.zero) h fun v hv => List.mem_range.1 (hperm.subset hv)
  rw [hlen] at hrun
  rw [Nat.add_comm, run_succ_of_step hbegin, hrun, addSnapshot_comm, addSnapshot_zero, sumOver_perm row hperm, sumOver_range,
    ← hreads]

/-- Settles O50: the reader is left to itself and takes the blocks upwards. -/
theorem quietSnapshotIsExact : Obligations.QuietSnapshotIsExact := by
  intro s i row hc hreads hrow hne
  exact run_statsRead hc hreads hrow hne (List.Perm.refl _) (.inr ⟨rfl, rfl⟩)

/-- Settles O57: the reader is asked for the blocks in the order given. -/
theorem snapshotInAnyOrderIsExact : Obligations.SnapshotInAnyOrderIsExact := by
  intro s i row order hc hreads hrow hne hperm
  exact run_statsRead hc hreads hrow hne hperm (.inl ⟨hperm, rfl⟩)

end Sys2Proof.Machine

/-! SUPPORT. Reset, parameters and the idle machine (70_reset_and_hazards.md R300, R302, 10_state.md R35, 60_exceptions.md
R287). -/

namespace Sys2Proof.Machine

/-- Settles O53: the state after is `applyReset`'s, whose blocks are the fresh ones of the parameters. -/
theorem resetClearsTheBlock : Obligations.ResetClearsTheBlock := by
  intro s
  exact ⟨applyReset s, rfl, rfl, rfl, rfl, rfl, List.length_replicate, statAt_freshStats s.params⟩

/-- Settles O54: the blocks of the parameters at reset, of which there is one. -/
theorem stateAtReset : Obligations.StateAtReset := by
  refine ⟨rfl, rfl, fun i w => ?_⟩
  have hlane : (i < defaultParams.nIf ∧ w < defaultParams.workers) ↔ (i = 0 ∧ w = 0) :=
    and_congr Nat.lt_one_iff Nat.lt_one_iff
  rw [← if_congr hlane rfl rfl]
  exact statAt_freshStats defaultParams i w

/-- Settles O55: the parameters are taken, a machine that is not ready refuses every frame first of all, and `RESET` makes it
ready. -/
theorem parametersThenReset : Obligations.ParametersThenReset := by
  intro s p hnIf hworkers
  have hset : runEvent (.setParams p) s = .next { s with params := p, ready := false } := if_neg (by omega)
  exact ⟨_, hset, rfl, fun i w len F => rfl, _, rfl, rfl, rfl⟩

/-- Settles O56: no reflection, no action and no snapshot leave the last case of `step`. -/
theorem idleKeepsAllState : Obligations.IdleKeepsAllState := by
  intro s hc he hr
  simp only [step, hc, he, hr]

end Sys2Proof.Machine
